-- ==== Sys2Proof/Word.lean ====
section
/-! DEFINITION. The word types of the core: bytes, nibbles, 32-bit grid values and the 16-bit bit accumulator. -/

namespace Sys2Proof

/-- An element of `IN` and `O` (R50). -/
abbrev Byte := BitVec 8

/-- A 4-bit value, 0..15 (R14). -/
abbrev Nibble := BitVec 4

/-- `i32` of R8: the 32-bit two's-complement values of the grid and of the transform. -/
abbrev Word := BitVec 32

/-- The bit accumulator `buf` (R23). -/
abbrev Accumulator := BitVec 16

end Sys2Proof
end

