-- ==== Sys2Proof/Config.lean ====
section
/-! DEFINITION. What an implementation fixes: the parameters of R6. No free value is needed: on every path that goes on, the spec gives every value. -/

namespace Sys2Proof.Config

/-- `HEADER_BYTES` (R6, R71). -/
def headerBytes : Nat := 21

/-- `MAX_DIM` (R6): the largest admitted `max(nx,ny)`. -/
def maxDim : Nat := 2 ^ 29

/-- `MAX_BITPLANES` (R6): the largest admitted bitplane count. -/
def maxBitplanes : Nat := 32

/-- The OPEN parameters of R6. The state carries them, so a statement about every state is a statement about
every value of the parameters. -/
structure Params where
  /-- `GRID_CAPACITY`: the largest `nx*ny` the grid memory holds. -/
  gridCapacity : Nat
  /-- `MAX_INPUT`: the longest input the host may present. -/
  maxInput : Nat
  deriving DecidableEq, Repr

/-- The parameters `State.reset` holds. DESIGN CHOICE (log entry 4): the capacity of the spec's test vectors,
and an input length no vector exceeds. -/
def Params.initial : Params := { gridCapacity := 2 ^ 24, maxInput := 2 ^ 32 }

end Sys2Proof.Config
end

