-- ==== Sys2Proof/Syntax.lean ====
section
/-! DEFINITION. The tokens of the stream, which are the core's instructions (R2), and the places of the grammar they stand in (R75, R88). -/

namespace Sys2Proof

/-- The tokens: one constructor for each row of spec/opcode_table.json, in the table's order. -/
inductive Instr where
  /-- `HDR.MAGIC`, the bytes `DD 99` (R72). -/
  | hdrMagic
  /-- `HDR.NX` (R73). -/
  | hdrNx (v : Word)
  /-- `HDR.NY` (R73). -/
  | hdrNy (v : Word)
  /-- `HDR.SCALE` (R73). -/
  | hdrScale (v : Word)
  /-- `HDR.SUMALL` (R73). -/
  | hdrSumall (v : Word)
  /-- `HDR.NBP0` (R74). -/
  | hdrNbp0 (n : Byte)
  /-- `HDR.NBP1` (R74). -/
  | hdrNbp1 (n : Byte)
  /-- `HDR.NBP2` (R74). -/
  | hdrNbp2 (n : Byte)
  /-- `FMT.D`: a direct bitplane follows (R76). -/
  | fmtD
  /-- `FMT.Q`: a quadtree bitplane follows (R76). -/
  | fmtQ
  /-- `FMT.illegal`: a format code in `1..E` (R76, R234). -/
  | fmtIllegal (f : Nibble)
  /-- `NYB`: a direct nibble (R77). -/
  | nyb (v : Nibble)
  /-- `HUF 1` (R80). -/
  | huf1
  /-- `HUF 2` (R80). -/
  | huf2
  /-- `HUF 4` (R80). -/
  | huf4
  /-- `HUF 8` (R80). -/
  | huf8
  /-- `HUF 3` (R80). -/
  | huf3
  /-- `HUF 5` (R80). -/
  | huf5
  /-- `HUF 10` (R80). -/
  | huf10
  /-- `HUF 12` (R80). -/
  | huf12
  /-- `HUF 15` (R80). -/
  | huf15
  /-- `HUF 6` (R80). -/
  | huf6
  /-- `HUF 7` (R80). -/
  | huf7
  /-- `HUF 9` (R80). -/
  | huf9
  /-- `HUF 11` (R80). -/
  | huf11
  /-- `HUF 13` (R80). -/
  | huf13
  /-- `HUF 0` (R80). -/
  | huf0
  /-- `HUF 14` (R80). -/
  | huf14
  /-- `TERM`: the terminator `0000` (R82). -/
  | term
  /-- `TERM.illegal`: a terminator in `1..F` (R82, R235). -/
  | termIllegal (t : Nibble)
  /-- `SGN`: one sign bit, 1 to negate (R84). -/
  | sgn (s : BitVec 1)
  /-- `PAD`: `len` ignored bits, 0 to 7 of them (R83). Their value `p` has no effect. -/
  | pad (len : Fin 8) (p : BitVec 7)
  /-- `ALIGN`: the bit-cursor reset, which consumes no bits (R89, R102). -/
  | align
  deriving DecidableEq, Repr

/-- The places of the grammar. Which tokens may stand at the cursor follows from the place alone (R88). -/
inductive Slot where
  | magic | nx | ny | scale | sumall | nbp0 | nbp1 | nbp2
  | fmt | nyb | huf | term | sgn | pad | align
  deriving DecidableEq, Repr

/-- The place a token stands in (R75). -/
def Instr.slot : Instr → Slot
  | .hdrMagic => .magic
  | .hdrNx _ => .nx
  | .hdrNy _ => .ny
  | .hdrScale _ => .scale
  | .hdrSumall _ => .sumall
  | .hdrNbp0 _ => .nbp0
  | .hdrNbp1 _ => .nbp1
  | .hdrNbp2 _ => .nbp2
  | .fmtD => .fmt
  | .fmtQ => .fmt
  | .fmtIllegal _ => .fmt
  | .nyb _ => .nyb
  | .huf1 => .huf
  | .huf2 => .huf
  | .huf4 => .huf
  | .huf8 => .huf
  | .huf3 => .huf
  | .huf5 => .huf
  | .huf10 => .huf
  | .huf12 => .huf
  | .huf15 => .huf
  | .huf6 => .huf
  | .huf7 => .huf
  | .huf9 => .huf
  | .huf11 => .huf
  | .huf13 => .huf
  | .huf0 => .huf
  | .huf14 => .huf
  | .term => .term
  | .termIllegal _ => .term
  | .sgn _ => .sgn
  | .pad _ _ => .pad
  | .align => .align

/-- The nibble a Huffman token stands for (R80), none for the other tokens. -/
def Instr.hufValue : Instr → Option Nibble
  | .huf1 => some 1
  | .huf2 => some 2
  | .huf4 => some 4
  | .huf8 => some 8
  | .huf3 => some 3
  | .huf5 => some 5
  | .huf10 => some 10
  | .huf12 => some 12
  | .huf15 => some 15
  | .huf6 => some 6
  | .huf7 => some 7
  | .huf9 => some 9
  | .huf11 => some 11
  | .huf13 => some 13
  | .huf0 => some 0
  | .huf14 => some 14
  | .hdrMagic | .hdrNx _ | .hdrNy _ | .hdrScale _ | .hdrSumall _ | .hdrNbp0 _ | .hdrNbp1 _ | .hdrNbp2 _ => none
  | .fmtD | .fmtQ | .fmtIllegal _ | .nyb _ | .term | .termIllegal _ | .sgn _ | .pad _ _ | .align => none

end Sys2Proof
end

