-- ==== Sys2Proof/Machine/State.lean ====
section
/-! DEFINITION. The state of the core, all of it (R21 to R41), as plain data; the reasons a step stops; the state after reset. -/

namespace Sys2Proof.Machine

/-- Why the model stops in a fault. R230: a fault means the model has diverged from the spec, and is unreachable
for admitted streams. -/
inductive Fault where
  /-- Raised by every access to `A`, `S` or `T` at or above its size (R60, U7). Safe. -/
  | indexOutOfBounds
  /-- Raised by a read of an entry of `S` or `T`, or of a group of registers, that R39 leaves unspecified and
  nothing has written since (R40, U8). Safe. -/
  | unwrittenRead
  /-- Raised by `exec` of a token where the grammar has none of its kind (R88; log entry 6). No step does so. Safe. -/
  | tokenOutOfPlace
  /-- Raised by the fetch when the bits it read are no token of the place for another reason than a wrong magic
  pair. No state with `btg ≤ 7` does so. Safe. -/
  | undecodable
  deriving DecidableEq, Repr

/-- What the model gives no meaning. -/
inductive Refusal where
  /-- The token has no meaning in this model yet. Raised by `exec` only. Safe. -/
  | notModelled (mnemonic : String)
  /-- Raised by the host's `START` of more than `MAX_INPUT` bytes: R245 gives the host no such move (log entry 7). Safe. -/
  | inputTooLong
  deriving DecidableEq, Repr

/-- `STATUS.STATE` (R32). -/
inductive SessionState where
  | idle | busy | done | error | refused
  deriving DecidableEq, Repr

/-- The error kinds of `ERR_KIND` (R33, R236). -/
inductive ErrKind where
  | none | streamExhausted | badMagicNumber | badFormatCode | badBitplaneTerminator
  deriving DecidableEq, Repr

/-- The reasons of `REFUSE_REASON` (R33, R239). -/
inductive RefuseReason where
  | none | badGeometry | gridTooLarge | bitplaneCountTooLarge | emptyQuadrantQuadtree
  deriving DecidableEq, Repr

/-- The stage labels (R31), and `NONE` (R33). -/
inductive Stage where
  | none
  | header
  | fmt (q : Fin 4) (bit : Nat)
  | direct (q : Fin 4) (bit : Nat)
  | qtree (q : Fin 4) (bit : Nat)
  | terminator
  | signs
  deriving DecidableEq, Repr

/-- `phase` (R30). -/
inductive Phase where
  | idle | header | pass1 | terminator | signs | dcset | undigitize | hinv | pack | done | error | refused
  deriving DecidableEq, Repr

/-- The position within the phase (R30): which token is read next, or which operation runs next. -/
inductive Point where
  /-- The core waits for `START` (R260). -/
  | idle
  /-- Header tokens (R130). -/
  | magic | nx | ny | scale | sumall | nbp0 | nbp1 | nbp2
  /-- R131, R132. -/
  | admitHdr | clear
  /-- The token `ALIGN` that begins pass 1 (R133). -/
  | align1
  /-- The entry to a quadrant (R134) and the head of its bitplane loop (R135). -/
  | quad | plane
  /-- The format code (R136). -/
  | fmt
  /-- The head of the loop of direct nibbles, and a direct nibble (R137). -/
  | direct | nyb
  /-- The codeword of the top level (R138). -/
  | top
  /-- The head of the level loop (R138), the scan of one level and a codeword it asks for (R141). -/
  | level | expand | huf
  /-- R142. -/
  | bitins
  /-- The terminator (R144) and the pad after it (R83). -/
  | term | pad1
  /-- The token `ALIGN` that begins pass 2 (R145). -/
  | align2
  /-- The scan of the sign pass, a sign bit it asks for (R145), and the pad after the last (R83). -/
  | sign | sgn | pad2
  /-- R146 and R200. -/
  | setDC | undigitize
  /-- R171 with R172; the head of the level loop (R170, R174, R183); R176; R181; R182. -/
  | hinit | hlevel | unshuffle | combine | halve
  /-- One pixel of R203, or the end of the session (R206). -/
  | pack
  /-- The session has ended (R206, R233, R238). -/
  | done | error | refused
  deriving DecidableEq, Repr

/-- The record the host reads (R32 to R34). -/
structure Status where
  /-- `STATE` -/
  state : SessionState
  /-- `ERR_KIND` -/
  errKind : ErrKind
  /-- `ERR_STAGE` -/
  errStage : Stage
  /-- `ERR_POS` -/
  errPos : Nat
  /-- `REFUSE_REASON` -/
  refuseReason : RefuseReason
  /-- `HDR_NX` -/
  hdrNx : Word
  /-- `HDR_NY` -/
  hdrNy : Word
  /-- `HDR_SCALE` -/
  hdrScale : Word
  /-- `HDR_SUMALL` -/
  hdrSumall : Word
  /-- `HDR_NBP0` -/
  hdrNbp0 : Byte
  /-- `HDR_NBP1` -/
  hdrNbp1 : Byte
  /-- `HDR_NBP2` -/
  hdrNbp2 : Byte
  /-- `HDR_VALID` -/
  hdrValid : Bool
  /-- `OUT_LEN` -/
  outLen : Nat
  deriving DecidableEq, Repr

/-- The header registers (R24). -/
structure HdrRegs where
  nx : Word
  ny : Word
  scale : Word
  sumall : Word
  nbp0 : Byte
  nbp1 : Byte
  nbp2 : Byte
  deriving DecidableEq, Repr

/-- An indexed array (R50): its size, and the entries that are listed, indices strictly rising. What an unlisted
entry reads as is said where the array is read. -/
structure Bank (w : Nat) where
  size : Nat
  cells : List (Nat × BitVec w)
  deriving DecidableEq, Repr

/-- The QuadtreeDecoder's registers (R29) and the operands of `qtreeDecode` (R135). -/
structure QtRegs where
  /-- the quadrant (R30) -/
  q : Fin 4
  off : Nat
  n : Nat
  nqx : Nat
  nqy : Nat
  P : Nat
  /-- bitplanes still to come: the control of the loop of R135 -/
  planes : Nat
  L : Nat
  bit : Nat
  b : Nat
  mx : Nat
  my : Nat
  ex : Nat
  ey : Nat
  fx : Nat
  fy : Nat
  c : Nat
  t : Nat
  /-- the expansion level (R138) -/
  k : Nat
  deriving DecidableEq, Repr

/-- The inverse-transform registers and loop registers (R29). -/
structure HtRegs where
  bit0 : Word
  bit1 : Word
  bit2 : Word
  mask0 : Word
  mask1 : Word
  mask2 : Word
  prnd0 : Word
  prnd1 : Word
  prnd2 : Word
  nrnd0 : Word
  nrnd1 : Word
  nrnd2 : Word
  shift : Word
  lowbit0 : Word
  lowbit1 : Word
  h0 : Word
  hx : Word
  hy : Word
  hc : Word
  log2n : Nat
  k : Nat
  c : Nat
  nxtop : Nat
  nytop : Nat
  nxf : Nat
  nyf : Nat
  oddx : Nat
  oddy : Nat
  /-- levels still to come: the control of the loop of R170 -/
  levels : Nat
  deriving DecidableEq, Repr

/-- Which groups of the registers that R39 leaves unspecified the session has written. The model's own: it is
there to raise the fault of R40 (log entry 1). -/
structure Written where
  hdr : Bool
  qt : Bool
  ht : Bool
  deriving DecidableEq, Repr

/-- A move of the host between two engine steps (R245). `wait` is the host making no transaction while the engine
takes one step. -/
inductive HostMove where
  | start (bytes : List Byte)
  | readStatus
  | readOutput
  | reset
  | wait
  deriving DecidableEq, Repr

/-- What the host gets back (R245). -/
inductive HostReply where
  /-- `ACCEPTED` -/
  | accepted
  /-- `BUSY` (R246) -/
  | busy
  /-- a copy of `STATUS` -/
  | status (r : Status)
  /-- `O` -/
  | output (bytes : List Byte)
  /-- `NONE`: no byte -/
  | noOutput
  deriving DecidableEq, Repr

/-- The whole state: `STATUS`, the session state of R21, the position of R30, the parameters of R6, and the
model's own `written`, `plan` and `reply`. -/
structure State where
  /-- the parameters (R6) -/
  cfg : Config.Params
  /-- `STATUS` (R32) -/
  status : Status
  /-- `IN` (R22) -/
  input : List Byte
  /-- bytes of `IN` consumed (R22) -/
  pos : Nat
  /-- the bit accumulator (R23) -/
  buf : Accumulator
  /-- unconsumed bits in `buf` (R23) -/
  btg : Nat
  /-- the header registers (R24) -/
  hdr : HdrRegs
  /-- the coefficient grid (R25); `nel` is its size, and a size of 0 is the grid that does not exist -/
  A : Bank 32
  /-- the nibble scratch (R26) -/
  S : Bank 4
  /-- the unshuffle buffer (R27) -/
  T : Bank 32
  /-- the output (R28) -/
  O : List Byte
  /-- the quadtree registers (R29) -/
  qt : QtRegs
  /-- the transform registers (R29) -/
  ht : HtRegs
  /-- the grid index in `SIGNS` and `PACK` (R30) -/
  gi : Nat
  /-- the stage label (R31) -/
  stage : Stage
  /-- the phase (R30) -/
  phase : Phase
  /-- the position within the phase (R30) -/
  point : Point
  /-- which unspecified registers are written (R40); the model's own -/
  written : Written
  /-- the host's moves to come; the model's own (log entry 5) -/
  plan : List HostMove
  /-- what the host got back last; the model's own (log entry 5) -/
  reply : Option HostReply
  deriving DecidableEq, Repr

/-- An array that does not exist. -/
def Bank.absent {w : Nat} : Bank w := { size := 0, cells := [] }

/-- `STATUS` after power-on reset (R39). -/
def Status.reset : Status :=
  { state := .idle, errKind := .none, errStage := .none, errPos := 0, refuseReason := .none
    hdrNx := 0, hdrNy := 0, hdrScale := 0, hdrSumall := 0, hdrNbp0 := 0, hdrNbp1 := 0, hdrNbp2 := 0
    hdrValid := false, outLen := 0 }

/-- R39 leaves these unspecified; zero is the model's DESIGN CHOICE, which no step reads (log entry 1). -/
def HdrRegs.reset : HdrRegs := { nx := 0, ny := 0, scale := 0, sumall := 0, nbp0 := 0, nbp1 := 0, nbp2 := 0 }

/-- As `HdrRegs.reset` (log entry 1). -/
def QtRegs.reset : QtRegs :=
  { q := 0, off := 0, n := 0, nqx := 0, nqy := 0, P := 0, planes := 0, L := 0, bit := 0, b := 0
    mx := 0, my := 0, ex := 0, ey := 0, fx := 0, fy := 0, c := 0, t := 0, k := 0 }

/-- As `HdrRegs.reset` (log entry 1). -/
def HtRegs.reset : HtRegs :=
  { bit0 := 0, bit1 := 0, bit2 := 0, mask0 := 0, mask1 := 0, mask2 := 0
    prnd0 := 0, prnd1 := 0, prnd2 := 0, nrnd0 := 0, nrnd1 := 0, nrnd2 := 0, shift := 0
    lowbit0 := 0, lowbit1 := 0, h0 := 0, hx := 0, hy := 0, hc := 0
    log2n := 0, k := 0, c := 0, nxtop := 0, nytop := 0, nxf := 0, nyf := 0, oddx := 0, oddy := 0, levels := 0 }

/-- Nothing is written after reset (R39). -/
def Written.reset : Written := { hdr := false, qt := false, ht := false }

/-- The machine right after power-on reset (R39, R260): it waits for `START`. -/
def State.reset : State :=
  { cfg := Config.Params.initial
    status := Status.reset
    input := [], pos := 0, buf := 0, btg := 0
    hdr := HdrRegs.reset
    A := Bank.absent, S := Bank.absent, T := Bank.absent, O := []
    qt := QtRegs.reset, ht := HtRegs.reset
    gi := 0, stage := .none, phase := .idle, point := .idle
    written := Written.reset
    plan := [], reply := none }

end Sys2Proof.Machine
end

