-- ==== Sys2Proof/Machine/Flags.lean ====
section
/-! DEFINITION. The core has no flags (R13, R35). Its conditions are here: the phase and the grammar place of a position, the host-visible state of a phase, and the numeric codes of `ERR_KIND`. -/

namespace Sys2Proof.Machine

/-- The phase a position belongs to (R30). -/
def Point.phase : Point → Phase
  | .idle => .idle
  | .magic | .nx | .ny | .scale | .sumall | .nbp0 | .nbp1 | .nbp2 | .admitHdr | .clear => .header
  | .align1 | .quad | .plane | .fmt | .direct | .nyb | .top | .level | .expand | .huf | .bitins => .pass1
  | .term | .pad1 => .terminator
  | .align2 | .sign | .sgn | .pad2 => .signs
  | .setDC => .dcset
  | .undigitize => .undigitize
  | .hinit | .hlevel | .unshuffle | .combine | .halve => .hinv
  | .pack => .pack
  | .done => .done
  | .error => .error
  | .refused => .refused

/-- The place of the grammar a position stands at, where it reads a token (R75, R88). -/
def Point.slot : Point → Option Slot
  | .magic => some .magic
  | .nx => some .nx
  | .ny => some .ny
  | .scale => some .scale
  | .sumall => some .sumall
  | .nbp0 => some .nbp0
  | .nbp1 => some .nbp1
  | .nbp2 => some .nbp2
  | .fmt => some .fmt
  | .nyb => some .nyb
  | .top | .huf => some .huf
  | .term => some .term
  | .sgn => some .sgn
  | .pad1 | .pad2 => some .pad
  | .align1 | .align2 => some .align
  | .idle | .admitHdr | .clear | .quad | .plane | .direct | .level | .expand | .bitins | .sign | .setDC | .undigitize => none
  | .hinit | .hlevel | .unshuffle | .combine | .halve | .pack | .done | .error | .refused => none

/-- `STATUS.STATE` in a phase (R32): BUSY from START until the session ends. -/
def Phase.sessionState : Phase → SessionState
  | .idle => .idle
  | .header | .pass1 | .terminator | .signs | .dcset | .undigitize | .hinv | .pack => .busy
  | .done => .done
  | .error => .error
  | .refused => .refused

/-- The numeric codes of `ERR_KIND` (R33, R236). -/
def ErrKind.code : ErrKind → Nat
  | .none => 0
  | .streamExhausted => 1
  | .badMagicNumber => 2
  | .badFormatCode => 3
  | .badBitplaneTerminator => 4

/-- The completion condition `STATE = DONE`, the one under which the host reads the output (R35, R67). -/
def State.outputReady (s : State) : Bool := decide (s.status.state = .done)

/-- A session is running (R32). -/
def State.busy (s : State) : Bool := decide (s.status.state = .busy)

end Sys2Proof.Machine
end

