-- ==== Sys2Proof/Machine/Operands.lean ====
section
/-! DEFINITION. The operand forms and the arithmetic: `i32` comparisons, shifts and rounding (R8, R11), dimension arithmetic (R8, R9), the bit of a nibble (R79), quadrant geometry (R58), the extent recurrences (R139, R174), and the transform's constants and block arithmetic (R171 to R183). -/

namespace Sys2Proof.Machine

/-! ### Dimension arithmetic (R8, R9) -/

/-- `ceil_div(a, b)` (R8). -/
def ceilDiv (a b : Nat) : Nat := (a + b - 1) / b

/-- The search of `ceilLog2`: the first `L` from `l` on with `n ≤ 2^L`, looking at most `fuel` further. -/
def ceilLog2From (n : Nat) : Nat → Nat → Nat
  | 0, l => l
  | fuel + 1, l => if n ≤ 2 ^ l then l else ceilLog2From n fuel (l + 1)

/-- `ceil_log2(n)` (R9): the smallest `L` with `2^L ≥ n`. It is at most `n`, so `n` steps of the search suffice. -/
def ceilLog2 (n : Nat) : Nat := ceilLog2From n n 0

/-- `nx` as a dimension. -/
def HdrRegs.rows (h : HdrRegs) : Nat := h.nx.toInt.toNat

/-- `ny` as a dimension, which is the row stride of the grid (R12). -/
def HdrRegs.cols (h : HdrRegs) : Nat := h.ny.toInt.toNat

/-- `max(nx,ny)`. -/
def HdrRegs.maxDim (h : HdrRegs) : Nat := max h.rows h.cols

/-- The even numbers below `m`, ascending (R181). -/
def evensBelow (m : Nat) : List Nat := (List.range (ceilDiv m 2)).map (fun i => 2 * i)

/-! ### `i32` arithmetic (R8, R11) -/

/-- `v >= 0` for an `i32` (R8). -/
def nonneg (v : Word) : Bool := decide (0 ≤ v.toInt)

/-- `x >> s` for an `i32`: arithmetic (R8). -/
def asr (x : Word) (s : Nat) : Word := x.sshiftRight s

/-- The rounding of R172 and R177: `(v + (v >= 0 ? p : n)) & mask`. -/
def roundWith (p n mask v : Word) : Word := (v + (if nonneg v then p else n)) &&& mask

/-- `rnd(v, m)` for `m = 2^e`, `e ≥ 1` (R11). -/
def rnd (v : Word) (e : Nat) : Word :=
  let m : Word := BitVec.ofNat 32 (2 ^ e)
  roundWith (asr m 1) (asr m 1 - 1) (-m) v

/-! ### Nibbles and quadrants (R58, R79) -/

/-- The bit of a nibble for element `(i, j)`: bit 3 top-left, 2 top-right, 1 bottom-left, 0 bottom-right (R79). -/
def nibbleBit (v : Nibble) (i j : Nat) : Bool := v.getLsbD (3 - 2 * (i % 2) - j % 2)

/-- The offset, extent and bitplane count of a quadrant. -/
structure Quadrant where
  off : Nat
  nqx : Nat
  nqy : Nat
  P : Nat
  deriving DecidableEq, Repr

/-- The quadrant table (R58, R134). -/
def quadrantOf (h : HdrRegs) (q : Fin 4) : Quadrant :=
  let nx := h.rows
  let ny := h.cols
  let nx2 := ceilDiv nx 2
  let ny2 := ceilDiv ny 2
  match q with
  | 0 => { off := 0, nqx := nx2, nqy := ny2, P := h.nbp0.toNat }
  | 1 => { off := ny2, nqx := nx2, nqy := ny / 2, P := h.nbp1.toNat }
  | 2 => { off := ny * nx2, nqx := nx / 2, nqy := ny2, P := h.nbp1.toNat }
  | 3 => { off := ny * nx2 + ny2, nqx := nx / 2, nqy := ny / 2, P := h.nbp2.toNat }

/-- One coordinate of the extent recurrence (R139, R174): from the extent `e` and the rest `f`, with the halved
`c`. -/
def stepExtent (c e f : Nat) : Nat × Nat :=
  if f ≤ c then (2 * e - 1, f) else (2 * e, f - c)

/-- `nextExtent` (R139). -/
def nextExtent (r : QtRegs) : QtRegs :=
  let c := r.c / 2
  let x := stepExtent c r.ex r.fx
  let y := stepExtent c r.ey r.fy
  { r with c := c, ex := x.1, fx := x.2, ey := y.1, fy := y.2 }

/-- The entry of a quadrant: the operands of `qtreeDecode` (R134), and `mx`, `my` (R135). -/
def enterQuadrant (h : HdrRegs) (r : QtRegs) : QtRegs :=
  let g := quadrantOf h r.q
  { r with
    off := g.off, n := h.cols, nqx := g.nqx, nqy := g.nqy, P := g.P, planes := g.P
    mx := ceilDiv g.nqx 2, my := ceilDiv g.nqy 2 }

/-! ### The transform's constants (R171, R182, R183) and loop registers (R170, R174) -/

/-- `initConstants()` (R171), for `log2n` already set. -/
def initConstants (r : HtRegs) : HtRegs :=
  let bit0 : Word := BitVec.ofNat 32 (2 ^ (r.log2n - 1))
  let bit1 := bit0 <<< 1
  let bit2 := bit0 <<< 2
  let mask0 := -bit0
  let prnd0 := asr bit0 1
  let prnd1 := asr bit1 1
  let prnd2 := asr bit2 1
  { r with
    bit0 := bit0, bit1 := bit1, bit2 := bit2
    mask0 := mask0, mask1 := mask0 <<< 1, mask2 := mask0 <<< 2
    prnd0 := prnd0, prnd1 := prnd1, prnd2 := prnd2
    nrnd0 := prnd0 - 1, nrnd1 := prnd1 - 1, nrnd2 := prnd2 - 1
    shift := 1 }

/-- The loop registers of `hinv` at its entry (R170). -/
def initLoop (h : HdrRegs) (r : HtRegs) : HtRegs :=
  let log2n := ceilLog2 h.maxDim
  { r with
    log2n := log2n, levels := log2n
    nxtop := 1, nytop := 1, nxf := h.rows, nyf := h.cols, c := 2 ^ log2n }

/-- `levelExtents()` (R174). -/
def levelExtents (r : HtRegs) : HtRegs :=
  let c := r.c / 2
  let x := stepExtent c r.nxtop r.nxf
  let y := stepExtent c r.nytop r.nyf
  { r with c := c, nxtop := x.1, nxf := x.2, nytop := y.1, nyf := y.2 }

/-- The override of the final level (R183). -/
def finalLevel (r : HtRegs) : HtRegs :=
  if r.k = 0 then { r with nrnd0 := 0, shift := 2 } else r

/-- The entry of the next level: `k`, the extents, the override (R170). -/
def enterLevel (r : HtRegs) : HtRegs :=
  finalLevel (levelExtents { r with k := r.levels - 1, levels := r.levels - 1 })

/-- `halveConstants()` (R182). -/
def halveConstants (r : HtRegs) : HtRegs :=
  let prnd0 := asr r.prnd0 1
  { r with
    bit2 := r.bit1, bit1 := r.bit0, bit0 := asr r.bit0 1
    mask1 := r.mask0, mask0 := asr r.mask0 1
    prnd1 := r.prnd0, prnd0 := prnd0
    nrnd1 := r.nrnd0, nrnd0 := prnd0 - 1 }

/-! ### Block arithmetic (R177 to R180), on the registers `h0`, `hx`, `hy`, `hc` already loaded -/

/-- `rnd1` of R177. -/
def HtRegs.rnd1 (r : HtRegs) (v : Word) : Word := roundWith r.prnd1 r.nrnd1 r.mask1 v

/-- `rnd0` of R177. -/
def HtRegs.rnd0 (r : HtRegs) (v : Word) : Word := roundWith r.prnd0 r.nrnd0 r.mask0 v

/-- `v` moved by `d` away from its sign: `v - d` for `v >= 0`, else `v + d` (R177, R178, R179). -/
def towardZero (v d : Word) : Word := if nonneg v then v - d else v + d

/-- `combineBlock`'s rounding and low-bit propagation (R177). -/
def roundBlock (r : HtRegs) : HtRegs :=
  let hx := r.rnd1 r.hx
  let hy := r.rnd1 r.hy
  let hc := r.rnd0 r.hc
  let lowbit0 := hc &&& r.bit0
  let hx := towardZero hx lowbit0
  let hy := towardZero hy lowbit0
  let lowbit1 := (hc ^^^ hx ^^^ hy) &&& r.bit1
  let h0 :=
    if nonneg r.h0 then r.h0 + lowbit0 - lowbit1
    else r.h0 + (if lowbit0 = 0 then lowbit1 else lowbit0 - lowbit1)
  { r with hx := hx, hy := hy, hc := hc, lowbit0 := lowbit0, lowbit1 := lowbit1, h0 := h0 }

/-- `combineOddY`'s rounding (R178). -/
def roundOddY (r : HtRegs) : HtRegs :=
  let hx := r.rnd1 r.hx
  let lowbit1 := hx &&& r.bit1
  { r with hx := hx, lowbit1 := lowbit1, h0 := towardZero r.h0 lowbit1 }

/-- `combineOddX`'s rounding (R179). -/
def roundOddX (r : HtRegs) : HtRegs :=
  let hy := r.rnd1 r.hy
  let lowbit1 := hy &&& r.bit1
  { r with hy := hy, lowbit1 := lowbit1, h0 := towardZero r.h0 lowbit1 }

end Sys2Proof.Machine
end

