-- ==== Sys2Proof/Machine/Ops.lean ====
section
/-! DEFINITION. The operations over memory and registers: the banks `A`, `S`, `T`; the BitReader (R100 to R105); moving to a position; and the two ways a session ends early, `raise` (R233) and `refuse` (R238). The core has no return from either (R241). -/

namespace Sys2Proof.Machine

/-- The outcome of a step or of a token's meaning. -/
abbrev Result := Host.Outcome State Fault Refusal

/-! ### Banks -/

/-- The value listed at an index, if one is. -/
def cellsGet {w : Nat} : List (Nat × BitVec w) → Nat → Option (BitVec w)
  | [], _ => none
  | (j, v) :: rest, i => if j = i then some v else cellsGet rest i

/-- List a value at an index, in its place among rising indices. -/
def cellsPut {w : Nat} (i : Nat) (v : BitVec w) : List (Nat × BitVec w) → List (Nat × BitVec w)
  | [] => [(i, v)]
  | (j, u) :: rest =>
    if i < j then (i, v) :: (j, u) :: rest
    else if i = j then (i, v) :: rest
    else (j, u) :: cellsPut i v rest

/-- List nothing at an index. -/
def cellsDrop {w : Nat} (i : Nat) : List (Nat × BitVec w) → List (Nat × BitVec w)
  | [] => []
  | (j, u) :: rest => if j = i then cellsDrop i rest else (j, u) :: cellsDrop i rest

/-- Every index listed is above `lo`, and the indices rise strictly. -/
def risingFrom {w : Nat} : Nat → List (Nat × BitVec w) → Bool
  | _, [] => true
  | lo, (j, _) :: rest => decide (lo ≤ j) && risingFrom (j + 1) rest

/-- The canonical form of a bank whose unlisted entries have no value (`S` and `T`): indices strictly rising and
below the size. -/
def Bank.wf {w : Nat} (b : Bank w) : Bool :=
  risingFrom 0 b.cells && b.cells.all (fun p => decide (p.1 < b.size))

/-- The canonical form of the grid, whose unlisted entries read 0 (R132): that of `Bank.wf`, and no entry listed is 0. -/
def Bank.gridWf (b : Bank 32) : Bool := b.wf && b.cells.all (fun p => decide (p.2 ≠ 0))

/-- The memories of a state are in canonical form. -/
def Memory.wf (s : State) : Bool := s.A.gridWf && s.S.wf && s.T.wf

/-- Allocate a bank of `size` entries with nothing listed: a grid of zeros, or a scratch in which nothing is
written. -/
def Bank.alloc {w : Nat} (size : Nat) : Bank w := { size := size, cells := [] }

/-- Read `A[i]` (R10). An unlisted entry is 0 (R132). An index at or above `nel` faults (R60). -/
def Bank.readGrid (b : Bank 32) (i : Nat) : Except Fault Word :=
  if i < b.size then .ok ((cellsGet b.cells i).getD 0) else .error .indexOutOfBounds

/-- Write `A[i]` (R10). Writing 0 lists nothing. -/
def Bank.writeGrid (b : Bank 32) (i : Nat) (v : Word) : Except Fault (Bank 32) :=
  if i < b.size then
    .ok { b with cells := if v = 0 then cellsDrop i b.cells else cellsPut i v b.cells }
  else .error .indexOutOfBounds

/-- Read `S[i]` or `T[i]` (R10). An entry nothing has written faults (R40, U8). -/
def Bank.readScratch {w : Nat} (b : Bank w) (i : Nat) : Except Fault (BitVec w) :=
  if i < b.size then
    match cellsGet b.cells i with
    | some v => .ok v
    | none => .error .unwrittenRead
  else .error .indexOutOfBounds

/-- Write `S[i]` or `T[i]` (R10). -/
def Bank.writeScratch {w : Nat} (b : Bank w) (i : Nat) (v : BitVec w) : Except Fault (Bank w) :=
  if i < b.size then .ok { b with cells := cellsPut i v b.cells } else .error .indexOutOfBounds

/-- `for i in is: a <- f i a`, ended by the first fault. -/
def forEach {α : Type} (f : Nat → α → Except Fault α) : List Nat → α → Except Fault α
  | [], a => .ok a
  | i :: is, a =>
    match f i a with
    | .ok b => forEach f is b
    | .error e => .error e

/-! ### The BitReader -/

/-- What a read of the stream gives: a value and the state after it, or the state in which a byte was needed and
none remained (R100). -/
inductive Read (α : Type) where
  | got (a : α) (s : State)
  | exhausted (s : State)

/-- Go on with a read. -/
def Read.andThen {α β : Type} (r : Read α) (f : α → State → Read β) : Read β :=
  match r with
  | .got a s => f a s
  | .exhausted s => .exhausted s

/-- `nextByte()`, which is `StreamByte()` (R100). -/
def nextByte (s : State) : Read Byte :=
  match s.input[s.pos]? with
  | some v => .got v { s with pos := s.pos + 1 }
  | none => .exhausted s

/-- `nextInt32BE()` (R101). -/
def nextInt32BE (s : State) : Read Word :=
  (nextByte s).andThen fun b0 s =>
  (nextByte s).andThen fun b1 s =>
  (nextByte s).andThen fun b2 s =>
  (nextByte s).andThen fun b3 s =>
  .got (b0 ++ b1 ++ b2 ++ b3) s

/-- `resetBitCursor()` (R102). `buf` keeps its stale value. -/
def resetBitCursor (s : State) : State := { s with btg := 0 }

/-- `nextBit()` (R103). -/
def nextBit (s : State) : Read Bool :=
  if s.btg = 0 then
    (nextByte s).andThen fun v s =>
    .got ((v.setWidth 16).getLsbD 7) { s with buf := v.setWidth 16, btg := 7 }
  else .got (s.buf.getLsbD (s.btg - 1)) { s with btg := s.btg - 1 }

/-- The last two lines of `nextBits(n)` (R104): take the top `n` of the `btg` bits left. -/
def takeBits (n : Nat) (s : State) : Read (BitVec n) :=
  .got (s.buf.extractLsb' (s.btg - n) n) { s with btg := s.btg - n }

/-- `nextBits(n)` (R104), for `1 ≤ n ≤ 8`. -/
def nextBits (n : Nat) (s : State) : Read (BitVec n) :=
  if s.btg < n then
    (nextByte s).andThen fun v s =>
    takeBits n { s with buf := (s.buf <<< 8) ||| v.setWidth 16, btg := s.btg + 8 }
  else takeBits n s

/-- `nextNybble()` (R105). -/
def nextNybble (s : State) : Read Nibble := nextBits 4 s

/-! ### Sequencing -/

/-- Go to a position, and to the phase it belongs to (R30). -/
def State.goto (p : Point) (s : State) : State := { s with point := p, phase := p.phase }

/-- A token's meaning runs at its place in the grammar only (R88; log entry 6). -/
def inSlot (k : Slot) (s : State) (r : Result) : Result :=
  if s.point.slot = some k then r else .fault .tokenOutOfPlace

/-- An operation that reads registers R39 leaves unspecified runs only once they are written: R40 and D15 order the
fault. -/
def needs (isWritten : Bool) (r : Result) : Result :=
  if isWritten then r else .fault .unwrittenRead

/-! ### The early ends of a session -/

/-- `A`, `S` and `T` are discarded (R233, R238). -/
def State.discard (s : State) : State := { s with A := Bank.absent, S := Bank.absent, T := Bank.absent }

/-- `raise K(stage, pos)` (R233): the error record is written and the session ends in `ERROR`. -/
def raise (kind : ErrKind) (s : State) : State :=
  let s := s.discard.goto .error
  { s with status := { s.status with state := .error, errKind := kind, errStage := s.stage, errPos := s.pos } }

/-- `refuse R` (R238): the reason is written and the session ends in `REFUSED`. -/
def refuse (reason : RefuseReason) (s : State) : State :=
  let s := s.discard.goto .refused
  { s with status := { s.status with state := .refused, refuseReason := reason } }

end Sys2Proof.Machine
end

