-- ==== Sys2Proof/Machine/Format.lean ====
section
/-! DEFINITION. The format code tokens (R76, R136) and the direct nibble (R77, R137). -/

namespace Sys2Proof.Machine

/-- `FMT.D` (R136): a direct bitplane, whose nibbles follow from `t = 0` (R137). -/
def execFmtD (s : State) : Result :=
  inSlot .fmt s <| needs s.written.qt <|
    .next (State.goto .direct { s with qt := { s.qt with b := 0, t := 0 }, stage := .direct s.qt.q s.qt.bit })

/-- `FMT.Q` (R136): a quadtree bitplane, refused in an empty quadrant (R138, R143). -/
def execFmtQ (s : State) : Result :=
  inSlot .fmt s <| needs s.written.qt <|
    let s := { s with qt := { s.qt with b := 15 }, stage := .qtree s.qt.q s.qt.bit }
    if s.qt.nqx = 0 ∨ s.qt.nqy = 0 then .next (refuse .emptyQuadrantQuadtree s)
    else .next (State.goto .top { s with qt := { s.qt with L := ceilLog2 (max s.qt.nqx s.qt.nqy) } })

/-- `FMT.illegal` (R136, R234): `BadFormatCode` is raised, at the stage of the format code. -/
def execFmtIllegal (f : Nibble) (s : State) : Result :=
  inSlot .fmt s (.next (raise .badFormatCode { s with qt := { s.qt with b := f.toNat } }))

/-- `NYB` (R137): the nibble goes to `S[t]`. -/
def execNyb (v : Nibble) (s : State) : Result :=
  inSlot .nyb s <| needs s.written.qt <|
    match s.S.writeScratch s.qt.t v with
    | .ok b => .next (State.goto .direct { s with S := b, qt := { s.qt with t := s.qt.t + 1 } })
    | .error e => .fault e

end Sys2Proof.Machine
end

