-- ==== Sys2Proof/Machine/Header.lean ====
section
/-! DEFINITION. The header tokens (R71 to R74, R130). The fetch has consumed the bytes and, for the magic, compared them. -/

namespace Sys2Proof.Machine

/-- A 32-bit header field or a count goes to its register, and the next field follows (R130). -/
def storeHdr (k : Slot) (f : HdrRegs → HdrRegs) (next : Point) (s : State) : Result :=
  inSlot k s (.next (State.goto next { s with hdr := f s.hdr }))

/-- The header capture fields of `STATUS`, written once the whole header has been read (R34, R130). -/
def captureHeader (s : State) : State :=
  { s with
    status := { s.status with
      hdrNx := s.hdr.nx, hdrNy := s.hdr.ny, hdrScale := s.hdr.scale, hdrSumall := s.hdr.sumall
      hdrNbp0 := s.hdr.nbp0, hdrNbp1 := s.hdr.nbp1, hdrNbp2 := s.hdr.nbp2
      hdrValid := true }
    written := { s.written with hdr := true } }

/-- `HDR.MAGIC` (R72, R130): the pair is `DD 99`, so the parse goes on. -/
def execHdrMagic (s : State) : Result := inSlot .magic s (.next (s.goto .nx))

/-- `HDR.NX` (R73, R130). -/
def execHdrNx (v : Word) (s : State) : Result := storeHdr .nx (fun h => { h with nx := v }) .ny s

/-- `HDR.NY` (R73, R130). -/
def execHdrNy (v : Word) (s : State) : Result := storeHdr .ny (fun h => { h with ny := v }) .scale s

/-- `HDR.SCALE` (R73, R130). -/
def execHdrScale (v : Word) (s : State) : Result := storeHdr .scale (fun h => { h with scale := v }) .sumall s

/-- `HDR.SUMALL` (R73, R130). -/
def execHdrSumall (v : Word) (s : State) : Result := storeHdr .sumall (fun h => { h with sumall := v }) .nbp0 s

/-- `HDR.NBP0` (R74, R130). -/
def execHdrNbp0 (n : Byte) (s : State) : Result := storeHdr .nbp0 (fun h => { h with nbp0 := n }) .nbp1 s

/-- `HDR.NBP1` (R74, R130). -/
def execHdrNbp1 (n : Byte) (s : State) : Result := storeHdr .nbp1 (fun h => { h with nbp1 := n }) .nbp2 s

/-- `HDR.NBP2` (R74, R130): the header is complete, and `STATUS` captures it (R34). -/
def execHdrNbp2 (n : Byte) (s : State) : Result :=
  inSlot .nbp2 s (.next (State.goto .admitHdr (captureHeader { s with hdr := { s.hdr with nbp2 := n } })))

end Sys2Proof.Machine
end

