-- ==== Sys2Proof/Machine/Huffman.lean ====
section
/-! DEFINITION. The Huffman tokens (R80, R120): the decoded nibble goes to the top of the quadtree (R138) or to the entry of the level the scan stands at (R141). -/

namespace Sys2Proof.Machine

/-- The value of the top level's codeword, and the loop registers before the first level (R138). -/
def storeTop (v : Nibble) (s : State) : Result :=
  match s.S.writeScratch 0 v with
  | .ok b =>
    .next (State.goto .level
      { s with
        S := b
        qt := { s.qt with ex := 1, ey := 1, fx := s.qt.nqx, fy := s.qt.nqy, c := 2 ^ s.qt.L, k := 1 } })
  | .error e => .fault e

/-- The value of an expansion level's codeword, for entry `t` (R141). -/
def storeExpanded (v : Nibble) (s : State) : Result :=
  match s.S.writeScratch s.qt.t v with
  | .ok b => .next (State.goto .expand { s with S := b })
  | .error e => .fault e

/-- What every Huffman token does with its value (R123). -/
def storeHuf (v : Nibble) (s : State) : Result :=
  inSlot .huf s <| needs s.written.qt <|
    if s.point = .top then storeTop v s else storeExpanded v s

/-- `HUF 1`, codeword `000` (R80, R120). -/
def execHuf1 (s : State) : Result := storeHuf 1 s

/-- `HUF 2`, codeword `001` (R80, R120). -/
def execHuf2 (s : State) : Result := storeHuf 2 s

/-- `HUF 4`, codeword `010` (R80, R120). -/
def execHuf4 (s : State) : Result := storeHuf 4 s

/-- `HUF 8`, codeword `011` (R80, R120). -/
def execHuf8 (s : State) : Result := storeHuf 8 s

/-- `HUF 3`, codeword `1000` (R80, R120). -/
def execHuf3 (s : State) : Result := storeHuf 3 s

/-- `HUF 5`, codeword `1001` (R80, R120). -/
def execHuf5 (s : State) : Result := storeHuf 5 s

/-- `HUF 10`, codeword `1010` (R80, R120). -/
def execHuf10 (s : State) : Result := storeHuf 10 s

/-- `HUF 12`, codeword `1011` (R80, R120). -/
def execHuf12 (s : State) : Result := storeHuf 12 s

/-- `HUF 15`, codeword `1100` (R80, R120). -/
def execHuf15 (s : State) : Result := storeHuf 15 s

/-- `HUF 6`, codeword `11010` (R80, R120). -/
def execHuf6 (s : State) : Result := storeHuf 6 s

/-- `HUF 7`, codeword `11011` (R80, R120). -/
def execHuf7 (s : State) : Result := storeHuf 7 s

/-- `HUF 9`, codeword `11100` (R80, R120). -/
def execHuf9 (s : State) : Result := storeHuf 9 s

/-- `HUF 11`, codeword `11101` (R80, R120). -/
def execHuf11 (s : State) : Result := storeHuf 11 s

/-- `HUF 13`, codeword `11110` (R80, R120). -/
def execHuf13 (s : State) : Result := storeHuf 13 s

/-- `HUF 0`, codeword `111110` (R80, R120). At an expansion level it is accepted too (R122). -/
def execHuf0 (s : State) : Result := storeHuf 0 s

/-- `HUF 14`, codeword `111111` (R80, R120). -/
def execHuf14 (s : State) : Result := storeHuf 14 s

end Sys2Proof.Machine
end

