-- ==== Sys2Proof/Machine/SignPass.lean ====
section
/-! DEFINITION. The terminator (R82, R144), the pad (R83), the bit-cursor reset that begins a pass (R102, R133, R145) and the sign bit (R84, R145). -/

namespace Sys2Proof.Machine

/-- `TERM` (R144): the terminator is 0, and pass 1 ends in its pad. -/
def execTerm (s : State) : Result := inSlot .term s (.next (s.goto .pad1))

/-- `TERM.illegal` (R144, R235): `BadBitplaneTerminator` is raised before the sign pass. -/
def execTermIllegal (_t : Nibble) (s : State) : Result :=
  inSlot .term s (.next (raise .badBitplaneTerminator s))

/-- `SGN` (R145): 1 negates the entry, with wrap (R8), 0 keeps it. -/
def execSgn (b : BitVec 1) (s : State) : Result :=
  inSlot .sgn s <|
    match s.A.readGrid s.gi with
    | .error e => .fault e
    | .ok v =>
      match (if b = 1 then s.A.writeGrid s.gi (-v) else .ok s.A) with
      | .ok a => .next (State.goto .sign { s with A := a, gi := s.gi + 1 })
      | .error e => .fault e

/-- `PAD` (R83): the bits are never read, and nothing but the position changes. After pass 1 the reset of pass 2
follows, after pass 2 the placement of the DC value. -/
def execPad (_len : Fin 8) (_p : BitVec 7) (s : State) : Result :=
  inSlot .pad s (.next (s.goto (if s.point = .pad1 then .align2 else .setDC)))

/-- `ALIGN` (R102): the bit cursor is reset, and a pass begins: pass 1 at quadrant 0 (R133, R134), or the sign
pass at index 0 (R145). -/
def execAlign (s : State) : Result :=
  inSlot .align s <|
    if s.point = .align1 then .next (State.goto .quad (resetBitCursor { s with qt := { s.qt with q := 0 } }))
    else .next (State.goto .sign (resetBitCursor { s with stage := .signs, gi := 0 }))

end Sys2Proof.Machine
end

