-- ==== Sys2Proof/Machine/Dispatch.lean ====
section
/-! DEFINITION. One arm for each token: the call of its meaning. -/

namespace Sys2Proof.Machine

/-- The meaning of a token that has been fetched. -/
def exec (i : Instr) (s : State) : Host.Outcome State Fault Refusal :=
  match i with
  | .hdrMagic => Sys2Proof.Machine.execHdrMagic s
  | .hdrNx v => Sys2Proof.Machine.execHdrNx v s
  | .hdrNy v => Sys2Proof.Machine.execHdrNy v s
  | .hdrScale v => Sys2Proof.Machine.execHdrScale v s
  | .hdrSumall v => Sys2Proof.Machine.execHdrSumall v s
  | .hdrNbp0 n => Sys2Proof.Machine.execHdrNbp0 n s
  | .hdrNbp1 n => Sys2Proof.Machine.execHdrNbp1 n s
  | .hdrNbp2 n => Sys2Proof.Machine.execHdrNbp2 n s
  | .fmtD => Sys2Proof.Machine.execFmtD s
  | .fmtQ => Sys2Proof.Machine.execFmtQ s
  | .fmtIllegal f => Sys2Proof.Machine.execFmtIllegal f s
  | .nyb v => Sys2Proof.Machine.execNyb v s
  | .huf1 => Sys2Proof.Machine.execHuf1 s
  | .huf2 => Sys2Proof.Machine.execHuf2 s
  | .huf4 => Sys2Proof.Machine.execHuf4 s
  | .huf8 => Sys2Proof.Machine.execHuf8 s
  | .huf3 => Sys2Proof.Machine.execHuf3 s
  | .huf5 => Sys2Proof.Machine.execHuf5 s
  | .huf10 => Sys2Proof.Machine.execHuf10 s
  | .huf12 => Sys2Proof.Machine.execHuf12 s
  | .huf15 => Sys2Proof.Machine.execHuf15 s
  | .huf6 => Sys2Proof.Machine.execHuf6 s
  | .huf7 => Sys2Proof.Machine.execHuf7 s
  | .huf9 => Sys2Proof.Machine.execHuf9 s
  | .huf11 => Sys2Proof.Machine.execHuf11 s
  | .huf13 => Sys2Proof.Machine.execHuf13 s
  | .huf0 => Sys2Proof.Machine.execHuf0 s
  | .huf14 => Sys2Proof.Machine.execHuf14 s
  | .term => Sys2Proof.Machine.execTerm s
  | .termIllegal t => Sys2Proof.Machine.execTermIllegal t s
  | .sgn b => Sys2Proof.Machine.execSgn b s
  | .pad len p => Sys2Proof.Machine.execPad len p s
  | .align => Sys2Proof.Machine.execAlign s

end Sys2Proof.Machine
end

