-- ==== Sys2Proof/WellFormed.lean ====
section
/-! DEFINITION. Which terms of `Instr` are tokens the stream can hold: the ranges the encoding gives the operands. -/

namespace Sys2Proof

/-- A format code is illegal exactly when it is neither `0000` nor `1111` (R76). -/
def illegalFormat (f : Nibble) : Bool := f != 0#4 && f != 15#4

/-- A terminator is illegal exactly when it is not `0000` (R82). -/
def illegalTerminator (t : Nibble) : Bool := t != 0#4

/-- The fill of a pad fits its length (R83: 0 to 7 bits, any value). -/
def padFits (len : Fin 8) (p : BitVec 7) : Bool := decide (p.toNat < 2 ^ len.val)

/-- The operand ranges of the encodings. Every other operand may take every value of its width. -/
def Instr.wellFormed : Instr → Bool
  | .fmtIllegal f => illegalFormat f
  | .termIllegal t => illegalTerminator t
  | .pad len p => padFits len p
  | .hdrMagic | .hdrNx _ | .hdrNy _ | .hdrScale _ | .hdrSumall _ | .hdrNbp0 _ | .hdrNbp1 _ | .hdrNbp2 _ => true
  | .fmtD | .fmtQ | .nyb _ | .term | .sgn _ | .align => true
  | .huf0 | .huf1 | .huf2 | .huf3 | .huf4 | .huf5 | .huf6 | .huf7 => true
  | .huf8 | .huf9 | .huf10 | .huf11 | .huf12 | .huf13 | .huf14 | .huf15 => true

end Sys2Proof
end

