-- ==== Sys2Proof/Decode.lean ====
section
/-! DEFINITION. The decoder of one token at its place in the grammar, the encoder written from the same table (R71 to R84), the decoder of a bit stream, and the reading of an opcode-table word. -/

namespace Sys2Proof

/-- Why a decoder gives no token. -/
inductive DecodeError where
  /-- The first two bytes are not `DD 99` (R72). -/
  | badMagic
  /-- No token of the place has this width, or the value does not fit the width. -/
  | badWidth
  /-- The bits end before the token does. -/
  | short
  deriving DecidableEq, Repr

/-- A list of bits as a number, the first bit the most significant (R53). -/
def bitsToNat (bs : List Bool) : Nat := bs.foldl (fun n b => 2 * n + b.toNat) 0

/-- The low `n` bits of `w`, most significant first (R53). -/
def wordBits : Nat → Nat → List Bool
  | 0, _ => []
  | n + 1, w => w.testBit n :: wordBits n w

/-- The codeword table of R80: length and codeword to token. -/
def decodeCodeword : Nat → Nat → Except DecodeError Instr
  | 3, 0b000 => .ok .huf1
  | 3, 0b001 => .ok .huf2
  | 3, 0b010 => .ok .huf4
  | 3, 0b011 => .ok .huf8
  | 4, 0b1000 => .ok .huf3
  | 4, 0b1001 => .ok .huf5
  | 4, 0b1010 => .ok .huf10
  | 4, 0b1011 => .ok .huf12
  | 4, 0b1100 => .ok .huf15
  | 5, 0b11010 => .ok .huf6
  | 5, 0b11011 => .ok .huf7
  | 5, 0b11100 => .ok .huf9
  | 5, 0b11101 => .ok .huf11
  | 5, 0b11110 => .ok .huf13
  | 6, 0b111110 => .ok .huf0
  | 6, 0b111111 => .ok .huf14
  | _, _ => .error .badWidth

/-- The format code (R76). -/
def decodeFormat (w : Nat) : Instr :=
  if w = 0 then .fmtD else if w = 15 then .fmtQ else .fmtIllegal (BitVec.ofNat 4 w)

/-- The terminator (R82). -/
def decodeTerminator (w : Nat) : Instr :=
  if w = 0 then .term else .termIllegal (BitVec.ofNat 4 w)

/-- A token of the fixed width `m`. -/
def ofWidth (m n w : Nat) (i : Instr) : Except DecodeError Instr :=
  if n = m ∧ w < 2 ^ m then .ok i else .error .badWidth

/-- The token that stands at place `k` and has the `n` bits of `w`, the first bit the most significant.
Total: every place, width and value is read or rejected by name. -/
def decode (k : Slot) (n w : Nat) : Except DecodeError Instr :=
  match k with
  | .magic => if n = 16 then (if w = 0xDD99 then .ok .hdrMagic else .error .badMagic) else .error .badWidth
  | .nx => ofWidth 32 n w (.hdrNx (BitVec.ofNat 32 w))
  | .ny => ofWidth 32 n w (.hdrNy (BitVec.ofNat 32 w))
  | .scale => ofWidth 32 n w (.hdrScale (BitVec.ofNat 32 w))
  | .sumall => ofWidth 32 n w (.hdrSumall (BitVec.ofNat 32 w))
  | .nbp0 => ofWidth 8 n w (.hdrNbp0 (BitVec.ofNat 8 w))
  | .nbp1 => ofWidth 8 n w (.hdrNbp1 (BitVec.ofNat 8 w))
  | .nbp2 => ofWidth 8 n w (.hdrNbp2 (BitVec.ofNat 8 w))
  | .fmt => ofWidth 4 n w (decodeFormat w)
  | .nyb => ofWidth 4 n w (.nyb (BitVec.ofNat 4 w))
  | .huf => decodeCodeword n w
  | .term => ofWidth 4 n w (decodeTerminator w)
  | .sgn => ofWidth 1 n w (.sgn (BitVec.ofNat 1 w))
  | .pad => if n < 8 ∧ w < 2 ^ n then .ok (.pad (Fin.ofNat 8 n) (BitVec.ofNat 7 w)) else .error .badWidth
  | .align => ofWidth 0 n w .align

/-- The width of a token in bits and its bits as a number (R71 to R84). -/
def encode : Instr → Nat × Nat
  | .hdrMagic => (16, 0xDD99)
  | .hdrNx v => (32, v.toNat)
  | .hdrNy v => (32, v.toNat)
  | .hdrScale v => (32, v.toNat)
  | .hdrSumall v => (32, v.toNat)
  | .hdrNbp0 n => (8, n.toNat)
  | .hdrNbp1 n => (8, n.toNat)
  | .hdrNbp2 n => (8, n.toNat)
  | .fmtD => (4, 0b0000)
  | .fmtQ => (4, 0b1111)
  | .fmtIllegal f => (4, f.toNat)
  | .nyb v => (4, v.toNat)
  | .huf1 => (3, 0b000)
  | .huf2 => (3, 0b001)
  | .huf4 => (3, 0b010)
  | .huf8 => (3, 0b011)
  | .huf3 => (4, 0b1000)
  | .huf5 => (4, 0b1001)
  | .huf10 => (4, 0b1010)
  | .huf12 => (4, 0b1011)
  | .huf15 => (4, 0b1100)
  | .huf6 => (5, 0b11010)
  | .huf7 => (5, 0b11011)
  | .huf9 => (5, 0b11100)
  | .huf11 => (5, 0b11101)
  | .huf13 => (5, 0b11110)
  | .huf0 => (6, 0b111110)
  | .huf14 => (6, 0b111111)
  | .term => (4, 0b0000)
  | .termIllegal t => (4, t.toNat)
  | .sgn s => (1, s.toNat)
  | .pad len p => (len.val, p.toNat)
  | .align => (0, 0)

/-- The bits of a token in stream order (R53). -/
def encodeBits (i : Instr) : List Bool := wordBits (encode i).1 (encode i).2

/-- The length of the codeword a bit list begins with, from its prefix (R81); none where the bits end inside it. -/
def codewordLength (bs : List Bool) : Option Nat :=
  if bs.length < 3 then none
  else if bitsToNat (bs.take 3) < 4 then some 3
  else if bs.length < 4 then none
  else if bitsToNat (bs.take 4) < 13 then some 4
  else if bs.length < 5 then none
  else if bitsToNat (bs.take 5) < 31 then some 5
  else if bs.length < 6 then none
  else some 6

/-- The width of the token at place `k`. Only a codeword's width depends on the bits (R88); a pad is as long
as the `residual` bits left in the last byte (R83). -/
def tokenWidth (k : Slot) (residual : Nat) (bs : List Bool) : Option Nat :=
  match k with
  | .magic => some 16
  | .nx | .ny | .scale | .sumall => some 32
  | .nbp0 | .nbp1 | .nbp2 => some 8
  | .fmt | .nyb | .term => some 4
  | .huf => codewordLength bs
  | .sgn => some 1
  | .pad => some residual
  | .align => some 0

/-- The token at place `k` at the front of a bit stream, with the bits after it. -/
def decodeStream (k : Slot) (residual : Nat) (bs : List Bool) : Except DecodeError (Instr × List Bool) :=
  match tokenWidth k residual bs with
  | none => .error .short
  | some n =>
    if bs.length < n then .error .short
    else match decode k n (bitsToNat (bs.take n)) with
      | .ok i => .ok (i, bs.drop n)
      | .error e => .error e

/-- The width of the codeword whose value as a number is `w`: the numbers of R80 are all different. -/
def codewordWidth (w : Nat) : Option Nat :=
  if w < 4 then some 3
  else if 8 ≤ w ∧ w < 13 then some 4
  else if 26 ≤ w ∧ w < 31 then some 5
  else if w = 62 ∨ w = 63 then some 6
  else none

/-- The place and width a word of one byte is read with: a codeword where the number is one, `FMT.Q` for 15,
else a nibble, an illegal format code or a bitplane count. PRESUMED (log entry 8): a table word does not say its
place, and the grammar (R88) reads a token by its place alone. -/
def tableByte (w : Nat) : Slot × Nat :=
  match codewordWidth w with
  | some n => (.huf, n)
  | none =>
    if w = 15 ∨ w = 13 ∨ w = 14 then (.fmt, 4)
    else if w < 8 then (.nyb, 4)
    else (.nbp0, 8)

/-- The place and width a word of the opcode table is read with, by the word's width (log entry 8). -/
def tablePlace (nbits w : Nat) : Option (Slot × Nat) :=
  if ¬ w < 2 ^ nbits then none
  else match nbits with
    | 0 => some (.align, 0)
    | 1 => some (.sgn, 1)
    | 3 => some (.huf, 3)
    | 4 => some (if codewordWidth w = some 4 then (.huf, 4) else if w = 0 ∨ w = 15 then (.fmt, 4) else (.nyb, 4))
    | 5 => some (.huf, 5)
    | 6 => some (.huf, 6)
    | 8 => some (tableByte w)
    | 16 => some (.magic, 16)
    | 32 => some (.nx, 32)
    | _ => none

/-- The token the decoder reads from a word of the opcode table. -/
def decodeTableWord (nbits w : Nat) : Option Instr :=
  match tablePlace nbits w with
  | none => none
  | some (k, n) =>
    match decode k n w with
    | .ok i => some i
    | .error _ => none

/-- Bits as bytes, the first bit the top bit of the first byte, zeros after the last bit (R53). -/
def packBits : List Bool → List Byte
  | b7 :: b6 :: b5 :: b4 :: b3 :: b2 :: b1 :: b0 :: rest =>
    BitVec.ofNat 8 (bitsToNat [b7, b6, b5, b4, b3, b2, b1, b0]) :: packBits rest
  | [] => []
  | bs => [BitVec.ofNat 8 (bitsToNat (bs ++ List.replicate (8 - bs.length) false))]

/-- The bits of a byte, most significant first (R53). -/
def byteBits (b : Byte) : List Bool := wordBits 8 b.toNat

end Sys2Proof
end

