-- ==== Sys2Proof/Machine/HostPort.lean ====
section
/-! DEFINITION. The host's transactions (R245, R246): START (R261), READ_STATUS, READ_OUTPUT, RESET (R260). -/

namespace Sys2Proof.Machine

/-- What an accepted `START(bytes)` makes of the state (R261): a fresh session (R21, R41) over the snapshot
`bytes`, every field of `STATUS` cleared, `BUSY`, in phase `HEADER`. What R39 leaves unspecified holds what it holds
after reset, and nothing of it counts as written (log entry 1). The parameters stay. -/
def startSession (bytes : List Byte) (s : State) : State :=
  State.goto .magic
    { State.reset with
      cfg := s.cfg, plan := s.plan
      input := bytes, stage := .header
      status := { Status.reset with state := .busy }
      reply := some .accepted }

/-- `START(bytes)` (R245): rejected while a session runs (R246), else accepted. More than `MAX_INPUT` bytes is
no move of the host's (log entry 7). -/
def hostStart (bytes : List Byte) (s : State) : Result :=
  if s.cfg.maxInput < bytes.length then .refused .inputTooLong
  else if s.busy then .next { s with reply := some .busy }
  else .next (startSession bytes s)

/-- `READ_STATUS()` (R245). -/
def hostReadStatus (s : State) : Result := .next { s with reply := some (.status s.status) }

/-- `READ_OUTPUT()` (R245): `O` when `DONE`, else no byte (R67). -/
def hostReadOutput (s : State) : Result :=
  .next { s with reply := some (if s.outputReady then .output s.O else .noOutput) }

/-- `RESET()` (R245): power-on reset (R260). A running session is abandoned; the parameters and the host's
own moves to come are not the core's to reset. -/
def hostReset (s : State) : Result := .next { State.reset with cfg := s.cfg, plan := s.plan }

/-- A transaction of the host. `wait` is none: the engine takes its step (see `nextEvent`). -/
def hostMove (m : HostMove) (s : State) : Result :=
  match m with
  | .start bytes => hostStart bytes s
  | .readStatus => hostReadStatus s
  | .readOutput => hostReadOutput s
  | .reset => hostReset s
  | .wait => .next s

end Sys2Proof.Machine
end

