-- ==== Sys2Proof/Machine/Pixels.lean ====
section
/-! DEFINITION. The Undigitizer (R200 to R202), the pixel packer (R203 to R205) and the end of a session (R206). -/

namespace Sys2Proof.Machine

/-- `A[i] <- i32(A[i] * scale)` (R200, R202). -/
def scaleEntry (scale : Word) (i : Nat) (a : Bank 32) : Except Fault (Bank 32) :=
  match a.readGrid i with
  | .ok v => a.writeGrid i (v * scale)
  | .error e => .error e

/-- The grid after the undigitize step (R200): unchanged for `scale ≤ 1` (R201). -/
def scaleGrid (scale : Word) (a : Bank 32) : Except Fault (Bank 32) :=
  if 1 < scale.toInt then forEach (scaleEntry scale) (List.range a.size) a else .ok a

/-- `undigitize()` (R200). -/
def undigitize (s : State) : Result :=
  needs s.written.hdr <|
    match scaleGrid s.hdr.scale s.A with
    | .ok a => .next (State.goto .hinit { s with A := a })
    | .error e => .fault e

/-- `Emit(b)` (R205). -/
def emit (b : Byte) (s : State) : State := { s with O := s.O ++ [b] }

/-- The end of a session that succeeds (R206). `A`, `S`, `T`, the stream cursor and the working registers keep what they hold
until the next START or RESET: DESIGN CHOICE (log entry 17), since R206 names no discard. -/
def finish (s : State) : State :=
  let s := s.goto .done
  { s with status := { s.status with state := .done, outLen := 2 * s.A.size } }

/-- One pixel of `pack()`, high byte first (R203); after the last, the end of the session (R206). -/
def packPixel (s : State) : Result :=
  if s.gi < s.A.size then
    match s.A.readGrid s.gi with
    | .ok v => .next { emit (v.extractLsb' 0 8) (emit (v.extractLsb' 8 8) s) with gi := s.gi + 1 }
    | .error e => .fault e
  else .next (finish s)

end Sys2Proof.Machine
end

