-- ==== Sys2Proof/Machine/Quadtree.lean ====
section
/-! DEFINITION. The operations of the decode phase that read no token: admission (R131), the clearing of the grid (R132), the quadrant and bitplane loops (R134, R135), and the quadtree's expansion and insertion (R137 to R142). -/

namespace Sys2Proof.Machine

/-- The first admission check that fails, in the order of R131. -/
def admission (cfg : Config.Params) (h : HdrRegs) : Option RefuseReason :=
  if h.nx.toInt < 1 ∨ h.ny.toInt < 1 ∨ h.maxDim < 2 ∨ Config.maxDim < h.maxDim then some .badGeometry
  else if cfg.gridCapacity < h.rows * h.cols then some .gridTooLarge
  else if Config.maxBitplanes < h.nbp0.toNat ∨ Config.maxBitplanes < h.nbp1.toNat ∨ Config.maxBitplanes < h.nbp2.toNat then
    some .bitplaneCountTooLarge
  else none

/-- `admitHeader()` (R131): a refusal, or the allocation of the grid. -/
def admitHeader (s : State) : Result :=
  needs s.written.hdr <|
    match admission s.cfg s.hdr with
    | some r => .next (refuse r s)
    | none => .next (State.goto .clear { s with A := Bank.alloc (s.hdr.rows * s.hdr.cols) })

/-- `clearGrid()` (R132): every entry is 0. -/
def clearGrid (s : State) : Result := .next (State.goto .align1 { s with A := Bank.alloc s.A.size })

/-- The entry of a quadrant (R134, R135): its operands, and a scratch of its own (R26). -/
def beginQuadrant (s : State) : Result :=
  needs s.written.hdr <|
    let r := enterQuadrant s.hdr s.qt
    .next (State.goto .plane
      { s with qt := r, S := Bank.alloc (r.mx * r.my), written := { s.written with qt := true } })

/-- The head of the bitplane loop (R135): the next plane's format code, or the next quadrant, or, after quadrant
3, the terminator (R134, R144). -/
def nextPlane (s : State) : Result :=
  needs s.written.qt <|
    if s.qt.planes = 0 then
      if s.qt.q = 3 then .next (State.goto .term { s with stage := .terminator })
      else .next (State.goto .quad { s with qt := { s.qt with q := s.qt.q + 1 } })
    else
      .next (State.goto .fmt
        { s with
          qt := { s.qt with planes := s.qt.planes - 1, bit := s.qt.planes - 1 }
          stage := .fmt s.qt.q (s.qt.planes - 1) })

/-- The head of the loop over direct nibbles (R137). -/
def nextDirect (s : State) : Result :=
  needs s.written.qt <|
    if s.qt.t < s.qt.mx * s.qt.my then .next (s.goto .nyb) else .next (s.goto .bitins)

/-- One entry of `qtreeCopy` (R140), read from the scratch as it was on entry. -/
def copyEntry (old : Bank 4) (ey x : Nat) (b : Bank 4) : Except Fault (Bank 4) :=
  match old.readScratch (x / ey / 2 * ceilDiv ey 2 + x % ey / 2) with
  | .ok v => b.writeScratch x (if nibbleBit v (x / ey) (x % ey) then 1 else 0)
  | .error e => .error e

/-- `qtreeCopy(ex, ey)` (R140). -/
def qtreeCopy (ex ey : Nat) (old : Bank 4) : Except Fault (Bank 4) :=
  forEach (copyEntry old ey) (List.range (ex * ey)) old

/-- The head of the level loop (R138): the next level's extent (R139) and copy (R140), and the scan of its entries
from the last one; or the insertion of the finished plane. -/
def nextLevel (s : State) : Result :=
  needs s.written.qt <|
    if s.qt.k < s.qt.L then
      let r := nextExtent s.qt
      match qtreeCopy r.ex r.ey s.S with
      | .ok b => .next (State.goto .expand { s with qt := { r with t := r.ex * r.ey }, S := b })
      | .error e => .fault e
    else .next (s.goto .bitins)

/-- The scan of `qtreeExpandReads` (R141), entries in descending order: an entry that is not 0 asks for a
codeword, a 0 entry is passed over, and below entry 0 the level ends. -/
def scanLevel (s : State) : Result :=
  needs s.written.qt <|
    if s.qt.t = 0 then .next (State.goto .level { s with qt := { s.qt with k := s.qt.k + 1 } })
    else
      let s := { s with qt := { s.qt with t := s.qt.t - 1 } }
      match s.S.readScratch s.qt.t with
      | .ok v => if v = 0 then .next s else .next (s.goto .huf)
      | .error e => .fault e

/-- One element of `qtreeBitins` (R142). -/
def insertBit (r : QtRegs) (b : Bank 4) (i j : Nat) (a : Bank 32) : Except Fault (Bank 32) :=
  match b.readScratch (i / 2 * r.my + j / 2) with
  | .error e => .error e
  | .ok v =>
    match a.readGrid (r.off + i * r.n + j) with
    | .error e => .error e
    | .ok old =>
      a.writeGrid (r.off + i * r.n + j) (old ||| ((BitVec.ofBool (nibbleBit v i j)).setWidth 32 <<< r.bit))

/-- `qtreeBitins(off, n, nqx, nqy, bit)` (R142). -/
def qtreeBitins (r : QtRegs) (b : Bank 4) (a : Bank 32) : Except Fault (Bank 32) :=
  forEach (fun i a => forEach (insertBit r b i) (List.range r.nqy) a) (List.range r.nqx) a

/-- The end of a bitplane: its bits go into the grid (R137, R138). -/
def insertPlane (s : State) : Result :=
  needs s.written.qt <|
    match qtreeBitins s.qt s.S s.A with
    | .ok a => .next (State.goto .plane { s with A := a })
    | .error e => .fault e

/-- The scan of `signPass` (R145), entries in ascending order: an entry that is not 0 asks for a sign bit, a 0 entry is
passed over, and after the last entry comes the pad. -/
def scanSigns (s : State) : Result :=
  if s.gi < s.A.size then
    match s.A.readGrid s.gi with
    | .ok v => if v = 0 then .next { s with gi := s.gi + 1 } else .next (s.goto .sgn)
    | .error e => .fault e
  else .next (s.goto .pad2)

/-- `setDC()` (R146): `A[0] <- sumall`, whatever the passes left there. -/
def setDC (s : State) : Result :=
  needs s.written.hdr <|
    match s.A.writeGrid 0 s.hdr.sumall with
    | .ok a => .next (State.goto .undigitize { s with A := a })
    | .error e => .fault e

end Sys2Proof.Machine
end

