-- ==== Sys2Proof/Machine/Transform.lean ====
section
/-! DEFINITION. The inverse transform `hinv` (R170 to R185): constants and DC rounding, and for each level the extents, the unshuffle, the combine and the halving. -/

namespace Sys2Proof.Machine

/-- `initConstants()` and `roundDC()` (R170 to R172), with the unshuffle buffer allocated (R27). -/
def initTransform (s : State) : Result :=
  needs s.written.hdr <|
    let r := initConstants (initLoop s.hdr s.ht)
    match s.A.readGrid 0 with
    | .error e => .fault e
    | .ok dc =>
      match s.A.writeGrid 0 (roundWith r.prnd2 r.nrnd2 r.mask2 dc) with
      | .error e => .fault e
      | .ok a =>
        .next (State.goto .hlevel
          { s with
            A := a, T := Bank.alloc (ceilDiv s.hdr.maxDim 2), ht := r
            written := { s.written with ht := true } })

/-- The head of the level loop (R170): the next level's extents and the override of the last (R174, R183); or
the pack phase, from index 0 (R203). -/
def nextTransformLevel (s : State) : Result :=
  needs s.written.ht <|
    if s.ht.levels = 0 then .next (State.goto .pack { s with gi := 0 })
    else .next (State.goto .unshuffle { s with ht := enterLevel s.ht })

/-- Save the second half of the line in `T` (R175). -/
def saveHalf (a : Bank 32) (base nhalf stride : Nat) (i : Nat) (t : Bank 32) : Except Fault (Bank 32) :=
  match a.readGrid (base + stride * (nhalf + i)) with
  | .ok v => t.writeScratch i v
  | .error e => .error e

/-- Spread the first half over the even positions (R175). -/
def spreadHalf (base stride : Nat) (i : Nat) (a : Bank 32) : Except Fault (Bank 32) :=
  match a.readGrid (base + stride * i) with
  | .ok v => a.writeGrid (base + stride * (2 * i)) v
  | .error e => .error e

/-- Place the second half at the odd positions (R175). -/
def placeHalf (t : Bank 32) (base stride : Nat) (i : Nat) (a : Bank 32) : Except Fault (Bank 32) :=
  match t.readScratch i with
  | .ok v => a.writeGrid (base + stride * (2 * i + 1)) v
  | .error e => .error e

/-- `unshuffle(base, n, stride)` in its sequential form, on `A` and `T` (R175): save, spread top down, place. -/
def unshuffle (base n stride : Nat) (m : Bank 32 × Bank 32) : Except Fault (Bank 32 × Bank 32) :=
  let nhalf := (n + 1) / 2
  match forEach (saveHalf m.1 base nhalf stride) (List.range (n - nhalf)) m.2 with
  | .error e => .error e
  | .ok t =>
    match forEach (spreadHalf base stride) (List.range nhalf).reverse m.1 with
    | .error e => .error e
    | .ok a =>
      match forEach (placeHalf t base stride) (List.range (n - nhalf)) a with
      | .error e => .error e
      | .ok a => .ok (a, t)

/-- `unshuffleLevel()` (R176): the rows of the `nxtop × nytop` block, then its columns. -/
def unshuffleLevel (ny nxtop nytop : Nat) (m : Bank 32 × Bank 32) : Except Fault (Bank 32 × Bank 32) :=
  match forEach (fun i m => unshuffle (ny * i) nytop 1 m) (List.range nxtop) m with
  | .error e => .error e
  | .ok m => forEach (fun j m => unshuffle j nxtop ny m) (List.range nytop) m

/-- The unshuffle of one level (R170, R176). -/
def runUnshuffle (s : State) : Result :=
  needs (s.written.hdr && s.written.ht) <|
    match unshuffleLevel s.hdr.cols s.ht.nxtop s.ht.nytop (s.A, s.T) with
    | .ok m => .next (State.goto .combine { s with A := m.1, T := m.2 })
    | .error e => .fault e

/-- `combineBlock(s00)` (R177): all four entries are read before any is written. -/
def combineBlock (ny s00 : Nat) (m : HtRegs × Bank 32) : Except Fault (HtRegs × Bank 32) := do
  let s10 := s00 + ny
  let h0 ← m.2.readGrid s00
  let hx ← m.2.readGrid s10
  let hy ← m.2.readGrid (s00 + 1)
  let hc ← m.2.readGrid (s10 + 1)
  let r := roundBlock { m.1 with h0 := h0, hx := hx, hy := hy, hc := hc }
  let a ← m.2.writeGrid (s10 + 1) (asr (r.h0 + r.hx + r.hy + r.hc) r.shift.toNat)
  let a ← a.writeGrid s10 (asr (r.h0 + r.hx - r.hy - r.hc) r.shift.toNat)
  let a ← a.writeGrid (s00 + 1) (asr (r.h0 - r.hx + r.hy - r.hc) r.shift.toNat)
  let a ← a.writeGrid s00 (asr (r.h0 - r.hx - r.hy + r.hc) r.shift.toNat)
  .ok (r, a)

/-- `combineOddY(s00)` (R178). -/
def combineOddY (ny s00 : Nat) (m : HtRegs × Bank 32) : Except Fault (HtRegs × Bank 32) := do
  let s10 := s00 + ny
  let h0 ← m.2.readGrid s00
  let hx ← m.2.readGrid s10
  let r := roundOddY { m.1 with h0 := h0, hx := hx }
  let a ← m.2.writeGrid s10 (asr (r.h0 + r.hx) r.shift.toNat)
  let a ← a.writeGrid s00 (asr (r.h0 - r.hx) r.shift.toNat)
  .ok (r, a)

/-- `combineOddX(s00)` (R179). -/
def combineOddX (s00 : Nat) (m : HtRegs × Bank 32) : Except Fault (HtRegs × Bank 32) := do
  let h0 ← m.2.readGrid s00
  let hy ← m.2.readGrid (s00 + 1)
  let r := roundOddX { m.1 with h0 := h0, hy := hy }
  let a ← m.2.writeGrid (s00 + 1) (asr (r.h0 + r.hy) r.shift.toNat)
  let a ← a.writeGrid s00 (asr (r.h0 - r.hy) r.shift.toNat)
  .ok (r, a)

/-- `combineCorner(s00)` (R180). -/
def combineCorner (s00 : Nat) (m : HtRegs × Bank 32) : Except Fault (HtRegs × Bank 32) := do
  let v ← m.2.readGrid s00
  let a ← m.2.writeGrid s00 (asr v m.1.shift.toNat)
  .ok (m.1, a)

/-- One row pair of `combineLevel` (R181). -/
def combineRows (ny : Nat) (i : Nat) (m : HtRegs × Bank 32) : Except Fault (HtRegs × Bank 32) :=
  match forEach (fun j m => combineBlock ny (ny * i + j) m) (evensBelow (m.1.nytop - m.1.oddy)) m with
  | .error e => .error e
  | .ok m => if m.1.oddy = 1 then combineOddY ny (ny * i + (m.1.nytop - 1)) m else .ok m

/-- The last row of `combineLevel`, when `nxtop` is odd (R181). -/
def combineLastRow (ny : Nat) (m : HtRegs × Bank 32) : Except Fault (HtRegs × Bank 32) :=
  let i := m.1.nxtop - 1
  match forEach (fun j m => combineOddX (ny * i + j) m) (evensBelow (m.1.nytop - m.1.oddy)) m with
  | .error e => .error e
  | .ok m => if m.1.oddy = 1 then combineCorner (ny * i + (m.1.nytop - 1)) m else .ok m

/-- `combineLevel()` (R181). -/
def combineLevel (ny : Nat) (m : HtRegs × Bank 32) : Except Fault (HtRegs × Bank 32) :=
  let r := { m.1 with oddx := m.1.nxtop % 2, oddy := m.1.nytop % 2 }
  match forEach (combineRows ny) (evensBelow (r.nxtop - r.oddx)) (r, m.2) with
  | .error e => .error e
  | .ok m => if m.1.oddx = 1 then combineLastRow ny m else .ok m

/-- The combine of one level (R170, R181). -/
def runCombine (s : State) : Result :=
  needs (s.written.hdr && s.written.ht) <|
    match combineLevel s.hdr.cols (s.ht, s.A) with
    | .ok m => .next (State.goto .halve { s with ht := m.1, A := m.2 })
    | .error e => .fault e

/-- The end of a level (R182). -/
def runHalve (s : State) : Result :=
  needs s.written.ht (.next (State.goto .hlevel { s with ht := halveConstants s.ht }))

end Sys2Proof.Machine
end

