-- ==== Sys2Proof/Machine/Fetch.lean ====
section
/-! DEFINITION. What happens next: a move of the host, an operation of the engine that reads no token, or the fetch and decode of the token at the cursor. -/

namespace Sys2Proof.Machine

/-- What a step does before a token runs: a token with the state in which it was read, or an outcome reached
without one. -/
inductive Event where
  | token (i : Instr) (s : State)
  | own (r : Result)

/-- `c <- nextBit() | (c << 1)` (R120). -/
def moreCode (c : Nat) (s : State) : Read Nat :=
  (nextBit s).andThen fun b s => .got (2 * c + b.toNat) s

/-- The bits of one codeword, its length and its value `c`, read as `decodeHuffman()` reads them (R120). -/
def readCodeword (s : State) : Read (Nat × Nat) :=
  (nextBits 3 s).andThen fun c s =>
  if c.toNat < 4 then .got (3, c.toNat) s else
  (moreCode c.toNat s).andThen fun c s =>
  if c < 13 then .got (4, c) s else
  (moreCode c s).andThen fun c s =>
  if c < 31 then .got (5, c) s else
  (moreCode c s).andThen fun c s =>
  .got (6, c) s

/-- A 32-bit header field (R101). -/
def readInt32 (s : State) : Read (Nat × Nat) := (nextInt32BE s).andThen fun v s => .got (32, v.toNat) s

/-- A count of the header (R100). -/
def readCount (s : State) : Read (Nat × Nat) := (nextByte s).andThen fun v s => .got (8, v.toNat) s

/-- A format code, a direct nibble or a terminator (R105). -/
def readNybble (s : State) : Read (Nat × Nat) := (nextNybble s).andThen fun v s => .got (4, v.toNat) s

/-- Both bytes of the magic, before either is compared (R130). -/
def readMagic (s : State) : Read (Nat × Nat) :=
  (nextByte s).andThen fun m0 s =>
  (nextByte s).andThen fun m1 s =>
  .got (16, (m0 ++ m1).toNat) s

/-- The bits of the token at place `k`: their number and their value (R130, R120, R137, R144, R145). A pad is the
live bits left in the accumulator, which stay there (R83); `ALIGN` has none (R89). -/
def readToken (k : Slot) (s : State) : Read (Nat × Nat) :=
  match k with
  | .magic => readMagic s
  | .nx | .ny | .scale | .sumall => readInt32 s
  | .nbp0 | .nbp1 | .nbp2 => readCount s
  | .fmt | .nyb | .term => readNybble s
  | .huf => readCodeword s
  | .sgn => (nextBit s).andThen fun b s => .got (1, b.toNat) s
  | .pad => .got (s.btg, s.buf.toNat % 2 ^ s.btg) s
  | .align => .got (0, 0) s

/-- The token at place `k`: an input that ends early raises `StreamExhausted` (R231), a wrong magic pair
`BadMagicNumber` (R232). -/
def fetchToken (k : Slot) (s : State) : Event :=
  match readToken k s with
  | .exhausted s => .own (.next (raise .streamExhausted s))
  | .got nw s =>
    match decode k nw.1 nw.2 with
    | .ok i => .token i s
    | .error .badMagic => .own (.next (raise .badMagicNumber s))
    | .error .badWidth => .own (.fault .undecodable)
    | .error .short => .own (.fault .undecodable)

/-- The operation of a position that reads no token. Before START and after the end of a session the engine has
nothing to do and waits (R241, R260). -/
def engineOp (s : State) : Result :=
  match s.point with
  | .idle | .done | .error | .refused => .next s
  | .admitHdr => admitHeader s
  | .clear => clearGrid s
  | .quad => beginQuadrant s
  | .plane => nextPlane s
  | .direct => nextDirect s
  | .level => nextLevel s
  | .expand => scanLevel s
  | .bitins => insertPlane s
  | .sign => scanSigns s
  | .setDC => setDC s
  | .undigitize => undigitize s
  | .hinit => initTransform s
  | .hlevel => nextTransformLevel s
  | .unshuffle => runUnshuffle s
  | .combine => runCombine s
  | .halve => runHalve s
  | .pack => packPixel s
  | .magic | .nx | .ny | .scale | .sumall | .nbp0 | .nbp1 | .nbp2 => .fault .tokenOutOfPlace
  | .align1 | .fmt | .nyb | .top | .huf | .term | .pad1 | .align2 | .sgn | .pad2 => .fault .tokenOutOfPlace

/-- The engine's step, up to the token it runs (R30). -/
def engineEvent (s : State) : Event :=
  match s.point.slot with
  | some k => fetchToken k s
  | none => .own (engineOp s)

/-- Whose turn it is: the host's moves come as `plan` lists them, and `wait`, or a host with no move left, leaves the
turn to the engine (R20, R245; log entry 5). -/
def nextEvent (s : State) : Event :=
  match s.plan with
  | [] => engineEvent s
  | .wait :: rest => engineEvent { s with plan := rest }
  | m :: rest => .own (hostMove m { s with plan := rest })

end Sys2Proof.Machine
end

