-- ==== Sys2Proof/Machine/Place.lean ====
section
/-! DEFINITION. Placing one token where the next step fetches it: what `State.withFetchWord` calls. -/

namespace Sys2Proof.Machine

/-- A position that reads a token of place `k`. -/
def pointOf : Slot → Point
  | .magic => .magic
  | .nx => .nx
  | .ny => .ny
  | .scale => .scale
  | .sumall => .sumall
  | .nbp0 => .nbp0
  | .nbp1 => .nbp1
  | .nbp2 => .nbp2
  | .fmt => .fmt
  | .nyb => .nyb
  | .huf => .top
  | .term => .term
  | .sgn => .sgn
  | .pad => .pad1
  | .align => .align1

/-- The smallest session every token can run in: a 2×2 image, quadrant 0, whose grid and scratch exist. It stands
for the load of a program whose earlier tokens led to place `k` (log entry 9). -/
def placeToken (k : Slot) (bits : List Bool) (s : State) : State :=
  State.goto (pointOf k)
    { s with
      plan := []
      status := { s.status with state := .busy }
      input := packBits (bits ++ List.replicate 32 false), pos := 0, btg := 0
      hdr := { s.hdr with nx := 2, ny := 2 }
      A := Bank.alloc 4, S := Bank.alloc 1
      qt := { s.qt with q := 0, off := 0, n := 2, nqx := 1, nqy := 1, mx := 1, my := 1, t := 0 }
      gi := 0
      written := { s.written with hdr := true, qt := true } }

/-- The state with the token of a table word stored where the next step fetches; unchanged where the decoder
reads no token from the word. -/
def placeTableWord (nbits w : Nat) (s : State) : State :=
  match tablePlace nbits w with
  | none => s
  | some (k, n) => placeToken k (wordBits n w) s

end Sys2Proof.Machine
end

