-- ==== Sys2Proof/Machine/Step.lean ====
section
/-! DEFINITION. One step: the host's move, the engine's operation, or the token fetched and run. -/

namespace Sys2Proof.Machine

/-- One step of the machine. -/
def step (s : State) : Host.Outcome State Fault Refusal :=
  match nextEvent s with
  | .token i t => exec i t
  | .own r => r

/-- The state with the token of an opcode-table word stored where `step` fetches its next token (log entry 9). -/
def State.withFetchWord (s : State) (nbits w : Nat) : State := placeTableWord nbits w s

end Sys2Proof.Machine
end

