-- ==== Sys2Proof/Safety.lean ====
section
/-! DEFINITION. What a safe run is, in the terms the statements use: the invariants of the machine, one predicate for each kind of state, and the conditions at each position under which no operation faults (R40, R60, R230). -/

namespace Sys2Proof.Safety

open Sys2Proof.Machine

/-- `phase` and `STATUS.STATE` say the same as the position (R30, R32). -/
def PositionOk (s : State) : Prop :=
  s.phase = s.point.phase ∧ s.status.state = s.phase.sessionState

/-- How many bytes the header has consumed at a position (R71, R130, R133). -/
def headerBytesAt : Point → Option Nat
  | .magic => some 0
  | .nx => some 2
  | .ny => some 6
  | .scale => some 10
  | .sumall => some 14
  | .nbp0 => some 18
  | .nbp1 => some 19
  | .nbp2 => some 20
  | .admitHdr | .clear | .align1 => some 21
  | .idle | .quad | .plane | .fmt | .direct | .nyb | .top | .level | .expand | .huf | .bitins => none
  | .term | .pad1 | .align2 | .sign | .sgn | .pad2 | .setDC | .undigitize => none
  | .hinit | .hlevel | .unshuffle | .combine | .halve | .pack | .done | .error | .refused => none

/-- The stream cursor (R22, R23, R108): at most 7 live bits between operations, no byte consumed that is not there,
and byte reads only while no bit is live (R107). -/
def CursorOk (s : State) : Prop :=
  s.btg ≤ 7 ∧ s.pos ≤ s.input.length ∧
    ∀ n, headerBytesAt s.point = some n → s.pos = n ∧ s.btg = 0

/-- The error and refusal fields of `STATUS` (R33, R236, R237): at most one of them is written, exactly in the
state it belongs to. -/
def RecordOk (s : State) : Prop :=
  (s.status.errKind ≠ .none ↔ s.status.state = .error) ∧
  (s.status.refuseReason ≠ .none ↔ s.status.state = .refused) ∧
  (s.status.state ≠ .error → s.status.errStage = .none ∧ s.status.errPos = 0)

/-- The stages an error kind may carry (R236). -/
def stageFits : ErrKind → Stage → Bool
  | .none, st => decide (st = .none)
  | .streamExhausted, st => decide (st ≠ .none)
  | .badMagicNumber, st => decide (st = .header)
  | .badFormatCode, .fmt _ _ => true
  | .badFormatCode, _ => false
  | .badBitplaneTerminator, st => decide (st = .terminator)

/-- The grid exists, and it is the header's, which has been admitted (R25, R131). -/
def Admitted (s : State) : Prop :=
  s.written.hdr = true ∧ admission s.cfg s.hdr = none ∧ s.A.size = s.hdr.rows * s.hdr.cols

/-- The output (R28, R207, R209): no byte before `PACK`, two bytes for each pixel packed, and `OUT_LEN` is the length of
`O` exactly at `DONE`. -/
def OutputOk (s : State) : Prop :=
  (s.phase ≠ .pack ∧ s.phase ≠ .done → s.O = []) ∧
  (s.phase = .pack → s.O.length = 2 * s.gi ∧ s.gi ≤ s.A.size) ∧
  (s.status.state ≠ .done → s.status.outLen = 0) ∧
  (s.status.state = .done → s.O.length = s.status.outLen ∧ s.status.outLen = 2 * s.A.size)

/-- The first `m` entries of a scratch are written (R40). -/
def WrittenBelow {w : Nat} (b : Bank w) (m : Nat) : Prop :=
  ∀ i, i < m → (cellsGet b.cells i).isSome = true

/-- The quadrant's operands are those of R58 and R135, and its scratch has the size of R26. -/
def QuadrantOpen (s : State) : Prop :=
  s.written.qt = true ∧
  s.qt.off = (quadrantOf s.hdr s.qt.q).off ∧ s.qt.n = s.hdr.cols ∧
  s.qt.nqx = (quadrantOf s.hdr s.qt.q).nqx ∧ s.qt.nqy = (quadrantOf s.hdr s.qt.q).nqy ∧
  s.qt.P = (quadrantOf s.hdr s.qt.q).P ∧
  s.qt.mx = ceilDiv s.qt.nqx 2 ∧ s.qt.my = ceilDiv s.qt.nqy 2 ∧
  s.S.size = s.qt.mx * s.qt.my ∧ s.qt.planes ≤ s.qt.P

/-- A bitplane of the quadrant is being read (R135). -/
def PlaneOpen (s : State) : Prop :=
  Admitted s ∧ QuadrantOpen s ∧ s.qt.bit = s.qt.planes ∧ s.qt.bit < s.qt.P

/-- The extent of one coordinate `n` after the halvings that leave `c = 2^d` (R139, R174): `e` whole steps of `c`
cover `n`, and `f` is what the last one covers. -/
def ExtentAt (n d c e f : Nat) : Prop :=
  c = 2 ^ d ∧ e = ceilDiv n (2 ^ d) ∧ f + (e - 1) * 2 ^ d = n

/-- The scratch holds the nibble grid of expansion level `j` (R138 to R141). -/
def LevelOpen (s : State) (j : Nat) : Prop :=
  0 < s.qt.nqx ∧ 0 < s.qt.nqy ∧ s.qt.L = ceilLog2 (max s.qt.nqx s.qt.nqy) ∧ j ≤ s.qt.L ∧
  ExtentAt s.qt.nqx (s.qt.L - j) s.qt.c s.qt.ex s.qt.fx ∧
  ExtentAt s.qt.nqy (s.qt.L - j) s.qt.c s.qt.ey s.qt.fy ∧
  WrittenBelow s.S (s.qt.ex * s.qt.ey)

/-- The loop registers of the transform when `d` halvings are left (R170, R174), and the size of `T` (R27). -/
def TransformOpen (s : State) (d : Nat) : Prop :=
  Admitted s ∧ s.written.ht = true ∧ s.T.size = ceilDiv s.hdr.maxDim 2 ∧
  s.ht.log2n = ceilLog2 s.hdr.maxDim ∧ d ≤ s.ht.log2n ∧
  ExtentAt s.hdr.rows d s.ht.c s.ht.nxtop s.ht.nxf ∧
  ExtentAt s.hdr.cols d s.ht.c s.ht.nytop s.ht.nyf

/-- What holds at each position of a session that began with a START. -/
def PointOk (s : State) : Prop :=
  match s.point with
  | .idle | .done | .error | .refused => True
  | .magic | .nx | .ny | .scale | .sumall | .nbp0 | .nbp1 | .nbp2 => True
  | .admitHdr => s.written.hdr = true
  | .clear | .align1 | .quad => Admitted s
  | .plane => Admitted s ∧ QuadrantOpen s
  | .fmt => PlaneOpen s
  | .direct => PlaneOpen s ∧ s.qt.t ≤ s.qt.mx * s.qt.my ∧ WrittenBelow s.S s.qt.t
  | .nyb => PlaneOpen s ∧ s.qt.t < s.qt.mx * s.qt.my ∧ WrittenBelow s.S s.qt.t
  | .top =>
    PlaneOpen s ∧ 0 < s.qt.nqx ∧ 0 < s.qt.nqy ∧ s.qt.L = ceilLog2 (max s.qt.nqx s.qt.nqy)
  | .level => PlaneOpen s ∧ 1 ≤ s.qt.k ∧ s.qt.k ≤ max s.qt.L 1 ∧ LevelOpen s (s.qt.k - 1)
  | .expand => PlaneOpen s ∧ 1 ≤ s.qt.k ∧ s.qt.k < s.qt.L ∧ LevelOpen s s.qt.k ∧ s.qt.t ≤ s.qt.ex * s.qt.ey
  | .huf => PlaneOpen s ∧ 1 ≤ s.qt.k ∧ s.qt.k < s.qt.L ∧ LevelOpen s s.qt.k ∧ s.qt.t < s.qt.ex * s.qt.ey
  | .bitins => PlaneOpen s ∧ WrittenBelow s.S (s.qt.mx * s.qt.my)
  | .term | .pad1 | .align2 | .pad2 | .setDC | .undigitize | .hinit => Admitted s
  | .sign => Admitted s ∧ s.gi ≤ s.A.size
  | .sgn => Admitted s ∧ s.gi < s.A.size
  | .hlevel => TransformOpen s s.ht.levels
  | .unshuffle | .combine | .halve =>
    TransformOpen s s.ht.k ∧ s.ht.levels = s.ht.k ∧ s.ht.k < s.ht.log2n
  | .pack => Admitted s ∧ s.gi ≤ s.A.size

/-- A state from which no step faults: the position, the cursor and the registers are those of a session (R230). -/
def Sound (s : State) : Prop := PositionOk s ∧ CursorOk s ∧ PointOk s

/-- The transform's constants of R173 for level `k`, but for `nrnd0` and `shift` of the final level, which the
override of R183 sets. -/
def ConstantsFor (r : HtRegs) (k : Nat) : Prop :=
  r.bit0 = BitVec.ofNat 32 (2 ^ k) ∧ r.mask0 = -BitVec.ofNat 32 (2 ^ k) ∧
  r.bit1 = BitVec.ofNat 32 (2 ^ (k + 1)) ∧ r.mask1 = -BitVec.ofNat 32 (2 ^ (k + 1)) ∧
  r.prnd1 = BitVec.ofNat 32 (2 ^ k) ∧ r.nrnd1 = BitVec.ofNat 32 (2 ^ k) - 1 ∧
  r.prnd0 = BitVec.ofNat 32 (2 ^ k / 2)

/-- The closed forms of R173: before the override at the head of the level loop, and after it within a level. -/
def ConstantsOk (s : State) : Prop :=
  match s.point with
  | .hlevel =>
    s.ht.levels ≤ s.ht.log2n ∧
    (s.ht.levels ≠ 0 →
      ConstantsFor s.ht (s.ht.levels - 1) ∧ s.ht.nrnd0 = s.ht.prnd0 - 1 ∧ s.ht.shift = 1)
  | .unshuffle | .combine | .halve =>
    s.ht.levels = s.ht.k ∧ s.ht.k < s.ht.log2n ∧ ConstantsFor s.ht s.ht.k ∧
    (s.ht.k ≠ 0 → s.ht.nrnd0 = BitVec.ofNat 32 (2 ^ (s.ht.k - 1)) - 1 ∧ s.ht.shift = 1) ∧
    (s.ht.k = 0 → s.ht.nrnd0 = 0 ∧ s.ht.shift = 2)
  | .idle | .magic | .nx | .ny | .scale | .sumall | .nbp0 | .nbp1 | .nbp2 | .admitHdr | .clear => True
  | .align1 | .quad | .plane | .fmt | .direct | .nyb | .top | .level | .expand | .huf | .bitins => True
  | .term | .pad1 | .align2 | .sign | .sgn | .pad2 | .setDC | .undigitize | .hinit => True
  | .pack | .done | .error | .refused => True

/-- The bits the stream still holds at the cursor: the live bits of the accumulator, then the bytes not consumed
(R53, R106). -/
def bitsLeft (s : State) : List Bool :=
  wordBits s.btg s.buf.toNat ++ (s.input.drop s.pos).flatMap byteBits

/-- A safe outcome: no fault. -/
def isSafe (r : Result) : Bool :=
  match r with
  | .next _ => true
  | .fault _ => false
  | .refused _ => true

/-! ### Runs, places and what stays the same -/

/-- `n` steps in a row; a fault or a refusal ends them. -/
def runSteps : Nat → State → Result
  | 0, s => .next s
  | n + 1, s =>
    match step s with
    | .next t => runSteps n t
    | .fault f => .fault f
    | .refused r => .refused r

/-- The host has no move left, so the next step is the engine's, and the engine stands at `p`. -/
def At (p : Point) (s : State) : Prop := s.plan = [] ∧ s.point = p

/-- Every entry of the grid reads as before. -/
def SameGrid (s t : State) : Prop := t.A.size = s.A.size ∧ ∀ i, t.A.readGrid i = s.A.readGrid i

/-- Every entry of the nibble scratch reads as before. -/
def SameScratch (s t : State) : Prop := t.S.size = s.S.size ∧ ∀ i, t.S.readScratch i = s.S.readScratch i

/-- Every entry of the unshuffle buffer reads as before. -/
def SameBuffer (s t : State) : Prop := t.T.size = s.T.size ∧ ∀ i, t.T.readScratch i = s.T.readScratch i

/-- Every byte and entry of every memory of R50 but the input reads as before. -/
def SameMemory (s t : State) : Prop := SameGrid s t ∧ SameScratch s t ∧ SameBuffer s t ∧ t.O = s.O

/-- The input and the stream cursor are as before (R22, R23). -/
def SameStream (s t : State) : Prop :=
  t.input = s.input ∧ t.pos = s.pos ∧ t.buf = s.buf ∧ t.btg = s.btg

/-- The parameters and the host's side are as before. -/
def SameHost (s t : State) : Prop := t.cfg = s.cfg ∧ t.plan = s.plan ∧ t.reply = s.reply

/-- The phase after a phase in the sequence of R30. -/
def phaseAfter : Phase → Option Phase
  | .idle => some .header
  | .header => some .pass1
  | .pass1 => some .terminator
  | .terminator => some .signs
  | .signs => some .dcset
  | .dcset => some .undigitize
  | .undigitize => some .hinv
  | .hinv => some .pack
  | .pack => some .done
  | .done | .error | .refused => none

/-- The stage label at each position that reads the stream, and at those that lead to one (R31). -/
def StageOk (s : State) : Prop :=
  match s.point with
  | .magic | .nx | .ny | .scale | .sumall | .nbp0 | .nbp1 | .nbp2 => s.stage = .header
  | .fmt => s.stage = .fmt s.qt.q s.qt.bit
  | .direct | .nyb => s.stage = .direct s.qt.q s.qt.bit
  | .top | .level | .expand | .huf => s.stage = .qtree s.qt.q s.qt.bit
  | .term => s.stage = .terminator
  | .sign | .sgn => s.stage = .signs
  | .idle | .admitHdr | .clear | .align1 | .quad | .plane | .bitins | .pad1 | .align2 | .pad2 => True
  | .setDC | .undigitize | .hinit | .hlevel | .unshuffle | .combine | .halve | .pack => True
  | .done | .error | .refused => True

/-! ### Sequences of bit reads (R106) -/

/-- A call of the BitReader within a pass: `nextBit()` or `nextBits(n)`. -/
inductive BitCall where
  | bit
  | bits (n : Nat)
  deriving DecidableEq, Repr

/-- How many bits a call takes. -/
def BitCall.width : BitCall → Nat
  | .bit => 1
  | .bits n => n

/-- The bits a call returns, first bit first. -/
def BitCall.run (c : BitCall) (s : State) : Read (List Bool) :=
  match c with
  | .bit => (nextBit s).andThen fun b s => .got [b] s
  | .bits n => (nextBits n s).andThen fun v s => .got (wordBits n v.toNat) s

/-- The bits a sequence of calls returns. -/
def runCalls : List BitCall → State → Read (List Bool)
  | [], s => .got [] s
  | c :: cs, s =>
    (c.run s).andThen fun b s =>
    (runCalls cs s).andThen fun bs s =>
    .got (b ++ bs) s

/-- How many bits a sequence of calls takes. -/
def callBits (cs : List BitCall) : Nat := (cs.map BitCall.width).sum

/-! ### Closed forms -/

/-- Where the entry at position `i` of an unshuffled line of `n` stood before (R175). -/
def unshuffleSource (n i : Nat) : Nat := if i % 2 = 0 then i / 2 else (n + 1) / 2 + i / 2

/-- The sixteen Huffman tokens. -/
def huffmanTokens : List Instr :=
  [.huf0, .huf1, .huf2, .huf3, .huf4, .huf5, .huf6, .huf7, .huf8, .huf9, .huf10, .huf11, .huf12, .huf13, .huf14, .huf15]

end Sys2Proof.Safety
end

