-- ==== Sys2Proof/Certificates/Slice0/Obligations.lean ====
section
/-! DEFINITION. The statements for the provers, each from a numbered rule of the spec. -/

open Sys2Proof Sys2Proof.Machine Sys2Proof.Safety

/-! ### The encoding -/

/-- Words written out from R72, R73, R74, R76, R77, R82, R84: each is the token it stands for. -/
def Obligations.SampleWordsDecode : Prop :=
  decode .magic 16 0b1101110110011001 = .ok .hdrMagic ∧
  decode .magic 16 0b1001100111011101 = .error .badMagic ∧
  decode .nx 32 0xFFFFFFFE = .ok (.hdrNx (-2)) ∧
  decode .ny 32 0x00000100 = .ok (.hdrNy 256) ∧
  decode .nbp2 8 0b00100000 = .ok (.hdrNbp2 32) ∧
  decode .fmt 4 0b0000 = .ok .fmtD ∧
  decode .fmt 4 0b1111 = .ok .fmtQ ∧
  decode .fmt 4 0b1110 = .ok (.fmtIllegal 14) ∧
  decode .nyb 4 0b1111 = .ok (.nyb 15) ∧
  decode .huf 3 0b011 = .ok .huf8 ∧
  decode .huf 4 0b1100 = .ok .huf15 ∧
  decode .huf 5 0b11100 = .ok .huf9 ∧
  decode .huf 6 0b111110 = .ok .huf0 ∧
  decode .term 4 0b0000 = .ok .term ∧
  decode .term 4 0b1111 = .ok (.termIllegal 15) ∧
  decode .sgn 1 0b1 = .ok (.sgn 1) ∧
  decode .pad 3 0b101 = .ok (.pad 3 5)

/-- R80: the codeword of each value, first bit first. -/
def Obligations.CodewordTable : Prop :=
  (encodeBits .huf1 = [false, false, false] ∧ Instr.huf1.hufValue = some 1) ∧
  (encodeBits .huf2 = [false, false, true] ∧ Instr.huf2.hufValue = some 2) ∧
  (encodeBits .huf4 = [false, true, false] ∧ Instr.huf4.hufValue = some 4) ∧
  (encodeBits .huf8 = [false, true, true] ∧ Instr.huf8.hufValue = some 8) ∧
  (encodeBits .huf3 = [true, false, false, false] ∧ Instr.huf3.hufValue = some 3) ∧
  (encodeBits .huf5 = [true, false, false, true] ∧ Instr.huf5.hufValue = some 5) ∧
  (encodeBits .huf10 = [true, false, true, false] ∧ Instr.huf10.hufValue = some 10) ∧
  (encodeBits .huf12 = [true, false, true, true] ∧ Instr.huf12.hufValue = some 12) ∧
  (encodeBits .huf15 = [true, true, false, false] ∧ Instr.huf15.hufValue = some 15) ∧
  (encodeBits .huf6 = [true, true, false, true, false] ∧ Instr.huf6.hufValue = some 6) ∧
  (encodeBits .huf7 = [true, true, false, true, true] ∧ Instr.huf7.hufValue = some 7) ∧
  (encodeBits .huf9 = [true, true, true, false, false] ∧ Instr.huf9.hufValue = some 9) ∧
  (encodeBits .huf11 = [true, true, true, false, true] ∧ Instr.huf11.hufValue = some 11) ∧
  (encodeBits .huf13 = [true, true, true, true, false] ∧ Instr.huf13.hufValue = some 13) ∧
  (encodeBits .huf0 = [true, true, true, true, true, false] ∧ Instr.huf0.hufValue = some 0) ∧
  (encodeBits .huf14 = [true, true, true, true, true, true] ∧ Instr.huf14.hufValue = some 14)

/-- Decoding the encoding of any well-formed token, at its place, gives the token back. -/
def Obligations.DecodeEncode : Prop :=
  ∀ i : Instr, i.wellFormed = true → decode i.slot (encode i).1 (encode i).2 = .ok i

/-- What the decoder accepts is a well-formed token of the place, and its encoding is the bits read: no two
encodings of one token, and none outside the table. -/
def Obligations.DecodeIsEncoded : Prop :=
  ∀ (k : Slot) (n w : Nat) (i : Instr), decode k n w = .ok i →
    i.wellFormed = true ∧ i.slot = k ∧ encode i = (n, w)

/-- A token written at the front of any bit stream is read back, and the bits after it are left. A pad is read at
the length the cursor leaves. -/
def Obligations.StreamRoundTrip : Prop :=
  ∀ (i : Instr) (residual : Nat) (rest : List Bool), i.wellFormed = true →
    (∀ len p, i = .pad len p → residual = len.val) →
    decodeStream i.slot residual (encodeBits i ++ rest) = .ok (i, rest)

/-- R81: the code is prefix-free, its Kraft sum is 1 (64 of 64), its values are the sixteen nibbles, every six bits
begin with a codeword, and the codeword's length follows from the prefix. -/
def Obligations.HuffmanComplete : Prop :=
  (∀ i ∈ huffmanTokens, ∀ j ∈ huffmanTokens, encodeBits i <+: encodeBits j → i = j) ∧
  (huffmanTokens.map (fun i => 2 ^ (6 - (encode i).1))).sum = 64 ∧
  (∀ v : Nibble, ∃! i : Instr, i.hufValue = some v) ∧
  (∀ bs : List Bool, 6 ≤ bs.length → ∃! i : Instr, i.slot = .huf ∧ encodeBits i <+: bs) ∧
  (∀ (bs : List Bool) (i : Instr), 6 ≤ bs.length → i.slot = .huf → encodeBits i <+: bs →
    (bitsToNat (bs.take 3) < 0b100 → (encode i).1 = 3) ∧
    (0b1000 ≤ bitsToNat (bs.take 4) ∧ bitsToNat (bs.take 4) ≤ 0b1100 → (encode i).1 = 4) ∧
    (0b11010 ≤ bitsToNat (bs.take 5) ∧ bitsToNat (bs.take 5) ≤ 0b11110 → (encode i).1 = 5) ∧
    (bitsToNat (bs.take 5) = 0b11111 → (encode i).1 = 6))

/-! ### The BitReader -/

/-- R100: `nextByte()` gives `IN[pos]` and moves `pos` by 1, touching neither `buf` nor `btg`; where no byte remains, the
read ends there, and a fetch that ends so raises `StreamExhausted` with the stage and `pos` of that moment, which is `len(IN)`. R101:
`nextInt32BE()` takes four bytes, the first the most significant, read as two's complement; where one is missing, the ones
before it are consumed. -/
def Obligations.ByteReads : Prop :=
  (∀ s : State,
    (∀ h : s.pos < s.input.length, ∃ t, nextByte s = .got s.input[s.pos] t ∧ t = { s with pos := s.pos + 1 }) ∧
    (s.input.length ≤ s.pos → nextByte s = .exhausted s) ∧
    (∀ (k : Slot) (t : State), readToken k s = .exhausted t →
      ∃ u, fetchToken k s = .own (.next u) ∧ u.status.errKind = .streamExhausted ∧
        u.status.errStage = s.stage ∧ u.status.errPos = t.pos ∧ s.input.length ≤ t.pos ∧
        (s.pos ≤ s.input.length → u.status.errPos = s.input.length))) ∧
  (∀ s : State, s.pos ≤ s.input.length →
    (s.pos + 4 ≤ s.input.length → ∃ v t, nextInt32BE s = .got v t ∧ t = { s with pos := s.pos + 4 } ∧
      ∃ b0 b1 b2 b3 : Byte, (s.input.drop s.pos).take 4 = [b0, b1, b2, b3] ∧
        v.toInt = ((b0.toNat * 2 ^ 24 + b1.toNat * 2 ^ 16 + b2.toNat * 2 ^ 8 + b3.toNat : Nat) : Int).bmod (2 ^ 32)) ∧
    (s.input.length < s.pos + 4 → nextInt32BE s = .exhausted { s with pos := s.input.length }))

/-- R106: in a pass, any calls return consecutive bits of the bytes from `pos` on, most significant first, and after
`B` bits the cursor stands as the law says; bytes are read only where a needed bit lies in them, so the calls end
early only when the bits do. -/
def Obligations.BitStreamLaw : Prop :=
  ∀ (s : State) (cs : List BitCall), s.btg = 0 → s.pos ≤ s.input.length →
    (∀ c ∈ cs, 1 ≤ c.width ∧ c.width ≤ 8) →
    (callBits cs ≤ 8 * (s.input.length - s.pos) →
      ∃ bs t, runCalls cs s = .got bs t ∧
        bs = ((s.input.drop s.pos).flatMap byteBits).take (callBits cs) ∧
        bitsLeft t = ((s.input.drop s.pos).flatMap byteBits).drop (callBits cs) ∧
        t.pos = s.pos + ceilDiv (callBits cs) 8 ∧ t.btg = (8 - callBits cs % 8) % 8) ∧
    (8 * (s.input.length - s.pos) < callBits cs → ∃ t, runCalls cs s = .exhausted t ∧ t.pos = s.input.length)

/-- The fetch reads from the stream what the decoder reads from its bits (R53, R83, R88, R106): the same token and the same bits
left (a pad's bits stay in the accumulator), `StreamExhausted` where the bits end inside the token, `BadMagicNumber` where the
decoder finds no magic. Header fields are read with no live bit (R107). -/
def Obligations.FetchDecodesTheStream : Prop :=
  ∀ (k : Slot) (s : State), s.btg ≤ 7 → s.pos ≤ s.input.length →
    (k = .magic ∨ k = .nx ∨ k = .ny ∨ k = .scale ∨ k = .sumall ∨ k = .nbp0 ∨ k = .nbp1 ∨ k = .nbp2 → s.btg = 0) →
    match decodeStream k s.btg (bitsLeft s) with
    | .ok (i, rest) =>
      ∃ t, fetchToken k s = .token i t ∧ (bitsLeft t = if k = .pad then bitsLeft s else rest) ∧
        SameMemory s t ∧ t.point = s.point ∧ t.status = s.status
    | .error .short =>
      ∃ t, fetchToken k s = .own (.next t) ∧ t.status.state = .error ∧ t.status.errKind = .streamExhausted ∧
        t.status.errPos = s.input.length
    | .error .badMagic =>
      ∃ t, fetchToken k s = .own (.next t) ∧ t.status.state = .error ∧ t.status.errKind = .badMagicNumber
    | .error .badWidth => False

/-! ### A step -/

/-- Where the bits read at the engine's place decode to a token, the step is that token's meaning, run in the state whose
cursor has moved past the token; a host that waits leaves the turn to the engine. A step at a place that reads no token
is the operation of that place; a transaction of the host is one step, which the engine does not share (R20, R245; the
schedule is the model's choice, log entry 5). -/
def Obligations.StepRunsDecodedToken : Prop :=
  (∀ (s t : State) (k : Slot) (n w : Nat) (i : Instr), s.point.slot = some k →
    readToken k s = .got (n, w) t → decode k n w = .ok i →
    (s.plan = [] → step s = exec i t) ∧ step { s with plan := .wait :: s.plan } = exec i t) ∧
  (∀ s : State,
    (s.point.slot = none →
      (s.plan = [] → step s = engineOp s) ∧ step { s with plan := .wait :: s.plan } = engineOp s) ∧
    (∀ m r, s.plan = m :: r → m ≠ .wait → step s = hostMove m { s with plan := r }))

/-- A token where the grammar has none of its kind stops under its own name (the model's choice, log entry 6): no step
does so, since the decoder gives a token of the place. -/
def Obligations.TokensKeepToTheGrammar : Prop :=
  (∀ (i : Instr) (s : State), s.point.slot ≠ some i.slot → exec i s = .fault .tokenOutOfPlace) ∧
  (∀ s : State, step s ≠ .fault .tokenOutOfPlace)

/-! ### The header -/

/-- R130, R24, R34: each header token completes at its place, its register holds the field, and the next field follows; as
the last count is read, `STATUS` captures the whole header, and nothing else of `STATUS` changes. -/
def Obligations.HeaderFields : Prop :=
  (∀ s : State, s.point = .magic → ∃ t, exec .hdrMagic s = .next t ∧ t.hdr = s.hdr ∧ t.point = .nx) ∧
  (∀ (v : Word) (s : State), s.point = .nx → ∃ t, exec (.hdrNx v) s = .next t ∧ t.hdr.nx = v ∧ t.point = .ny) ∧
  (∀ (v : Word) (s : State), s.point = .ny → ∃ t, exec (.hdrNy v) s = .next t ∧ t.hdr.ny = v ∧ t.point = .scale) ∧
  (∀ (v : Word) (s : State), s.point = .scale →
    ∃ t, exec (.hdrScale v) s = .next t ∧ t.hdr.scale = v ∧ t.point = .sumall) ∧
  (∀ (v : Word) (s : State), s.point = .sumall →
    ∃ t, exec (.hdrSumall v) s = .next t ∧ t.hdr.sumall = v ∧ t.point = .nbp0) ∧
  (∀ (n : Byte) (s : State), s.point = .nbp0 → ∃ t, exec (.hdrNbp0 n) s = .next t ∧ t.hdr.nbp0 = n ∧ t.point = .nbp1) ∧
  (∀ (n : Byte) (s : State), s.point = .nbp1 → ∃ t, exec (.hdrNbp1 n) s = .next t ∧ t.hdr.nbp1 = n ∧ t.point = .nbp2) ∧
  (∀ (n : Byte) (s : State), s.point = .nbp2 → ∃ t, exec (.hdrNbp2 n) s = .next t ∧ t.hdr.nbp2 = n ∧ t.point = .admitHdr ∧
    t.status = { s.status with
      hdrNx := s.hdr.nx, hdrNy := s.hdr.ny, hdrScale := s.hdr.scale, hdrSumall := s.hdr.sumall
      hdrNbp0 := s.hdr.nbp0, hdrNbp1 := s.hdr.nbp1, hdrNbp2 := n, hdrValid := true })

/-- What a header token leaves unchanged: every other header register, `STATUS` but for the capture of the last one, every
memory, the stream (the fetch has moved the cursor), every other register. -/
def Obligations.HeaderFrame : Prop :=
  ∀ (i : Instr) (s t : State), exec i s = .next t →
    i.slot ∈ [Slot.magic, .nx, .ny, .scale, .sumall, .nbp0, .nbp1, .nbp2] →
    SameMemory s t ∧ SameStream s t ∧ SameHost s t ∧
    t.qt = s.qt ∧ t.ht = s.ht ∧ t.gi = s.gi ∧ t.stage = s.stage ∧ t.phase = .header ∧
    (i.slot ≠ .nx → t.hdr.nx = s.hdr.nx) ∧ (i.slot ≠ .ny → t.hdr.ny = s.hdr.ny) ∧
    (i.slot ≠ .scale → t.hdr.scale = s.hdr.scale) ∧ (i.slot ≠ .sumall → t.hdr.sumall = s.hdr.sumall) ∧
    (i.slot ≠ .nbp0 → t.hdr.nbp0 = s.hdr.nbp0) ∧ (i.slot ≠ .nbp1 → t.hdr.nbp1 = s.hdr.nbp1) ∧
    (i.slot ≠ .nbp2 → t.hdr.nbp2 = s.hdr.nbp2 ∧ t.status = s.status ∧ t.written = s.written) ∧
    t.status.state = s.status.state ∧ t.status.errKind = s.status.errKind ∧
    t.status.refuseReason = s.status.refuseReason ∧ t.status.outLen = s.status.outLen

/-- R130: the header, from its first byte. With 21 bytes and the magic, eight tokens leave the fields of R71 in their
registers and in `STATUS`, and `pos` at 21; both magic bytes present and wrong end in `BadMagicNumber`; an input that ends
earlier ends in `StreamExhausted`. -/
def Obligations.ReadHeader : Prop :=
  ∀ s : State, At .magic s → s.pos = 0 → s.btg = 0 → s.stage = .header →
    let b := fun i => s.input.getD i 0
    (21 ≤ s.input.length → s.input.take 2 = [0xDD, 0x99] →
      ∃ t, runSteps 8 s = .next t ∧ t.point = .admitHdr ∧ t.pos = 21 ∧ t.btg = 0 ∧ SameMemory s t ∧
        t.hdr.nx = b 2 ++ b 3 ++ b 4 ++ b 5 ∧ t.hdr.ny = b 6 ++ b 7 ++ b 8 ++ b 9 ∧
        t.hdr.scale = b 10 ++ b 11 ++ b 12 ++ b 13 ∧ t.hdr.sumall = b 14 ++ b 15 ++ b 16 ++ b 17 ∧
        t.hdr.nbp0 = b 18 ∧ t.hdr.nbp1 = b 19 ∧ t.hdr.nbp2 = b 20 ∧
        t.status.hdrNx = t.hdr.nx ∧ t.status.hdrNy = t.hdr.ny ∧ t.status.hdrScale = t.hdr.scale ∧
        t.status.hdrSumall = t.hdr.sumall ∧ t.status.hdrNbp0 = t.hdr.nbp0 ∧ t.status.hdrNbp1 = t.hdr.nbp1 ∧
        t.status.hdrNbp2 = t.hdr.nbp2 ∧ t.status.hdrValid = true) ∧
    (2 ≤ s.input.length → s.input.take 2 ≠ [0xDD, 0x99] →
      ∃ t, step s = .next t ∧ t.status.state = .error ∧ t.status.errKind = .badMagicNumber ∧
        t.status.errStage = .header ∧ t.status.errPos = 2) ∧
    (s.input.length < 21 → (s.input.length < 2 ∨ s.input.take 2 = [0xDD, 0x99]) →
      ∃ t, runSteps 8 s = .next t ∧ t.status.state = .error ∧ t.status.errKind = .streamExhausted ∧
        t.status.errStage = .header ∧ t.status.errPos = s.input.length ∧
        t.status.hdrValid = s.status.hdrValid)

/-- R131: the three checks, in their order, and on admission a grid of `nx*ny` entries. R132: every entry of it is then 0, and no
token is consumed. -/
def Obligations.AdmitAndClear : Prop :=
  (∀ s : State, At .admitHdr s → s.written.hdr = true →
    let nx := s.hdr.nx.toInt
    let ny := s.hdr.ny.toInt
    (¬(1 ≤ nx ∧ 1 ≤ ny ∧ 2 ≤ max nx ny ∧ max nx ny ≤ 2 ^ 29) →
      step s = .next (refuse .badGeometry s)) ∧
    ((1 ≤ nx ∧ 1 ≤ ny ∧ 2 ≤ max nx ny ∧ max nx ny ≤ 2 ^ 29) →
      ((s.cfg.gridCapacity : Int) < nx * ny → step s = .next (refuse .gridTooLarge s)) ∧
      (nx * ny ≤ (s.cfg.gridCapacity : Int) →
        (32 < s.hdr.nbp0.toNat ∨ 32 < s.hdr.nbp1.toNat ∨ 32 < s.hdr.nbp2.toNat →
          step s = .next (refuse .bitplaneCountTooLarge s)) ∧
        (s.hdr.nbp0.toNat ≤ 32 ∧ s.hdr.nbp1.toNat ≤ 32 ∧ s.hdr.nbp2.toNat ≤ 32 →
          ∃ t, step s = .next t ∧ (t.A.size : Int) = nx * ny ∧ t.point = .clear ∧ SameStream s t ∧
            t.hdr = s.hdr ∧ t.status = s.status)))) ∧
  (∀ s : State, At .clear s → ∃ t, step s = .next t ∧ t.A.size = s.A.size ∧
    (∀ i, i < s.A.size → t.A.readGrid i = .ok 0) ∧ SameStream s t ∧ t.point = .align1)

/-! ### Pass 1 -/

/-- R58: the quadrants tile the grid exactly once. -/
def Obligations.QuadrantsTile : Prop :=
  ∀ h : HdrRegs,
    let nx2 := ceilDiv h.rows 2
    let ny2 := ceilDiv h.cols 2
    quadrantOf h 0 = { off := 0, nqx := nx2, nqy := ny2, P := h.nbp0.toNat } ∧
    quadrantOf h 1 = { off := ny2, nqx := nx2, nqy := h.cols / 2, P := h.nbp1.toNat } ∧
    quadrantOf h 2 = { off := h.cols * nx2, nqx := h.rows / 2, nqy := ny2, P := h.nbp1.toNat } ∧
    quadrantOf h 3 = { off := h.cols * nx2 + ny2, nqx := h.rows / 2, nqy := h.cols / 2, P := h.nbp2.toNat } ∧
    (∀ r c, r < h.rows → c < h.cols → ∃! p : Fin 4 × Nat × Nat,
      p.2.1 < (quadrantOf h p.1).nqx ∧ p.2.2 < (quadrantOf h p.1).nqy ∧
        (quadrantOf h p.1).off + p.2.1 * h.cols + p.2.2 = r * h.cols + c) ∧
    (∀ (q : Fin 4) (i j : Nat), i < (quadrantOf h q).nqx → j < (quadrantOf h q).nqy →
      ∃ r c, r < h.rows ∧ c < h.cols ∧ (quadrantOf h q).off + i * h.cols + j = r * h.cols + c ∧
        (r < nx2 ↔ q = 0 ∨ q = 1) ∧ (c < ny2 ↔ q = 0 ∨ q = 2)) ∧
    (h.rows = 1 → (quadrantOf h 2).nqx = 0 ∧ (quadrantOf h 3).nqx = 0) ∧
    (h.cols = 1 → (quadrantOf h 1).nqy = 0 ∧ (quadrantOf h 3).nqy = 0)

/-- R133, R134, R135, R144: entering a quadrant takes its row of the table of R58 as operands, and a scratch of `mx * my` entries
(R26); its bitplanes go from `P-1` down to 0, each beginning with its format code at its own stage; after the last one the
next quadrant follows, and after quadrant 3 the terminator. No token is consumed. -/
def Obligations.QuadrantLoop : Prop :=
  (∀ s : State, At .quad s → s.written.hdr = true → ∃ t, step s = .next t ∧ t.point = .plane ∧
    t.qt.q = s.qt.q ∧ t.qt.off = (quadrantOf s.hdr s.qt.q).off ∧ t.qt.n = s.hdr.cols ∧
    t.qt.nqx = (quadrantOf s.hdr s.qt.q).nqx ∧ t.qt.nqy = (quadrantOf s.hdr s.qt.q).nqy ∧
    t.qt.P = (quadrantOf s.hdr s.qt.q).P ∧ t.qt.planes = t.qt.P ∧
    t.qt.mx = ceilDiv t.qt.nqx 2 ∧ t.qt.my = ceilDiv t.qt.nqy 2 ∧ t.S.size = t.qt.mx * t.qt.my ∧
    SameStream s t ∧ SameGrid s t ∧ t.O = s.O) ∧
  (∀ s : State, At .plane s → s.written.qt = true →
    (s.qt.planes ≠ 0 → ∃ t, step s = .next t ∧ t.point = .fmt ∧ t.qt.bit = s.qt.planes - 1 ∧
      t.qt.planes = s.qt.planes - 1 ∧ t.qt.q = s.qt.q ∧ t.stage = .fmt s.qt.q (s.qt.planes - 1) ∧
      SameStream s t ∧ SameMemory s t) ∧
    (s.qt.planes = 0 → s.qt.q.val < 3 → ∃ t, step s = .next t ∧ t.point = .quad ∧ t.qt.q.val = s.qt.q.val + 1 ∧
      SameStream s t ∧ SameMemory s t) ∧
    (s.qt.planes = 0 → s.qt.q.val = 3 → ∃ t, step s = .next t ∧ t.point = .term ∧ t.stage = .terminator ∧
      SameStream s t ∧ SameMemory s t))

/-- R136: the 4 bits of a format code select the coding: `0x0` direct (R137), `0xF` quadtree (R138; in a quadrant that is not
empty), and `0x1` to `0xE` raise `BadFormatCode` at the stage of the format code, with no further read. -/
def Obligations.FormatDispatch : Prop :=
  (decode .fmt 4 0x0 = .ok .fmtD ∧ decode .fmt 4 0xF = .ok .fmtQ ∧
    ∀ f : Nibble, f ≠ 0 → f ≠ 15 → decode .fmt 4 f.toNat = .ok (.fmtIllegal f)) ∧
  (∀ s : State, s.point = .fmt → s.written.qt = true →
    ∃ t, exec .fmtD s = .next t ∧ t.point = .direct ∧ t.qt.t = 0 ∧ t.qt.b = 0 ∧ t.stage = .direct s.qt.q s.qt.bit) ∧
  (∀ s : State, s.point = .fmt → s.written.qt = true → 0 < s.qt.nqx → 0 < s.qt.nqy →
    ∃ t, exec .fmtQ s = .next t ∧ t.point = .top ∧ t.qt.b = 15 ∧ t.stage = .qtree s.qt.q s.qt.bit ∧
      t.qt.L = ceilLog2 (max s.qt.nqx s.qt.nqy)) ∧
  (∀ (f : Nibble) (s : State), s.point = .fmt → s.stage = .fmt s.qt.q s.qt.bit →
    ∃ t, exec (.fmtIllegal f) s = .next t ∧ t.status.state = .error ∧ t.status.errKind = .badFormatCode ∧
      t.status.errStage = .fmt s.qt.q s.qt.bit ∧ t.status.errPos = s.pos ∧ t.pos = s.pos)

/-- R143: `FMT.Q` in a quadrant with no row or no column is refused, and `FMT.D` there is legal and reads nothing. -/
def Obligations.EmptyQuadrant : Prop :=
  ∀ s : State, s.point = .fmt → s.written.qt = true → (s.qt.nqx = 0 ∨ s.qt.nqy = 0) →
    (∃ t, exec .fmtQ s = .next t ∧ t.status.state = .refused ∧ t.status.refuseReason = .emptyQuadrantQuadtree) ∧
    (s.qt.mx = ceilDiv s.qt.nqx 2 → s.qt.my = ceilDiv s.qt.nqy 2 → s.plan = [] →
      ∃ t u v, exec .fmtD s = .next t ∧ step t = .next u ∧ u.point = .bitins ∧ step u = .next v ∧ v.point = .plane ∧
        SameStream s v ∧ SameMemory s v)

/-- R234, R235: an illegal format code and an illegal terminator raise their errors, with `ERR_POS` the cursor after the bits
are read and `ERR_STAGE` the stage at the read; `b` alone, which holds the format code (R29), changes beside what the error action
changes. -/
def Obligations.IllegalCodes : Prop :=
  (∀ (f : Nibble) (s : State), s.point = .fmt →
    ∃ t, exec (.fmtIllegal f) s = .next t ∧ t.status.state = .error ∧ t.status.errKind = .badFormatCode ∧
      t.status.errKind.code = 3 ∧ t.status.errStage = s.stage ∧ t.status.errPos = s.pos ∧
      t = raise .badFormatCode { s with qt := { s.qt with b := f.toNat } }) ∧
  (∀ (f : Nibble) (s : State), s.point = .term →
    ∃ t, exec (.termIllegal f) s = .next t ∧ t.status.state = .error ∧ t.status.errKind = .badBitplaneTerminator ∧
      t.status.errKind.code = 4 ∧ t.status.errStage = s.stage ∧ t.status.errPos = s.pos ∧
      t = raise .badBitplaneTerminator s)

/-- R137: the direct loop reads a nibble while `t < mx*my`, and then inserts the plane; nothing but the position changes. The
nibble `NYB v` is `S[t]`, and `t` moves on. -/
def Obligations.DirectNibbles : Prop :=
  (∀ s : State, At .direct s → s.written.qt = true →
    (s.qt.t < s.qt.mx * s.qt.my → step s = .next (s.goto .nyb)) ∧
    (s.qt.mx * s.qt.my ≤ s.qt.t → step s = .next (s.goto .bitins))) ∧
  (∀ (v : Nibble) (s : State), s.point = .nyb → s.written.qt = true → s.qt.t < s.S.size →
    ∃ t, exec (.nyb v) s = .next t ∧ t.S.readScratch s.qt.t = .ok v ∧ t.qt.t = s.qt.t + 1 ∧ t.point = .direct)

/-- Each of the sixteen Huffman tokens (HUF_0 to HUF_15) completes with its value. R138: at the top level the value goes to
`S[0]`, and the level loop starts at `k = 1` from the 1×1 extent. R141, R122: at an expansion level the value, 0 included, replaces
the entry the scan stands at. -/
def Obligations.HuffmanTokens : Prop :=
  (∀ (i : Instr) (v : Nibble) (s : State), i.hufValue = some v → s.point = .top → s.written.qt = true → 0 < s.S.size →
    ∃ t, exec i s = .next t ∧ t.S.readScratch 0 = .ok v ∧ t.point = .level ∧ t.qt.k = 1 ∧
      t.qt.ex = 1 ∧ t.qt.ey = 1 ∧ t.qt.fx = s.qt.nqx ∧ t.qt.fy = s.qt.nqy ∧ t.qt.c = 2 ^ s.qt.L) ∧
  (∀ (i : Instr) (v : Nibble) (s : State), i.hufValue = some v → s.point = .huf → s.written.qt = true →
    s.qt.t < s.S.size →
    ∃ t, exec i s = .next t ∧ t.S.readScratch s.qt.t = .ok v ∧ t.point = .expand ∧ t.qt = s.qt)

/-- What `FMT.D`, `FMT.Q` in a quadrant that is not empty, `NYB` and the Huffman tokens leave unchanged: the header, `STATUS`, the stream, the grid,
the unshuffle buffer, the output, every scratch entry but the one stored to (`S[t]`, or `S[0]` at the top level), and the
registers of the transform; of the quadtree registers all but `b`, `t`, `L` and the loop registers of the level loop. -/
def Obligations.PlaneTokenFrame : Prop :=
  ∀ (i : Instr) (s t : State), exec i s = .next t →
    (i = .fmtD ∨ (i = .fmtQ ∧ s.qt.nqx ≠ 0 ∧ s.qt.nqy ≠ 0) ∨ i.slot = .nyb ∨ i.slot = .huf) →
    SameStream s t ∧ SameHost s t ∧ SameGrid s t ∧ SameBuffer s t ∧ t.O = s.O ∧ t.hdr = s.hdr ∧ t.status = s.status ∧
    t.ht = s.ht ∧ t.gi = s.gi ∧ t.written = s.written ∧ t.phase = .pass1 ∧ t.S.size = s.S.size ∧
    (∀ a, (i.slot = .nyb ∨ i.slot = .huf → a ≠ if s.point = .top then 0 else s.qt.t) →
      t.S.readScratch a = s.S.readScratch a) ∧
    (i = .fmtD → t.qt = { s.qt with b := 0, t := 0 }) ∧
    (i = .fmtQ → t.qt = { s.qt with b := 15, L := ceilLog2 (max s.qt.nqx s.qt.nqy) }) ∧
    (i.slot = .nyb → t.qt = { s.qt with t := s.qt.t + 1 } ∧ t.stage = s.stage) ∧
    (i.slot = .huf → t.stage = s.stage ∧
      (s.point ≠ .top → t.qt = s.qt) ∧
      (s.point = .top → t.qt = { s.qt with ex := t.qt.ex, ey := t.qt.ey, fx := t.qt.fx, fy := t.qt.fy, c := t.qt.c, k := t.qt.k }))

/-- R139: one step of the recurrence, its closed form at every level, and the ceiling-half relation of neighbouring levels,
ending at `mx × my`. -/
def Obligations.NextExtent : Prop :=
  (∀ r : QtRegs, (nextExtent r).c = r.c / 2 ∧
    (nextExtent r).ex = (if r.fx ≤ r.c / 2 then 2 * r.ex - 1 else 2 * r.ex) ∧
    (nextExtent r).fx = (if r.fx ≤ r.c / 2 then r.fx else r.fx - r.c / 2) ∧
    (nextExtent r).ey = (if r.fy ≤ r.c / 2 then 2 * r.ey - 1 else 2 * r.ey) ∧
    (nextExtent r).fy = (if r.fy ≤ r.c / 2 then r.fy else r.fy - r.c / 2)) ∧
  (∀ r : QtRegs, 1 ≤ r.nqx → 1 ≤ r.nqy →
    let L := ceilLog2 (max r.nqx r.nqy)
    let e := fun k => nextExtent^[k] { r with ex := 1, ey := 1, fx := r.nqx, fy := r.nqy, c := 2 ^ L }
    (∀ k, k ≤ L → (e k).ex = ceilDiv r.nqx (2 ^ (L - k)) ∧ (e k).ey = ceilDiv r.nqy (2 ^ (L - k))) ∧
    (∀ k, k < L → (e k).ex = ceilDiv (e (k + 1)).ex 2 ∧ (e k).ey = ceilDiv (e (k + 1)).ey 2) ∧
    (1 ≤ L → (e (L - 1)).ex = ceilDiv r.nqx 2 ∧ (e (L - 1)).ey = ceilDiv r.nqy 2))

/-- R140: the copy, from the scratch as it was on entry: bit 3 top-left, 2 top-right, 1 bottom-left, 0 bottom-right; entries
at or above `ex*ey` are not written. -/
def Obligations.QtreeCopy : Prop :=
  ∀ (ex ey : Nat) (old : Bank 4), ex * ey ≤ old.size → WrittenBelow old (ceilDiv ex 2 * ceilDiv ey 2) →
    ceilDiv ex 2 * ceilDiv ey 2 ≤ old.size →
    ∃ b, qtreeCopy ex ey old = .ok b ∧ b.size = old.size ∧
      (∀ i j v, i < ex → j < ey → old.readScratch (i / 2 * ceilDiv ey 2 + j / 2) = .ok v →
        b.readScratch (i * ey + j) = .ok (if v.getLsbD (3 - 2 * (i % 2) - j % 2) then 1 else 0)) ∧
      (∀ x, ex * ey ≤ x → b.readScratch x = old.readScratch x)

/-- R138: the level loop runs for `k` in `1 .. L-1`: the next extent, the copy, and a scan from the last entry; after it the
plane is inserted. R141: the scan goes down from `ex*ey - 1` to 0; an entry that is 0 consumes no bit and stays, any other
asks for a codeword; below entry 0 the next level follows. -/
def Obligations.LevelLoop : Prop :=
  (∀ s : State, At .level s → s.written.qt = true →
    (s.qt.L ≤ s.qt.k → ∃ t, step s = .next t ∧ t.point = .bitins ∧ SameMemory s t ∧ SameStream s t) ∧
    (s.qt.k < s.qt.L → ∀ b, qtreeCopy (nextExtent s.qt).ex (nextExtent s.qt).ey s.S = .ok b →
      ∃ t, step s = .next t ∧ t.point = .expand ∧ t.S = b ∧ t.qt.k = s.qt.k ∧
        t.qt.ex = (nextExtent s.qt).ex ∧ t.qt.ey = (nextExtent s.qt).ey ∧ t.qt.t = t.qt.ex * t.qt.ey ∧
        SameGrid s t ∧ SameStream s t)) ∧
  (∀ s : State, At .expand s → s.written.qt = true →
    (s.qt.t = 0 → ∃ t, step s = .next t ∧ t.point = .level ∧ t.qt.k = s.qt.k + 1 ∧ SameMemory s t ∧ SameStream s t) ∧
    (∀ v, 0 < s.qt.t → s.S.readScratch (s.qt.t - 1) = .ok v →
      ∃ t, step s = .next t ∧ t.qt.t = s.qt.t - 1 ∧ t.point = (if v = 0 then .expand else .huf) ∧
        SameMemory s t ∧ SameStream s t))

/-- R142: the insertion of a plane ORs one bit of the scratch into each entry of the quadrant, at position `bit`, and
writes no other entry. -/
def Obligations.InsertPlane : Prop :=
  ∀ s : State, At .bitins s → s.written.qt = true → s.qt.bit ≤ 31 → s.qt.nqy ≤ s.qt.n →
    (∀ i j, i < s.qt.nqx → j < s.qt.nqy →
      s.qt.off + i * s.qt.n + j < s.A.size ∧ ∃ v, s.S.readScratch (i / 2 * s.qt.my + j / 2) = .ok v) →
    ∃ t, step s = .next t ∧ t.point = .plane ∧ SameStream s t ∧ SameScratch s t ∧ t.A.size = s.A.size ∧
      (∀ i j v o, i < s.qt.nqx → j < s.qt.nqy → s.S.readScratch (i / 2 * s.qt.my + j / 2) = .ok v →
        s.A.readGrid (s.qt.off + i * s.qt.n + j) = .ok o →
        t.A.readGrid (s.qt.off + i * s.qt.n + j) =
          .ok (o ||| if v.getLsbD (3 - 2 * (i % 2) - j % 2) then BitVec.ofNat 32 (2 ^ s.qt.bit) else 0)) ∧
      (∀ x, (∀ i j, i < s.qt.nqx → j < s.qt.nqy → x ≠ s.qt.off + i * s.qt.n + j) → t.A.readGrid x = s.A.readGrid x)

/-! ### Terminator, sign pass, DC value -/

/-- R82, R144: the terminator 0 ends the bitplanes, and the pad of pass 1 follows. R83: pad bits of any value and any length
are legal and never looked at; after pass 1 the reset of pass 2 follows, after the last sign bit the placement of the DC
value. Neither token changes anything but the position. -/
def Obligations.TerminatorAndPad : Prop :=
  (∀ s : State, s.point = .term → exec .term s = .next (s.goto .pad1)) ∧
  (∀ (len : Fin 8) (p : BitVec 7) (s : State),
    (s.point = .pad1 → exec (.pad len p) s = .next (s.goto .align2)) ∧
    (s.point = .pad2 → exec (.pad len p) s = .next (s.goto .setDC)))

/-- R102, R133, R145: the bit cursor is reset, and `buf`, `pos` and the input stay; pass 1 then begins at quadrant 0, and pass 2
at grid index 0 in the stage `SIGNS`. The live bits are dropped, so the pass begins at the first bit of the next byte. -/
def Obligations.AlignBegin : Prop :=
  ∀ s : State,
    (s.point = .align1 → ∃ t, exec .align s = .next t ∧ t.btg = 0 ∧ t.buf = s.buf ∧ t.pos = s.pos ∧ t.input = s.input ∧
      t.point = .quad ∧ t.qt.q = 0 ∧ bitsLeft t = (s.input.drop s.pos).flatMap byteBits) ∧
    (s.point = .align2 → ∃ t, exec .align s = .next t ∧ t.btg = 0 ∧ t.buf = s.buf ∧ t.pos = s.pos ∧ t.input = s.input ∧
      t.point = .sign ∧ t.gi = 0 ∧ t.stage = .signs ∧ bitsLeft t = (s.input.drop s.pos).flatMap byteBits)

/-- R84, R145, R8: the sign pass looks at the entries in ascending order; an entry that is 0 consumes no bit, any other asks for
one; after the last entry comes the pad. A sign bit of 1 negates the entry, with wrap, so that `-(-2^31) = -2^31`; a 0 keeps it;
the scan goes on with the next entry. -/
def Obligations.SignPass : Prop :=
  (∀ s : State, At .sign s →
    (∀ v, s.A.readGrid s.gi = .ok v → ∃ t, step s = .next t ∧ SameMemory s t ∧ SameStream s t ∧
      (v = 0 → t.point = .sign ∧ t.gi = s.gi + 1) ∧ (v ≠ 0 → t.point = .sgn ∧ t.gi = s.gi)) ∧
    (s.A.size ≤ s.gi → ∃ t, step s = .next t ∧ t.point = .pad2 ∧ SameMemory s t ∧ SameStream s t)) ∧
  (∀ (b : BitVec 1) (v : Word) (s : State), s.point = .sgn → s.A.readGrid s.gi = .ok v →
    ∃ t w, exec (.sgn b) s = .next t ∧ t.A.readGrid s.gi = .ok w ∧ t.gi = s.gi + 1 ∧ t.point = .sign ∧
      (b = 1 → w.toInt = (-v.toInt).bmod (2 ^ 32)) ∧ (b = 0 → w = v))

/-- What the terminator, the pad, the bit-cursor reset and the sign bit leave unchanged: all of memory but the entry of the
grid that a sign bit negates, the header, `STATUS`, the transform's registers, the stream but for `btg` of a reset. -/
def Obligations.PassTokenFrame : Prop :=
  ∀ (i : Instr) (s t : State), exec i s = .next t →
    (i = .term ∨ i.slot = .pad ∨ i.slot = .align ∨ i.slot = .sgn) →
    SameHost s t ∧ SameScratch s t ∧ SameBuffer s t ∧ t.O = s.O ∧ t.A.size = s.A.size ∧
    (∀ a, (i.slot = .sgn → a ≠ s.gi) → t.A.readGrid a = s.A.readGrid a) ∧
    t.hdr = s.hdr ∧ t.status = s.status ∧ t.ht = s.ht ∧ t.written = s.written ∧
    t.input = s.input ∧ t.pos = s.pos ∧ t.buf = s.buf ∧ (i.slot ≠ .align → t.btg = s.btg ∧ t.stage = s.stage ∧ t.qt = s.qt) ∧
    (i.slot = .term ∨ i.slot = .pad → t.gi = s.gi) ∧
    (i.slot = .align → t.qt = { s.qt with q := t.qt.q })

/-- R146: `A[0]` is `sumall`, whatever it was, and no other entry changes. -/
def Obligations.SetDC : Prop :=
  ∀ s : State, At .setDC s → s.written.hdr = true → 0 < s.A.size →
    ∃ t, step s = .next t ∧ t.point = .undigitize ∧ t.A.readGrid 0 = .ok s.hdr.sumall ∧ t.A.size = s.A.size ∧
      (∀ i, i ≠ 0 → t.A.readGrid i = s.A.readGrid i) ∧ SameStream s t ∧ SameScratch s t ∧ t.hdr = s.hdr

/-! ### The early ends -/

/-- R233: the error action, and no further operation of the session runs. That the header registers and the stream cursor keep
what they hold is the model's reading (log entry 14). -/
def Obligations.RaiseAction : Prop :=
  ∀ (k : ErrKind) (s : State),
    let t := raise k s
    t.status = { s.status with state := .error, errKind := k, errStage := s.stage, errPos := s.pos } ∧
    t.phase = .error ∧ t.A = Bank.absent ∧ t.S = Bank.absent ∧ t.T = Bank.absent ∧ t.O = s.O ∧
    SameStream s t ∧ SameHost s t ∧ t.hdr = s.hdr ∧ (t.plan = [] → step t = .next t) ∧
    [ErrKind.none, .streamExhausted, .badMagicNumber, .badFormatCode, .badBitplaneTerminator].map ErrKind.code =
      [0, 1, 2, 3, 4]

/-- R238: the refusal action, and no further operation of the session runs. That the header registers and the stream cursor keep
what they hold is the model's reading (log entry 14). -/
def Obligations.RefuseAction : Prop :=
  ∀ (r : RefuseReason) (s : State),
    let t := refuse r s
    t.status = { s.status with state := .refused, refuseReason := r } ∧
    t.phase = .refused ∧ t.A = Bank.absent ∧ t.S = Bank.absent ∧ t.T = Bank.absent ∧ t.O = s.O ∧
    SameStream s t ∧ SameHost s t ∧ t.hdr = s.hdr ∧ (t.plan = [] → step t = .next t)

/-- R241, R67, R245: an ended session stays ended: only `START` and `RESET` change anything but the reply, and after `ERROR` or
`REFUSED` no output byte is given. What the memories and working registers hold then is the model's choice (log entries 14
and 17). -/
def Obligations.EndedStaysEnded : Prop :=
  ∀ (s t : State), s.point = .done ∨ s.point = .error ∨ s.point = .refused → step s = .next t →
    (∀ b r, s.plan ≠ .start b :: r) → (∀ r, s.plan ≠ .reset :: r) →
    t = { s with plan := t.plan, reply := t.reply } ∧
    (s.status.state ≠ .done → ∀ o, t.reply = some (.output o) → t.reply = s.reply)

/-! ### The host -/

/-- R261: an accepted `START`. -/
def Obligations.StartAccepted : Prop :=
  ∀ (bytes : List Byte) (rest : List HostMove) (s : State), s.plan = .start bytes :: rest → s.status.state ≠ .busy →
    bytes.length ≤ s.cfg.maxInput →
    ∃ t, step s = .next t ∧ t.input = bytes ∧ t.pos = 0 ∧ t.btg = 0 ∧ t.O = [] ∧
      t.status = { Status.reset with state := .busy } ∧ Status.reset.errKind.code = 0 ∧ t.phase = .header ∧
      t.point = .magic ∧ t.stage = .header ∧ t.plan = rest ∧ t.reply = some .accepted ∧ t.cfg = s.cfg ∧
      t.A = Bank.absent

/-- R246: a `START` while a session runs is answered `BUSY` and changes nothing. R245, R67: `READ_STATUS` gives a copy of `STATUS`,
`READ_OUTPUT` gives `O` exactly when `DONE`, and neither changes anything. -/
def Obligations.HostTransactions : Prop :=
  (∀ (bytes : List Byte) (rest : List HostMove) (s : State), s.plan = .start bytes :: rest → s.status.state = .busy →
    bytes.length ≤ s.cfg.maxInput →
    ∃ t, step s = .next t ∧ t.reply = some .busy ∧ t = { s with plan := rest, reply := t.reply }) ∧
  (∀ (rest : List HostMove) (s : State),
    (s.plan = .readStatus :: rest → step s = .next { s with plan := rest, reply := some (.status s.status) }) ∧
    (s.plan = .readOutput :: rest → s.status.state = .done →
      step s = .next { s with plan := rest, reply := some (.output s.O) }) ∧
    (s.plan = .readOutput :: rest → s.status.state ≠ .done →
      step s = .next { s with plan := rest, reply := some .noOutput }))

/-- R260, R39: the host's `RESET` puts every piece of state the spec gives a reset value at that value, whatever ran; after it
the core waits. -/
def Obligations.HostReset : Prop :=
  ∀ (rest : List HostMove) (s : State), s.plan = .reset :: rest →
    ∃ t, step s = .next t ∧ t.status.state = .idle ∧ t.phase = .idle ∧ t.status.errKind.code = 0 ∧
      t.status.errStage = .none ∧ t.status.errPos = 0 ∧ t.status.refuseReason = .none ∧ t.status.hdrNx = 0 ∧
      t.status.hdrNy = 0 ∧ t.status.hdrScale = 0 ∧ t.status.hdrSumall = 0 ∧ t.status.hdrNbp0 = 0 ∧ t.status.hdrNbp1 = 0 ∧
      t.status.hdrNbp2 = 0 ∧ t.status.hdrValid = false ∧ t.status.outLen = 0 ∧
      t.input = [] ∧ t.O = [] ∧ t.pos = 0 ∧ t.btg = 0 ∧ t.A.size = 0 ∧
      (rest = [] → step t = .next t)

/-- R39, R260: the values the spec gives for power-on reset. -/
def Obligations.ResetState : Prop :=
  let s := State.reset
  s.status.state = .idle ∧ s.status.errKind.code = 0 ∧ s.status.errPos = 0 ∧ s.status.errStage = .none ∧
  s.status.refuseReason = .none ∧ s.status.hdrNx = 0 ∧ s.status.hdrNy = 0 ∧ s.status.hdrScale = 0 ∧
  s.status.hdrSumall = 0 ∧ s.status.hdrNbp0 = 0 ∧ s.status.hdrNbp1 = 0 ∧ s.status.hdrNbp2 = 0 ∧
  s.status.hdrValid = false ∧ s.status.outLen = 0 ∧ s.phase = .idle ∧ s.input = [] ∧ s.pos = 0 ∧ s.btg = 0 ∧
  s.A.size = 0 ∧ s.O = []

/-! ### Undigitize and the inverse transform -/

/-- R200, R201, R202: every entry, `A[0]` included, is multiplied by a `scale` above 1, keeping the low 32 bits of the product as
two's complement; any other `scale` leaves the grid unchanged. -/
def Obligations.Undigitize : Prop :=
  ∀ s : State, At .undigitize s → s.written.hdr = true →
    ∃ t, step s = .next t ∧ t.point = .hinit ∧ t.A.size = s.A.size ∧ SameStream s t ∧
      (∀ i v, s.A.readGrid i = .ok v → ∃ w, t.A.readGrid i = .ok w ∧
        (1 < s.hdr.scale.toInt → w.toInt = (v.toInt * s.hdr.scale.toInt).bmod (2 ^ 32)) ∧
        (s.hdr.scale.toInt ≤ 1 → w = v))

/-- R11: `rnd(v, m)` for `m = 2^e`: its formula, and that it is the multiple of `m` nearest to `v`, ties away from zero, wherever
the rounding sum does not wrap. -/
def Obligations.RoundNearest : Prop :=
  ∀ (v : Word) (e : Nat), 1 ≤ e → e ≤ 30 →
    rnd v e = (v + (if 0 ≤ v.toInt then BitVec.ofNat 32 (2 ^ (e - 1)) else BitVec.ofNat 32 (2 ^ (e - 1)) - 1)) &&&
      -BitVec.ofNat 32 (2 ^ e) ∧
    (v.toInt + 2 ^ (e - 1) < 2 ^ 31 → (rnd v e).toInt =
      if 0 ≤ v.toInt then 2 ^ e * ((v.toInt + 2 ^ (e - 1)) / 2 ^ e) else -(2 ^ e * ((-v.toInt + 2 ^ (e - 1)) / 2 ^ e)))

/-- R171: the constants as the transform begins, and none of them overflows. R172: the DC value is rounded to a multiple of
`2^(log2n+1)` once, before the first level, and no other entry changes. -/
def Obligations.TransformBegins : Prop :=
  (∀ r : HtRegs, 1 ≤ r.log2n → r.log2n ≤ 29 →
    let c := initConstants r
    c.bit0.toInt = 2 ^ (r.log2n - 1) ∧ c.bit1.toInt = 2 ^ r.log2n ∧ c.bit2.toInt = 2 ^ (r.log2n + 1) ∧
    c.mask0.toInt = -2 ^ (r.log2n - 1) ∧ c.mask1.toInt = -2 ^ r.log2n ∧ c.mask2.toInt = -2 ^ (r.log2n + 1) ∧
    c.prnd0.toInt = 2 ^ (r.log2n - 1) / 2 ∧ c.prnd1.toInt = 2 ^ (r.log2n - 1) ∧ c.prnd2.toInt = 2 ^ r.log2n ∧
    c.nrnd0.toInt = 2 ^ (r.log2n - 1) / 2 - 1 ∧ c.nrnd1.toInt = 2 ^ (r.log2n - 1) - 1 ∧
    c.nrnd2.toInt = 2 ^ r.log2n - 1 ∧ c.shift.toInt = 1) ∧
  (∀ s : State, At .hinit s → s.written.hdr = true → 0 < s.A.size → 2 ≤ s.hdr.maxDim → s.hdr.maxDim ≤ 2 ^ 29 →
    ∃ t, step s = .next t ∧ t.point = .hlevel ∧ t.A.size = s.A.size ∧
      (∀ v, s.A.readGrid 0 = .ok v → t.A.readGrid 0 = .ok (rnd v (ceilLog2 s.hdr.maxDim + 1))) ∧
      (∀ i, i ≠ 0 → t.A.readGrid i = s.A.readGrid i) ∧ SameStream s t ∧ t.hdr = s.hdr ∧
      t.ht.levels = ceilLog2 s.hdr.maxDim ∧ t.ht = initConstants (initLoop s.hdr s.ht) ∧ t.T.size = ceilDiv s.hdr.maxDim 2)

/-- R173: the closed forms of the constants at every level, kept by every step of the session, and what they make of the two
roundings of a level. -/
def Obligations.TransformConstants : Prop :=
  (∀ s t : State, Sound s → ConstantsOk s → step s = .next t → ConstantsOk t) ∧
  (∀ (r : HtRegs) (k : Nat) (v : Word), k ≤ 28 → ConstantsFor r k →
    r.rnd1 v = rnd v (k + 1) ∧
    (1 ≤ k → r.nrnd0 = BitVec.ofNat 32 (2 ^ (k - 1)) - 1 → r.rnd0 v = rnd v k) ∧
    (k = 0 → r.nrnd0 = 0 → r.rnd0 v = v))

/-- R174: the recurrence of the level extents, its closed form at every level, and its ends. -/
def Obligations.LevelExtents : Prop :=
  (∀ r : HtRegs, (levelExtents r).c = r.c / 2 ∧
    (levelExtents r).nxtop = (if r.nxf ≤ r.c / 2 then 2 * r.nxtop - 1 else 2 * r.nxtop) ∧
    (levelExtents r).nxf = (if r.nxf ≤ r.c / 2 then r.nxf else r.nxf - r.c / 2) ∧
    (levelExtents r).nytop = (if r.nyf ≤ r.c / 2 then 2 * r.nytop - 1 else 2 * r.nytop) ∧
    (levelExtents r).nyf = (if r.nyf ≤ r.c / 2 then r.nyf else r.nyf - r.c / 2)) ∧
  (∀ (h : HdrRegs) (r : HtRegs), 1 ≤ h.rows → 1 ≤ h.cols → 2 ≤ h.maxDim →
    let n := ceilLog2 h.maxDim
    let e := fun k => levelExtents^[n - k] (initLoop h r)
    (∀ k, k ≤ n → (e k).nxtop = ceilDiv h.rows (2 ^ k) ∧ (e k).nytop = ceilDiv h.cols (2 ^ k)) ∧
    (e 0).nxtop = h.rows ∧ (e 0).nytop = h.cols ∧
    1 ≤ (e (n - 1)).nxtop ∧ (e (n - 1)).nxtop ≤ 2 ∧ 1 ≤ (e (n - 1)).nytop ∧ (e (n - 1)).nytop ≤ 2)

/-- R170, R183: the head of the level loop goes down one level, with the override of the last; after level 0 the pack phase
begins at index 0. R182: the halving after a level. -/
def Obligations.TransformLevels : Prop :=
  (∀ s : State, At .hlevel s → s.written.ht = true →
    (s.ht.levels = 0 → ∃ t, step s = .next t ∧ t.point = .pack ∧ t.gi = 0 ∧ SameMemory s t ∧ SameStream s t) ∧
    (s.ht.levels ≠ 0 → ∃ t, step s = .next t ∧ t.point = .unshuffle ∧ t.ht.k = s.ht.levels - 1 ∧
      t.ht.levels = s.ht.levels - 1 ∧ t.ht.nxtop = (levelExtents s.ht).nxtop ∧ t.ht.nytop = (levelExtents s.ht).nytop ∧
      t.ht.nrnd0 = (if t.ht.k = 0 then 0 else s.ht.nrnd0) ∧ t.ht.shift = (if t.ht.k = 0 then 2 else s.ht.shift) ∧
      SameMemory s t ∧ SameStream s t)) ∧
  (∀ s : State, At .halve s → s.written.ht = true → ∃ t, step s = .next t ∧ t.point = .hlevel ∧
    t.ht.bit2 = s.ht.bit1 ∧ t.ht.bit1 = s.ht.bit0 ∧ t.ht.bit0.toInt = s.ht.bit0.toInt / 2 ∧
    t.ht.mask1 = s.ht.mask0 ∧ t.ht.mask0.toInt = s.ht.mask0.toInt / 2 ∧
    t.ht.prnd1 = s.ht.prnd0 ∧ t.ht.prnd0.toInt = s.ht.prnd0.toInt / 2 ∧
    t.ht.nrnd1 = s.ht.nrnd0 ∧ t.ht.nrnd0 = t.ht.prnd0 - 1 ∧
    (s.ht.mask0 = -1 → t.ht.mask0 = -1) ∧ SameMemory s t ∧ SameStream s t)

/-- R175: the unshuffle of a line: the functional form on `L_old`, nothing outside the line written, and the second half saved
in `T`. -/
def Obligations.Unshuffle : Prop :=
  ∀ (base n stride : Nat) (a t : Bank 32), 0 < stride → (∀ i, i < n → base + stride * i < a.size) →
    n - (n + 1) / 2 ≤ t.size →
    ∃ a' t', unshuffle base n stride (a, t) = .ok (a', t') ∧ a'.size = a.size ∧ t'.size = t.size ∧
      (∀ i, i < (n + 1) / 2 → a'.readGrid (base + stride * (2 * i)) = a.readGrid (base + stride * i)) ∧
      (∀ i, i < n - (n + 1) / 2 →
        a'.readGrid (base + stride * (2 * i + 1)) = a.readGrid (base + stride * ((n + 1) / 2 + i))) ∧
      (∀ x, (∀ i, i < n → x ≠ base + stride * i) → a'.readGrid x = a.readGrid x) ∧
      (∀ i, i < n - (n + 1) / 2 → t'.readScratch i = a.readGrid (base + stride * ((n + 1) / 2 + i))) ∧
      (∀ i, n - (n + 1) / 2 ≤ i → t'.readScratch i = t.readScratch i)

/-- R176: the rows of the top-left `nxtop × nytop` block and then its columns: entry `(i, j)` comes from the source row of `i` and
the source column of `j`, and no entry outside the block is touched. R170: the step of the level loop does this to the grid of the
session, with its row stride and the extents of the level, goes on to the combine, and changes nothing but `A` and `T`. -/
def Obligations.UnshuffleLevel : Prop :=
  (∀ (ny nxtop nytop : Nat) (a t : Bank 32), nytop ≤ ny → nxtop * ny ≤ a.size → nxtop ≤ 2 * t.size →
    nytop ≤ 2 * t.size →
    ∃ m, unshuffleLevel ny nxtop nytop (a, t) = .ok m ∧ m.1.size = a.size ∧ m.2.size = t.size ∧
      (∀ i j, i < nxtop → j < nytop →
        m.1.readGrid (ny * i + j) = a.readGrid (ny * unshuffleSource nxtop i + unshuffleSource nytop j)) ∧
      (∀ x, (∀ i j, i < nxtop → j < nytop → x ≠ ny * i + j) → m.1.readGrid x = a.readGrid x)) ∧
  (∀ s : State, At .unshuffle s → s.written.hdr = true → s.written.ht = true → s.ht.nytop ≤ s.hdr.cols →
    s.ht.nxtop * s.hdr.cols ≤ s.A.size → s.ht.nxtop ≤ 2 * s.T.size → s.ht.nytop ≤ 2 * s.T.size →
    ∃ m, unshuffleLevel s.hdr.cols s.ht.nxtop s.ht.nytop (s.A, s.T) = .ok m ∧
      step s = .next (State.goto .combine { s with A := m.1, T := m.2 }))

/-- R177: the combine of a full block. -/
def Obligations.CombineBlock : Prop :=
  ∀ (ny s00 : Nat) (r : HtRegs) (a : Bank 32) (h0 hx hy hc : Word), 2 ≤ ny → s00 + ny + 1 < a.size →
    a.readGrid s00 = .ok h0 → a.readGrid (s00 + ny) = .ok hx → a.readGrid (s00 + 1) = .ok hy →
    a.readGrid (s00 + ny + 1) = .ok hc →
    let rnd1 := fun v : Word => (v + if 0 ≤ v.toInt then r.prnd1 else r.nrnd1) &&& r.mask1
    let rnd0 := fun v : Word => (v + if 0 ≤ v.toInt then r.prnd0 else r.nrnd0) &&& r.mask0
    let hc1 := rnd0 hc
    let low0 := hc1 &&& r.bit0
    let hx1 := if 0 ≤ (rnd1 hx).toInt then rnd1 hx - low0 else rnd1 hx + low0
    let hy1 := if 0 ≤ (rnd1 hy).toInt then rnd1 hy - low0 else rnd1 hy + low0
    let low1 := (hc1 ^^^ hx1 ^^^ hy1) &&& r.bit1
    let h1 := if 0 ≤ h0.toInt then h0 + low0 - low1 else h0 + if low0 = 0 then low1 else low0 - low1
    ∃ r' a', combineBlock ny s00 (r, a) = .ok (r', a') ∧ a'.size = a.size ∧
      a'.readGrid (s00 + ny + 1) = .ok ((h1 + hx1 + hy1 + hc1).sshiftRight r.shift.toNat) ∧
      a'.readGrid (s00 + ny) = .ok ((h1 + hx1 - hy1 - hc1).sshiftRight r.shift.toNat) ∧
      a'.readGrid (s00 + 1) = .ok ((h1 - hx1 + hy1 - hc1).sshiftRight r.shift.toNat) ∧
      a'.readGrid s00 = .ok ((h1 - hx1 - hy1 + hc1).sshiftRight r.shift.toNat) ∧
      (∀ x, x ≠ s00 → x ≠ s00 + 1 → x ≠ s00 + ny → x ≠ s00 + ny + 1 → a'.readGrid x = a.readGrid x) ∧
      r' = { r with h0 := h1, hx := hx1, hy := hy1, hc := hc1, lowbit0 := low0, lowbit1 := low1 }

/-- R178, R179, R180, R181: the edge formulas are the block's with the missing coefficients 0. -/
def Obligations.EdgesAreBlocks : Prop :=
  ∀ (r : HtRegs) (k : Nat), k ≤ 28 → ConstantsFor r k → (k ≠ 0 → r.nrnd0 = BitVec.ofNat 32 (2 ^ (k - 1)) - 1) →
    (k = 0 → r.nrnd0 = 0) →
    (let b := roundBlock { r with hy := 0, hc := 0 }
     let o := roundOddY r
     b.hc = 0 ∧ b.hy = 0 ∧ b.lowbit0 = 0 ∧ b.h0 + b.hx + b.hy + b.hc = o.h0 + o.hx ∧
       b.h0 - b.hx - b.hy + b.hc = o.h0 - o.hx) ∧
    (let b := roundBlock { r with hx := 0, hc := 0 }
     let o := roundOddX r
     b.hc = 0 ∧ b.hx = 0 ∧ b.lowbit0 = 0 ∧ b.h0 - b.hx + b.hy - b.hc = o.h0 + o.hy ∧
       b.h0 - b.hx - b.hy + b.hc = o.h0 - o.hy) ∧
    (let b := roundBlock { r with hx := 0, hy := 0, hc := 0 }
     b.h0 - b.hx - b.hy + b.hc = r.h0)

/-- R181: the blocks of a level are disjoint and each step works on its own: every entry of a block is what the block's own
step gives on the grid as it was before the level, no entry outside the top-left `nxtop × nytop` region changes, and of the
registers only the parities and the six of R177. R170: the step of the level loop does this to the grid and the registers of the
session, with its row stride, goes on to the halving, and changes nothing else. -/
def Obligations.CombineLevel : Prop :=
  (∀ (ny : Nat) (r : HtRegs) (a : Bank 32), r.nytop ≤ ny → r.nxtop * ny ≤ a.size →
    ∃ m, combineLevel ny (r, a) = .ok m ∧ m.2.size = a.size ∧
      m.1 = { r with
        oddx := r.nxtop % 2, oddy := r.nytop % 2, h0 := m.1.h0, hx := m.1.hx, hy := m.1.hy, hc := m.1.hc
        lowbit0 := m.1.lowbit0, lowbit1 := m.1.lowbit1 } ∧
      (∀ x, (∀ i j, i < r.nxtop → j < r.nytop → x ≠ ny * i + j) → m.2.readGrid x = a.readGrid x) ∧
      (∀ i j, i % 2 = 0 → j % 2 = 0 → i < r.nxtop → j < r.nytop →
        let s00 := ny * i + j
        (i + 1 < r.nxtop → j + 1 < r.nytop → ∃ b, combineBlock ny s00 (r, a) = .ok b ∧
          ∀ x ∈ [s00, s00 + 1, s00 + ny, s00 + ny + 1], m.2.readGrid x = b.2.readGrid x) ∧
        (i + 1 < r.nxtop → j + 1 = r.nytop → ∃ b, combineOddY ny s00 (r, a) = .ok b ∧
          ∀ x ∈ [s00, s00 + ny], m.2.readGrid x = b.2.readGrid x) ∧
        (i + 1 = r.nxtop → j + 1 < r.nytop → ∃ b, combineOddX s00 (r, a) = .ok b ∧
          ∀ x ∈ [s00, s00 + 1], m.2.readGrid x = b.2.readGrid x) ∧
        (i + 1 = r.nxtop → j + 1 = r.nytop → ∃ v, a.readGrid s00 = .ok v ∧
          m.2.readGrid s00 = .ok (v.sshiftRight r.shift.toNat)))) ∧
  (∀ s : State, At .combine s → s.written.hdr = true → s.written.ht = true → s.ht.nytop ≤ s.hdr.cols →
    s.ht.nxtop * s.hdr.cols ≤ s.A.size →
    ∃ m, combineLevel s.hdr.cols (s.ht, s.A) = .ok m ∧ step s = .next (State.goto .halve { s with ht := m.1, A := m.2 }))

/-! ### Packing -/

/-- R203, R204: from the start of the pack phase, the output is the low 16 bits of every entry, high byte first, in row-major
order, and the session ends `DONE` with `OUT_LEN = 2*nel`. That grid and stream are kept at `DONE` is the model's choice (log
entry 17). -/
def Obligations.PackAll : Prop :=
  ∀ s : State, At .pack s → s.gi = 0 → s.O = [] →
    ∃ t, runSteps (s.A.size + 1) s = .next t ∧ t.status.state = .done ∧ t.phase = .done ∧
      t.status.outLen = 2 * s.A.size ∧ t.O.length = 2 * s.A.size ∧
      (∀ i v, s.A.readGrid i = .ok v → ∃ hi lo : Byte, t.O[2 * i]? = some hi ∧ t.O[2 * i + 1]? = some lo ∧
        hi.toNat = v.toNat / 256 % 256 ∧ lo.toNat = v.toNat % 256) ∧
      SameGrid s t ∧ SameStream s t

/-! ### What every step keeps -/

/-- The three memories stay in canonical form (the form is the model's, log entry 2). -/
def Obligations.StepKeepsMemoryForm : Prop :=
  ∀ s t : State, Memory.wf s = true → step s = .next t → Memory.wf t = true

/-- R30, R32: `phase` and `STATUS.STATE` stay those of the position. -/
def Obligations.StepKeepsPosition : Prop :=
  ∀ s t : State, PositionOk s → step s = .next t → PositionOk t

/-- R22, R23, R107, R108: the cursor stays within its bounds, and the header is read byte by byte. -/
def Obligations.StepKeepsCursor : Prop :=
  ∀ s t : State, CursorOk s → step s = .next t → CursorOk t

/-- R28, R207, R209: no output before the pack phase, two bytes a pixel, `OUT_LEN` the length of `O` at `DONE` and 0 otherwise.
That the grid has its size at `DONE` is the model's choice (log entry 17). -/
def Obligations.StepKeepsOutput : Prop :=
  ∀ s t : State, PositionOk s → OutputOk s → step s = .next t → OutputOk t

/-- R33, R236, R237: at most one error or refusal is recorded, in the state it belongs to, and an error carries a stage its kind
may carry. -/
def Obligations.StepKeepsRecord : Prop :=
  ∀ s t : State, PositionOk s → StageOk s → RecordOk s → stageFits s.status.errKind s.status.errStage = true →
    step s = .next t → StageOk t ∧ RecordOk t ∧ stageFits t.status.errKind t.status.errStage = true

/-- R40, R60, R230: from a sound state no step faults, and the next state is sound; the only other outcome is the refusal of a
`START` the host may not make (the model's choice, log entry 7). -/
def Obligations.NoFault : Prop :=
  ∀ s : State, Sound s →
    (∃ t, step s = .next t ∧ Sound t) ∨
      (∃ b r, s.plan = .start b :: r ∧ s.cfg.maxInput < b.length ∧ step s = .refused .inputTooLong)

/-- R30, R22: a step of the engine advances the phase only to the next one in the sequence, or ends the session in `ERROR` or
`REFUSED`; the input stays, and `pos` only increases. R24, R25: once admitted, the header and the size of the grid stay while
the session runs on. R34: the header capture of `STATUS` is written by the last token of the header only, and nothing of
`STATUS` changes but there and where the session ends. R205: the output is written by the pack phase only. That
header and grid are there at `DONE` is the model's choice (log entry 17). -/
def Obligations.PhaseOrder : Prop :=
  ∀ s t : State, PositionOk s → s.plan = [] → step s = .next t →
    (t.phase = s.phase ∨ (s.phase ≠ .idle ∧ phaseAfter s.phase = some t.phase) ∨
      (s.status.state = .busy ∧ (t.phase = .error ∨ t.phase = .refused))) ∧
    t.input = s.input ∧ s.pos ≤ t.pos ∧ t.cfg = s.cfg ∧ (s.point ≠ .pack → t.O = s.O) ∧
    (s.point ≠ .nbp2 →
      t.status.hdrNx = s.status.hdrNx ∧ t.status.hdrNy = s.status.hdrNy ∧ t.status.hdrScale = s.status.hdrScale ∧
      t.status.hdrSumall = s.status.hdrSumall ∧ t.status.hdrNbp0 = s.status.hdrNbp0 ∧
      t.status.hdrNbp1 = s.status.hdrNbp1 ∧ t.status.hdrNbp2 = s.status.hdrNbp2 ∧
      t.status.hdrValid = s.status.hdrValid ∧ (t.status.state = s.status.state → t.status = s.status)) ∧
    (s.point ∉ [Point.idle, .magic, .nx, .ny, .scale, .sumall, .nbp0, .nbp1, .nbp2, .admitHdr] →
      t.hdr = s.hdr ∧ (t.status.state = .busy ∨ t.status.state = .done → t.A.size = s.A.size))

/-- The state after reset meets every invariant. -/
def Obligations.ResetInvariants : Prop :=
  Memory.wf State.reset = true ∧ PositionOk State.reset ∧ CursorOk State.reset ∧ OutputOk State.reset ∧
  RecordOk State.reset ∧ StageOk State.reset ∧
  stageFits State.reset.status.errKind State.reset.status.errStage = true ∧ Sound State.reset ∧ ConstantsOk State.reset

/-- R20, R208, R245: the engine neither reads nor writes the host's side, so what the host has read never alters the session.
R41: what an earlier session left never alters the next: after an accepted `START` of the same bytes under the same
parameters, any two machines take the same steps (that registers without a reset value start equal is the model's choice, log
entry 1). -/
def Obligations.SessionsAreDetermined : Prop :=
  (∀ (s t : State) (r : Option HostReply), s.plan = [] → step s = .next t → step { s with reply := r } = .next { t with reply := r }) ∧
  (∀ (bytes : List Byte) (rest : List HostMove) (s u : State), s.plan = .start bytes :: rest → u.plan = .start bytes :: rest →
    s.cfg = u.cfg → s.status.state ≠ .busy → u.status.state ≠ .busy → ∀ n, runSteps (n + 1) s = runSteps (n + 1) u)
end

