-- ==== Sys2Proof/Laws/Bank.lean ====
section
/-! SUPPORT. The banks: reading back a write, leaving every other entry alone, and keeping the canonical form. -/

namespace Sys2Proof.Machine

variable {w : Nat}

theorem cellsGet_put (i : Nat) (v : BitVec w) (m : List (Nat × BitVec w)) (j : Nat) :
    cellsGet (cellsPut i v m) j = if i = j then some v else cellsGet m j := by
  induction m with
  | nil => simp [cellsPut, cellsGet]
  | cons p rest ih =>
    obtain ⟨k, u⟩ := p
    by_cases h1 : i < k
    · simp [cellsPut, cellsGet, h1]
    · by_cases h2 : i = k
      · subst h2
        simp only [cellsPut, lt_irrefl, if_false, if_true, cellsGet]
        split <;> rfl
      · simp only [cellsPut, h1, h2, if_false, cellsGet, ih]
        by_cases h3 : k = j
        · subst h3; simp [h2]
        · simp [h3]

theorem cellsGet_drop (i : Nat) (m : List (Nat × BitVec w)) (j : Nat) :
    cellsGet (cellsDrop i m) j = if i = j then none else cellsGet m j := by
  induction m with
  | nil => simp [cellsDrop, cellsGet]
  | cons p rest ih =>
    obtain ⟨k, u⟩ := p
    by_cases h2 : k = i
    · subst h2
      simp only [cellsDrop, if_true, ih, cellsGet]
      split <;> rfl
    · simp only [cellsDrop, h2, if_false, cellsGet, ih]
      by_cases h3 : k = j
      · subst h3; simp [Ne.symm h2]
      · simp [h3]

theorem risingFrom_mono {m : List (Nat × BitVec w)} {a b : Nat} (hab : a ≤ b)
    (h : risingFrom b m = true) : risingFrom a m = true := by
  cases m with
  | nil => rfl
  | cons p rest =>
    simp only [risingFrom, Bool.and_eq_true, decide_eq_true_eq] at h ⊢
    exact ⟨le_trans hab h.1, h.2⟩

theorem risingFrom_put {m : List (Nat × BitVec w)} {lo i : Nat} {v : BitVec w} (hlo : lo ≤ i)
    (h : risingFrom lo m = true) : risingFrom lo (cellsPut i v m) = true := by
  induction m generalizing lo with
  | nil => simp [cellsPut, risingFrom, hlo]
  | cons p rest ih =>
    obtain ⟨k, u⟩ := p
    simp only [risingFrom, Bool.and_eq_true, decide_eq_true_eq] at h
    by_cases h1 : i < k
    · simp [cellsPut, h1, risingFrom, hlo, h.2]
    · by_cases h2 : i = k
      · subst h2; simp [cellsPut, risingFrom, hlo, h.2]
      · simp only [cellsPut, h1, h2, if_false, risingFrom, Bool.and_eq_true, decide_eq_true_eq]
        exact ⟨h.1, ih (by omega) h.2⟩

theorem risingFrom_drop {m : List (Nat × BitVec w)} {lo i : Nat}
    (h : risingFrom lo m = true) : risingFrom lo (cellsDrop i m) = true := by
  induction m generalizing lo with
  | nil => simp [cellsDrop, risingFrom]
  | cons p rest ih =>
    obtain ⟨k, u⟩ := p
    simp only [risingFrom, Bool.and_eq_true, decide_eq_true_eq] at h
    by_cases h2 : k = i
    · simp only [cellsDrop, h2, if_true]
      exact ih (risingFrom_mono (by omega) h.2)
    · simp only [cellsDrop, h2, if_false, risingFrom, Bool.and_eq_true, decide_eq_true_eq]
      exact ⟨h.1, ih h.2⟩

theorem mem_cellsPut {m : List (Nat × BitVec w)} {i : Nat} {v : BitVec w} {p : Nat × BitVec w}
    (h : p ∈ cellsPut i v m) : p = (i, v) ∨ p ∈ m := by
  induction m with
  | nil => simpa [cellsPut] using h
  | cons q rest ih =>
    obtain ⟨k, u⟩ := q
    by_cases h1 : i < k
    · simpa [cellsPut, h1] using h
    · by_cases h2 : i = k
      · simp only [cellsPut, h2, if_false, if_true, lt_irrefl, List.mem_cons] at h ⊢
        tauto
      · simp only [cellsPut, h1, h2, if_false, List.mem_cons] at h ⊢
        rcases h with h | h
        · tauto
        · have := ih h; tauto

theorem mem_cellsDrop {m : List (Nat × BitVec w)} {i : Nat} {p : Nat × BitVec w}
    (h : p ∈ cellsDrop i m) : p ∈ m := by
  induction m with
  | nil => simp [cellsDrop] at h
  | cons q rest ih =>
    obtain ⟨k, u⟩ := q
    by_cases h2 : k = i
    · simp only [cellsDrop, h2, if_true] at h
      exact List.mem_cons_of_mem _ (ih h)
    · simp only [cellsDrop, h2, if_false, List.mem_cons] at h ⊢
      rcases h with h | h
      · exact .inl h
      · exact .inr (ih h)

/-! ### The grid -/

/-- What an entry of the grid is, in bounds or not: the value every read of the grid gives. -/
def Bank.entry (b : Bank 32) (i : Nat) : Word := (cellsGet b.cells i).getD 0

theorem readGrid_eq (b : Bank 32) (i : Nat) :
    b.readGrid i = if i < b.size then .ok (b.entry i) else .error .indexOutOfBounds := rfl

theorem readGrid_ok {b : Bank 32} {i : Nat} (h : i < b.size) : b.readGrid i = .ok (b.entry i) := by
  simp [readGrid_eq, h]

/-- The grid after a write in bounds. -/
def Bank.setEntry (b : Bank 32) (i : Nat) (v : Word) : Bank 32 :=
  { b with cells := if v = 0 then cellsDrop i b.cells else cellsPut i v b.cells }

theorem writeGrid_eq (b : Bank 32) (i : Nat) (v : Word) :
    b.writeGrid i v = if i < b.size then .ok (b.setEntry i v) else .error .indexOutOfBounds := rfl

theorem writeGrid_ok {b : Bank 32} {i : Nat} {v : Word} (h : i < b.size) :
    b.writeGrid i v = .ok (b.setEntry i v) := by simp [writeGrid_eq, h]

@[simp] theorem setEntry_size (b : Bank 32) (i : Nat) (v : Word) : (b.setEntry i v).size = b.size := rfl

/-- Reading the grid after a write: the value written at its index, the old value everywhere else. -/
theorem entry_setEntry (b : Bank 32) (i : Nat) (v : Word) (j : Nat) :
    (b.setEntry i v).entry j = if i = j then v else b.entry j := by
  unfold Bank.setEntry Bank.entry
  by_cases hv : v = 0
  · subst hv
    simp only [if_true, cellsGet_drop]
    split <;> simp
  · simp only [hv, if_false, cellsGet_put]
    split <;> simp

@[simp] theorem entry_setEntry_same (b : Bank 32) (i : Nat) (v : Word) : (b.setEntry i v).entry i = v := by
  simp [entry_setEntry]

theorem entry_setEntry_other {b : Bank 32} {i j : Nat} {v : Word} (h : i ≠ j) :
    (b.setEntry i v).entry j = b.entry j := by simp [entry_setEntry, h]

@[simp] theorem entry_alloc (n i : Nat) : (Bank.alloc n : Bank 32).entry i = 0 := rfl

@[simp] theorem alloc_size (n : Nat) : (Bank.alloc n : Bank w).size = n := rfl

@[simp] theorem absent_size : (Bank.absent : Bank w).size = 0 := rfl

theorem writeGrid_size {b c : Bank 32} {i : Nat} {v : Word} (h : b.writeGrid i v = .ok c) :
    c.size = b.size := by
  rw [writeGrid_eq] at h
  split at h
  · cases h; rfl
  · cases h

theorem wf_alloc (n : Nat) : (Bank.alloc n : Bank w).wf = true := rfl

theorem gridWf_alloc (n : Nat) : (Bank.alloc n : Bank 32).gridWf = true := rfl

theorem wf_absent : (Bank.absent : Bank w).wf = true := rfl

theorem gridWf_absent : (Bank.absent : Bank 32).gridWf = true := rfl

/-- A write keeps the grid's canonical form. -/
theorem writeGrid_keeps_wf {b c : Bank 32} {i : Nat} {v : Word} (hb : b.gridWf = true)
    (h : b.writeGrid i v = .ok c) : c.gridWf = true := by
  rw [writeGrid_eq] at h
  split at h
  · rename_i hi
    cases h
    simp only [Bank.gridWf, Bank.wf, Bank.setEntry, Bool.and_eq_true, List.all_eq_true, decide_eq_true_eq] at hb ⊢
    obtain ⟨⟨h1, h2⟩, h3⟩ := hb
    by_cases hv : v = 0
    · simp only [hv, if_true]
      exact ⟨⟨risingFrom_drop h1, fun p hp => decide_eq_true (h2 p (mem_cellsDrop hp))⟩, fun p hp => h3 p (mem_cellsDrop hp)⟩
    · simp only [hv, if_false]
      refine ⟨⟨risingFrom_put (Nat.zero_le _) h1, fun p hp => ?_⟩, fun p hp => ?_⟩
      · rcases mem_cellsPut hp with rfl | hp
        · exact decide_eq_true hi
        · exact decide_eq_true (h2 p hp)
      · rcases mem_cellsPut hp with rfl | hp
        · exact hv
        · exact h3 p hp
  · cases h

/-! ### The scratches -/

theorem readScratch_ok {b : Bank w} {i : Nat} (hi : i < b.size) (h : (cellsGet b.cells i).isSome = true) :
    ∃ v, b.readScratch i = .ok v ∧ cellsGet b.cells i = some v := by
  obtain ⟨v, hv⟩ := Option.isSome_iff_exists.mp h
  exact ⟨v, by simp [Bank.readScratch, hi, hv], hv⟩

/-- A scratch after a write in bounds. -/
def Bank.putEntry (b : Bank w) (i : Nat) (v : BitVec w) : Bank w := { b with cells := cellsPut i v b.cells }

@[simp] theorem putEntry_size (b : Bank w) (i : Nat) (v : BitVec w) : (b.putEntry i v).size = b.size := rfl

theorem writeScratch_ok {b : Bank w} {i : Nat} {v : BitVec w} (h : i < b.size) :
    b.writeScratch i v = .ok (b.putEntry i v) := by simp [Bank.writeScratch, h, Bank.putEntry]

theorem writeScratch_eq (b : Bank w) (i : Nat) (v : BitVec w) :
    b.writeScratch i v = if i < b.size then .ok (b.putEntry i v) else .error .indexOutOfBounds := rfl

theorem get_putEntry (b : Bank w) (i : Nat) (v : BitVec w) (j : Nat) :
    cellsGet (b.putEntry i v).cells j = if i = j then some v else cellsGet b.cells j :=
  cellsGet_put i v b.cells j

/-- A write keeps a scratch's canonical form. -/
theorem writeScratch_keeps_wf {b c : Bank w} {i : Nat} {v : BitVec w} (hb : b.wf = true)
    (h : b.writeScratch i v = .ok c) : c.wf = true := by
  rw [writeScratch_eq] at h
  split at h
  · rename_i hi
    cases h
    simp only [Bank.wf, Bank.putEntry, Bool.and_eq_true, List.all_eq_true, decide_eq_true_eq] at hb ⊢
    refine ⟨risingFrom_put (Nat.zero_le _) hb.1, fun p hp => ?_⟩
    rcases mem_cellsPut hp with rfl | hp
    · exact decide_eq_true hi
    · exact decide_eq_true (hb.2 p hp)
  · cases h

theorem writeScratch_size {b c : Bank w} {i : Nat} {v : BitVec w} (h : b.writeScratch i v = .ok c) :
    c.size = b.size := by
  rw [writeScratch_eq] at h
  split at h
  · cases h; rfl
  · cases h

/-! ### Loops -/

/-- A loop keeps what each of its rounds keeps. -/
theorem forEach_keeps {α : Type} {f : Nat → α → Except Fault α} {P : α → Prop} {is : List Nat}
    (hf : ∀ i, i ∈ is → ∀ a b, P a → f i a = .ok b → P b) {a b : α} (ha : P a) (h : forEach f is a = .ok b) : P b := by
  induction is generalizing a with
  | nil => cases h; exact ha
  | cons i is ih =>
    simp only [forEach] at h
    cases hfi : f i a with
    | error e => simp [hfi] at h
    | ok c =>
      simp only [hfi] at h
      exact ih (fun j hj => hf j (List.mem_cons_of_mem _ hj)) (hf i (List.mem_cons_self ..) a c ha hfi) h

/-- A loop ends without a fault when each of its rounds does, from what the rounds keep. -/
theorem forEach_ok {α : Type} {f : Nat → α → Except Fault α} {P : α → Prop} {is : List Nat}
    (hf : ∀ i, i ∈ is → ∀ a, P a → ∃ b, f i a = .ok b ∧ P b) {a : α} (ha : P a) :
    ∃ b, forEach f is a = .ok b ∧ P b := by
  induction is generalizing a with
  | nil => exact ⟨a, rfl, ha⟩
  | cons i is ih =>
    obtain ⟨b, hb, hP⟩ := hf i (List.mem_cons_self ..) a ha
    obtain ⟨c, hc, hPc⟩ := ih (fun j hj => hf j (List.mem_cons_of_mem _ hj)) hP
    exact ⟨c, by simp [forEach, hb, hc], hPc⟩

theorem forEach_append {α : Type} (f : Nat → α → Except Fault α) (is js : List Nat) (a : α) :
    forEach f (is ++ js) a =
      match forEach f is a with
      | .ok b => forEach f js b
      | .error e => .error e := by
  induction is generalizing a with
  | nil => rfl
  | cons i is ih =>
    simp only [List.cons_append, forEach]
    cases f i a with
    | error e => rfl
    | ok b => exact ih b

/-- A loop over `0 .. n-1` ends without a fault when each round does, from what holds after so many rounds. -/
theorem forEach_range_ok {α : Type} {f : Nat → α → Except Fault α} {P : Nat → α → Prop} (n : Nat)
    (hf : ∀ i, i < n → ∀ a, P i a → ∃ b, f i a = .ok b ∧ P (i + 1) b) {a : α} (ha : P 0 a) :
    ∃ b, forEach f (List.range n) a = .ok b ∧ P n b := by
  induction n with
  | zero => exact ⟨a, rfl, ha⟩
  | succ n ih =>
    obtain ⟨b, hb, hP⟩ := ih (fun i hi => hf i (by omega))
    obtain ⟨c, hc, hPc⟩ := hf n (by omega) b hP
    refine ⟨c, ?_, hPc⟩
    rw [List.range_succ, forEach_append, hb]
    simp [forEach, hc]

/-- A loop over `n-1 .. 0` ends without a fault when each round does, from what holds with so many rounds to go. -/
theorem forEach_down_ok {α : Type} {f : Nat → α → Except Fault α} {P : Nat → α → Prop} (n : Nat)
    (hf : ∀ i, i < n → ∀ a, P (i + 1) a → ∃ b, f i a = .ok b ∧ P i b) {a : α} (ha : P n a) :
    ∃ b, forEach f (List.range n).reverse a = .ok b ∧ P 0 b := by
  induction n generalizing a with
  | zero => exact ⟨a, rfl, ha⟩
  | succ n ih =>
    obtain ⟨b, hb, hP⟩ := hf n (by omega) a ha
    obtain ⟨c, hc, hPc⟩ := ih (fun i hi => hf i (by omega)) hP
    refine ⟨c, ?_, hPc⟩
    rw [List.range_succ, List.reverse_append]
    simp [forEach, hb, hc]

end Sys2Proof.Machine
end

