-- ==== Sys2Proof/Laws/Operands.lean ====
section
/-! SUPPORT. Dimension arithmetic: ceiling division, `ceil_log2`, and the closed form of the extent recurrence (R8, R9, R139, R174). -/

namespace Sys2Proof.Machine

open Sys2Proof.Safety

/-! ### Ceiling division -/

/-- `ceil_div` is the number `e` with `(e-1)*m < n ≤ e*m`. -/
theorem ceilDiv_eq {n m e : Nat} (hm : 0 < m) (hn : 0 < n) (h1 : (e - 1) * m < n) (h2 : n ≤ e * m) :
    ceilDiv n m = e := by
  have he : 0 < e := Nat.pos_of_ne_zero (fun h => by subst h; omega)
  obtain ⟨d, rfl⟩ : ∃ d, e = d + 1 := ⟨e - 1, by omega⟩
  unfold ceilDiv
  have h3 : d * m < n := by simpa using h1
  have h4 : n ≤ d * m + m := by rw [Nat.add_mul] at h2; omega
  apply Nat.div_eq_of_lt_le
  · rw [Nat.add_mul]; omega
  · rw [Nat.add_mul, Nat.add_mul]; omega

theorem ceilDiv_le_mul {n m : Nat} (hm : 0 < m) : n ≤ ceilDiv n m * m := by
  unfold ceilDiv
  have := Nat.div_add_mod (n + m - 1) m
  have := Nat.mod_lt (n + m - 1) hm
  rw [Nat.mul_comm]
  omega

theorem ceilDiv_pred_mul_lt {n m : Nat} (hm : 0 < m) (hn : 0 < n) : (ceilDiv n m - 1) * m < n := by
  unfold ceilDiv
  have h1 : (n + m - 1) / m * m ≤ n + m - 1 := Nat.div_mul_le_self _ _
  rw [Nat.sub_mul]
  omega

theorem ceilDiv_pos {n m : Nat} (hm : 0 < m) (hn : 0 < n) : 0 < ceilDiv n m := by
  have := ceilDiv_le_mul (n := n) hm
  rcases Nat.eq_zero_or_pos (ceilDiv n m) with h | h
  · rw [h] at this; omega
  · exact h

@[simp] theorem ceilDiv_one (n : Nat) : ceilDiv n 1 = n := by simp [ceilDiv]

@[simp] theorem ceilDiv_zero (m : Nat) (hm : 0 < m) : ceilDiv 0 m = 0 := by
  unfold ceilDiv
  exact Nat.div_eq_of_lt (by omega)

theorem ceilDiv_le_self {n m : Nat} (hm : 0 < m) : ceilDiv n m ≤ n := by
  rcases Nat.eq_zero_or_pos n with rfl | hn
  · simp [hm]
  · have h := ceilDiv_pred_mul_lt hm hn
    have : ceilDiv n m - 1 ≤ (ceilDiv n m - 1) * m := Nat.le_mul_of_pos_right _ hm
    omega

theorem ceilDiv_two (n : Nat) : ceilDiv n 2 = (n + 1) / 2 := rfl

theorem ceilDiv_eq_one {n m : Nat} (hn : 0 < n) (h : n ≤ m) : ceilDiv n m = 1 :=
  ceilDiv_eq (by omega) hn (by omega) (by omega)

/-- Halving the extent is halving the divisor's size: the recurrence behind R139 and R174. -/
theorem ceilDiv_halve (n d : Nat) : ceilDiv (ceilDiv n (2 ^ d)) 2 = ceilDiv n (2 ^ (d + 1)) := by
  have hp : 0 < 2 ^ d := Nat.two_pow_pos d
  rcases Nat.eq_zero_or_pos n with rfl | hn
  · rw [ceilDiv_zero _ hp, ceilDiv_zero _ (Nat.two_pow_pos _), ceilDiv_zero _ (by omega)]
  · have he := ceilDiv_pos hp hn
    have h1 := ceilDiv_le_mul (n := n) hp
    have h2 := ceilDiv_pred_mul_lt hp hn
    symm
    apply ceilDiv_eq (Nat.two_pow_pos _) hn
    · have hle : (ceilDiv (ceilDiv n (2 ^ d)) 2 - 1) * 2 ≤ ceilDiv n (2 ^ d) - 1 := by rw [ceilDiv_two]; omega
      calc (ceilDiv (ceilDiv n (2 ^ d)) 2 - 1) * 2 ^ (d + 1)
          = (ceilDiv (ceilDiv n (2 ^ d)) 2 - 1) * 2 * 2 ^ d := by rw [Nat.pow_succ]; ring
        _ ≤ (ceilDiv n (2 ^ d) - 1) * 2 ^ d := Nat.mul_le_mul_right _ hle
        _ < n := h2
    · have hle : ceilDiv n (2 ^ d) ≤ ceilDiv (ceilDiv n (2 ^ d)) 2 * 2 := by rw [ceilDiv_two]; omega
      calc n ≤ ceilDiv n (2 ^ d) * 2 ^ d := h1
        _ ≤ ceilDiv (ceilDiv n (2 ^ d)) 2 * 2 * 2 ^ d := Nat.mul_le_mul_right _ hle
        _ = _ := by rw [Nat.pow_succ]; ring

/-! ### `ceil_log2` -/

theorem ceilLog2From_spec (n : Nat) : ∀ fuel l, n ≤ 2 ^ (l + fuel) →
    n ≤ 2 ^ ceilLog2From n fuel l ∧ l ≤ ceilLog2From n fuel l ∧
      (ceilLog2From n fuel l = l ∨ 2 ^ (ceilLog2From n fuel l - 1) < n) := by
  intro fuel
  induction fuel with
  | zero => intro l h; exact ⟨h, le_refl _, .inl rfl⟩
  | succ fuel ih =>
    intro l h
    unfold ceilLog2From
    by_cases h1 : n ≤ 2 ^ l
    · simp [h1]
    · simp only [h1, if_false]
      obtain ⟨a, b, c⟩ := ih (l + 1) (by rwa [Nat.add_right_comm])
      refine ⟨a, by omega, .inr ?_⟩
      rcases c with c | c
      · rw [c]; simpa using Nat.lt_of_not_le h1
      · exact c

theorem le_two_pow_self (n : Nat) : n ≤ 2 ^ n := Nat.le_of_lt Nat.lt_two_pow_self

/-- `n ≤ 2^ceil_log2(n)` (R9). -/
theorem le_two_pow_ceilLog2 (n : Nat) : n ≤ 2 ^ ceilLog2 n :=
  (ceilLog2From_spec n n 0 (by simpa using le_two_pow_self n)).1

/-- `ceil_log2(n)` is the smallest such exponent (R9). -/
theorem ceilLog2_le {n l : Nat} (h : n ≤ 2 ^ l) : ceilLog2 n ≤ l := by
  rcases (ceilLog2From_spec n n 0 (by simpa using le_two_pow_self n)).2.2 with h1 | h1
  · unfold ceilLog2; omega
  · have h2 : 2 ^ (ceilLog2 n - 1) < 2 ^ l := lt_of_lt_of_le h1 h
    have := (Nat.pow_lt_pow_iff_right (by omega : 1 < 2)).mp h2
    omega

theorem ceilLog2_pos {n : Nat} (h : 2 ≤ n) : 0 < ceilLog2 n := by
  have h1 := le_two_pow_ceilLog2 n
  rcases Nat.eq_zero_or_pos (ceilLog2 n) with h2 | h2
  · rw [h2] at h1; omega
  · exact h2

theorem ceilLog2_one : ceilLog2 1 = 0 := rfl

/-! ### The extent recurrence -/

/-- At the start of a recurrence one step of `c = 2^L` covers `n`. -/
theorem extentAt_init {n L : Nat} (hn : 0 < n) (h : n ≤ 2 ^ L) : ExtentAt n L (2 ^ L) 1 n :=
  ⟨rfl, (ceilDiv_eq_one hn h).symm, by simp⟩

/-- One step of the recurrence halves the divisor (R139, R174). -/
theorem extentAt_step {n d c e f : Nat} (hn : 0 < n) (h : ExtentAt n (d + 1) c e f) :
    ExtentAt n d (c / 2) (stepExtent (c / 2) e f).1 (stepExtent (c / 2) e f).2 := by
  obtain ⟨hc, he, hf⟩ := h
  have hp : 0 < 2 ^ d := Nat.two_pow_pos d
  have hc2 : c / 2 = 2 ^ d := by rw [hc, Nat.pow_succ]; omega
  have hpos : 0 < e := he ▸ ceilDiv_pos (Nat.two_pow_pos _) hn
  have hlt : (e - 1) * 2 ^ (d + 1) < n := he ▸ ceilDiv_pred_mul_lt (Nat.two_pow_pos _) hn
  have hle : n ≤ e * 2 ^ (d + 1) := he ▸ ceilDiv_le_mul (Nat.two_pow_pos _)
  obtain ⟨g, rfl⟩ : ∃ g, e = g + 1 := ⟨e - 1, by omega⟩
  have hk : g * 2 ^ (d + 1) = (2 * g) * 2 ^ d := by rw [Nat.pow_succ]; ring
  have hk1 : (g + 1) * 2 ^ (d + 1) = (2 * g) * 2 ^ d + 2 * 2 ^ d := by rw [Nat.pow_succ]; ring
  have e1 : (2 * g + 1) * 2 ^ d = (2 * g) * 2 ^ d + 2 ^ d := by ring
  have e2 : (2 * (g + 1)) * 2 ^ d = (2 * g) * 2 ^ d + 2 * 2 ^ d := by ring
  simp only [Nat.add_sub_cancel] at hf hlt
  refine ⟨hc2, ?_, ?_⟩ <;> rw [hc2] <;> unfold stepExtent <;> by_cases hfc : f ≤ 2 ^ d
  · simp only [hfc, if_true]
    rw [show 2 * (g + 1) - 1 = 2 * g + 1 by omega]
    symm
    apply ceilDiv_eq hp hn
    · rw [Nat.add_sub_cancel]; omega
    · omega
  · simp only [hfc, if_false]
    symm
    apply ceilDiv_eq hp hn
    · rw [show 2 * (g + 1) - 1 = 2 * g + 1 by omega]; omega
    · omega
  · simp only [hfc, if_true]
    rw [show 2 * (g + 1) - 1 - 1 = 2 * g by omega]; omega
  · simp only [hfc, if_false]
    rw [show 2 * (g + 1) - 1 = 2 * g + 1 by omega]; omega

/-! ### Even indices -/

theorem mem_evensBelow {m i : Nat} : i ∈ evensBelow m ↔ i % 2 = 0 ∧ i < m := by
  unfold evensBelow
  rw [ceilDiv_two]
  simp only [List.mem_map, List.mem_range]
  constructor
  · rintro ⟨a, ha, rfl⟩; omega
  · rintro ⟨h1, h2⟩; exact ⟨i / 2, by omega, by omega⟩

/-! ### Admitted headers -/

/-- What admission says of the dimensions (R131). -/
theorem admission_none {cfg : Config.Params} {h : HdrRegs} (ha : admission cfg h = none) :
    0 < h.rows ∧ 0 < h.cols ∧ 2 ≤ h.maxDim ∧ h.maxDim ≤ 2 ^ 29 ∧ h.rows * h.cols ≤ cfg.gridCapacity ∧
      h.nbp0.toNat ≤ 32 ∧ h.nbp1.toNat ≤ 32 ∧ h.nbp2.toNat ≤ 32 := by
  unfold admission at ha
  split at ha
  · cases ha
  · rename_i h1
    split at ha
    · cases ha
    · rename_i h2
      split at ha
      · cases ha
      · rename_i h3
        simp only [not_or, Int.not_lt, Nat.not_lt, Config.maxDim, Config.maxBitplanes] at h1 h2 h3
        refine ⟨?_, ?_, h1.2.2.1, h1.2.2.2, h2, h3.1, h3.2.1, h3.2.2⟩
        · unfold HdrRegs.rows; have := h1.1; omega
        · unfold HdrRegs.cols; have := h1.2.1; omega

end Sys2Proof.Machine
end

