-- ==== Sys2Proof/Laws/BitReader.lean ====
section
/-! SUPPORT. What reading the stream can do: it moves the cursor and nothing else, it delivers the bits the stream holds in order (R106), and it ends early only at the end of the input (R100). -/

namespace Sys2Proof.Machine

open Sys2Proof.Safety

/-- `P` holds of what a read gives, `Q` of the state in which it ends early. -/
def Read.All {α : Type} (P : α → State → Prop) (Q : State → Prop) : Read α → Prop
  | .got a s => P a s
  | .exhausted s => Q s

theorem Read.All.andThen {α β : Type} {r : Read α} {f : α → State → Read β} {P : α → State → Prop}
    {P' : β → State → Prop} {Q : State → Prop} (hr : r.All P Q) (hf : ∀ a s, P a s → (f a s).All P' Q) :
    (r.andThen f).All P' Q := by
  cases r with
  | got a s => exact hf a s hr
  | exhausted s => exact hr

theorem Read.All.mono {α : Type} {r : Read α} {P P' : α → State → Prop} {Q Q' : State → Prop}
    (hr : r.All P Q) (hp : ∀ a s, P a s → P' a s) (hq : ∀ s, Q s → Q' s) : r.All P' Q' := by
  cases r with
  | got a s => exact hp a s hr
  | exhausted s => exact hq s hr

/-- `t` is `s` with the cursor moved on. -/
structure Moved (s t : State) : Prop where
  same : t = { s with pos := t.pos, buf := t.buf, btg := t.btg }
  forward : s.pos ≤ t.pos
  inside : s.pos ≤ s.input.length → t.pos ≤ s.input.length
  live : s.btg ≤ 7 → t.btg ≤ 7

theorem Moved.refl (s : State) : Moved s s := ⟨rfl, le_refl _, id, id⟩

theorem Moved.input_eq {s t : State} (h : Moved s t) : t.input = s.input := by rw [h.same]

theorem Moved.trans {s t u : State} (h : Moved s t) (h' : Moved t u) : Moved s u where
  same := by
    have e := h'.same
    rw [h.same] at e
    exact e
  forward := le_trans h.forward h'.forward
  inside hs := by
    have := h'.inside (h.input_eq ▸ h.inside hs)
    rwa [h.input_eq] at this
  live hs := h'.live (h.live hs)

/-- Where a read ends early: the cursor may have moved, and no byte is left. -/
def EndedAt (s t : State) : Prop := Moved s t ∧ s.input.length ≤ t.pos

theorem EndedAt.after {s t u : State} (h : Moved s t) (h' : EndedAt t u) : EndedAt s u :=
  ⟨h.trans h'.1, h.input_eq ▸ h'.2⟩

theorem nextByte_all (s : State) :
    (nextByte s).All (fun _ t => Moved s t ∧ t.pos = s.pos + 1 ∧ t.btg = s.btg) (fun t => t = s ∧ EndedAt s t) := by
  unfold nextByte
  split
  · rename_i v h
    have hlt : s.pos < s.input.length := by
      by_contra hc
      rw [List.getElem?_eq_none (by omega)] at h
      cases h
    exact ⟨⟨rfl, Nat.le_succ _, fun _ => hlt, id⟩, rfl, rfl⟩
  · rename_i h
    exact ⟨rfl, Moved.refl s, by simpa using h⟩

theorem nextByte_moves (s : State) : (nextByte s).All (fun _ t => Moved s t) (EndedAt s) :=
  (nextByte_all s).mono (fun _ _ h => h.1) (fun _ h => h.2)

/-- A read that follows another. -/
theorem Read.All.chain {α β : Type} {r : Read α} {f : α → State → Read β} {s : State}
    (hr : r.All (fun _ t => Moved s t) (EndedAt s))
    (hf : ∀ a t, (f a t).All (fun _ u => Moved t u) (EndedAt t)) :
    (r.andThen f).All (fun _ t => Moved s t) (EndedAt s) :=
  hr.andThen fun a t ht => (hf a t).mono (fun _ _ h => ht.trans h) (fun _ h => EndedAt.after ht h)

theorem nextInt32BE_moves (s : State) : (nextInt32BE s).All (fun _ t => Moved s t) (EndedAt s) :=
  (nextByte_moves s).chain fun _ s => (nextByte_moves s).chain fun _ s => (nextByte_moves s).chain fun _ s =>
    (nextByte_moves s).chain fun _ s => Moved.refl s

theorem nextBit_moves (s : State) : (nextBit s).All (fun _ t => Moved s t) (EndedAt s) := by
  unfold nextBit
  split
  · refine (nextByte_moves s).andThen fun v t ht => ?_
    exact ht.trans ⟨rfl, le_refl _, id, fun _ => le_refl _⟩
  · exact ⟨rfl, le_refl _, id, fun h => by show s.btg - 1 ≤ 7; omega⟩

theorem nextBits_moves {n : Nat} (hn : 1 ≤ n) (s : State) :
    (nextBits n s).All (fun _ t => Moved s t) (EndedAt s) := by
  unfold nextBits
  split
  · rename_i h
    refine ((nextByte_all s).mono (fun _ _ h => h) (fun _ h => h.2)).andThen fun v t ht => ?_
    refine ht.1.trans ⟨rfl, le_refl _, id, fun _ => ?_⟩
    show t.btg + 8 - n ≤ 7
    rw [ht.2.2]; omega
  · exact ⟨rfl, le_refl _, id, fun h => by show s.btg - n ≤ 7; omega⟩

theorem moreCode_moves (c : Nat) (s : State) : (moreCode c s).All (fun _ t => Moved s t) (EndedAt s) :=
  (nextBit_moves s).chain fun _ s => Moved.refl s

theorem readCodeword_moves (s : State) : (readCodeword s).All (fun _ t => Moved s t) (EndedAt s) := by
  refine (nextBits_moves (by omega) s).chain fun c s => ?_
  split
  · exact Moved.refl s
  refine (moreCode_moves _ s).chain fun c s => ?_
  split
  · exact Moved.refl s
  refine (moreCode_moves _ s).chain fun c s => ?_
  split
  · exact Moved.refl s
  exact (moreCode_moves _ s).chain fun c s => Moved.refl s

/-- Reading the token of any place moves the cursor and nothing else, and ends early only at the end of the input. -/
theorem readToken_moves (k : Slot) (s : State) : (readToken k s).All (fun _ t => Moved s t) (EndedAt s) := by
  have h8 : ∀ s, (readCount s).All (fun _ t => Moved s t) (EndedAt s) :=
    fun s => (nextByte_moves s).chain fun _ s => Moved.refl s
  have h32 : ∀ s, (readInt32 s).All (fun _ t => Moved s t) (EndedAt s) :=
    fun s => (nextInt32BE_moves s).chain fun _ s => Moved.refl s
  have h4 : ∀ s, (readNybble s).All (fun _ t => Moved s t) (EndedAt s) :=
    fun s => (nextBits_moves (by omega) s).chain fun _ s => Moved.refl s
  cases k with
  | magic => exact (nextByte_moves s).chain fun _ s => (nextByte_moves s).chain fun _ s => Moved.refl s
  | nx => exact h32 s
  | ny => exact h32 s
  | scale => exact h32 s
  | sumall => exact h32 s
  | nbp0 => exact h8 s
  | nbp1 => exact h8 s
  | nbp2 => exact h8 s
  | fmt => exact h4 s
  | nyb => exact h4 s
  | huf => exact readCodeword_moves s
  | term => exact h4 s
  | sgn => exact (nextBit_moves s).chain fun _ s => Moved.refl s
  | pad => exact Moved.refl s
  | align => exact Moved.refl s

/-! ### What is read is a token -/

/-- The value `c` of a codeword and its length, as the tests of R120 leave them. -/
def IsCodeword (p : Nat × Nat) : Prop :=
  (p.1 = 3 ∧ p.2 < 4) ∨ (p.1 = 4 ∧ 8 ≤ p.2 ∧ p.2 < 13) ∨ (p.1 = 5 ∧ 26 ≤ p.2 ∧ p.2 < 31) ∨
    (p.1 = 6 ∧ 62 ≤ p.2 ∧ p.2 < 64)

theorem moreCode_range (c : Nat) (s : State) :
    (moreCode c s).All (fun d _ => 2 * c ≤ d ∧ d ≤ 2 * c + 1) (fun _ => True) := by
  unfold moreCode
  have h : (nextBit s).All (fun _ _ => True) (fun _ => True) := by
    cases nextBit s <;> exact trivial
  refine h.andThen fun b t _ => ?_
  show 2 * c ≤ 2 * c + b.toNat ∧ 2 * c + b.toNat ≤ 2 * c + 1
  cases b <;> simp

/-- `decodeHuffman`'s maps are total on the ranges its tests leave (R120). -/
theorem readCodeword_isCodeword (s : State) :
    (readCodeword s).All (fun p _ => IsCodeword p) (fun _ => True) := by
  have h : (nextBits 3 s).All (fun c _ => c.toNat < 8) (fun _ => True) := by
    cases nextBits 3 s with
    | got a t => exact a.isLt
    | exhausted t => exact trivial
  refine h.andThen fun c s hc => ?_
  split
  · exact .inl ⟨rfl, by assumption⟩
  refine (moreCode_range _ s).andThen fun d s hd => ?_
  split
  · exact .inr (.inl ⟨rfl, by show 8 ≤ d; omega, by assumption⟩)
  refine (moreCode_range _ s).andThen fun e s he => ?_
  split
  · exact .inr (.inr (.inl ⟨rfl, by show 26 ≤ e; omega, by assumption⟩))
  refine (moreCode_range _ s).andThen fun f s hf => ?_
  exact .inr (.inr (.inr ⟨rfl, by show 62 ≤ f; omega, by show f < 64; omega⟩))

theorem decodeCodeword_ok {p : Nat × Nat} (h : IsCodeword p) :
    ∃ i, decodeCodeword p.1 p.2 = .ok i ∧ i.slot = .huf := by
  obtain ⟨n, w⟩ := p
  simp only [IsCodeword] at h
  rcases h with ⟨rfl, h⟩ | ⟨rfl, h1, h2⟩ | ⟨rfl, h1, h2⟩ | ⟨rfl, h1, h2⟩
  · interval_cases w <;> exact ⟨_, rfl, rfl⟩
  · interval_cases w <;> exact ⟨_, rfl, rfl⟩
  · interval_cases w <;> exact ⟨_, rfl, rfl⟩
  · interval_cases w <;> exact ⟨_, rfl, rfl⟩

/-- The width of every token but a codeword, for a cursor with at most 7 live bits. -/
theorem readToken_width (k : Slot) (s : State) :
    (readToken k s).All
      (fun p _ => match k with
        | .magic => p.1 = 16
        | .nx | .ny | .scale | .sumall => p.1 = 32 ∧ p.2 < 2 ^ 32
        | .nbp0 | .nbp1 | .nbp2 => p.1 = 8 ∧ p.2 < 2 ^ 8
        | .fmt | .nyb | .term => p.1 = 4 ∧ p.2 < 2 ^ 4
        | .huf => IsCodeword p
        | .sgn => p.1 = 1 ∧ p.2 < 2 ^ 1
        | .pad => p.1 = s.btg ∧ p.2 < 2 ^ s.btg
        | .align => p.1 = 0 ∧ p.2 < 2 ^ 0) (fun _ => True) := by
  have triv : ∀ {α : Type} (r : Read α), r.All (fun _ _ => True) (fun _ => True) := by
    intro α r; cases r <;> exact trivial
  have h8 : ∀ s, (readCount s).All (fun p _ => p.1 = 8 ∧ p.2 < 2 ^ 8) (fun _ => True) :=
    fun s => (triv _).andThen fun v _ _ => ⟨rfl, v.isLt⟩
  have h32 : ∀ s, (readInt32 s).All (fun p _ => p.1 = 32 ∧ p.2 < 2 ^ 32) (fun _ => True) :=
    fun s => (triv _).andThen fun v _ _ => ⟨rfl, v.isLt⟩
  have h4 : ∀ s, (readNybble s).All (fun p _ => p.1 = 4 ∧ p.2 < 2 ^ 4) (fun _ => True) :=
    fun s => (triv _).andThen fun v _ _ => ⟨rfl, v.isLt⟩
  cases k with
  | magic => exact (triv _).andThen fun _ _ _ => (triv _).andThen fun _ _ _ => rfl
  | nx => exact h32 s
  | ny => exact h32 s
  | scale => exact h32 s
  | sumall => exact h32 s
  | nbp0 => exact h8 s
  | nbp1 => exact h8 s
  | nbp2 => exact h8 s
  | fmt => exact h4 s
  | nyb => exact h4 s
  | huf => exact readCodeword_isCodeword s
  | term => exact h4 s
  | sgn => exact (triv _).andThen fun b _ _ => ⟨rfl, by cases b <;> decide⟩
  | pad => exact ⟨rfl, Nat.mod_lt _ (Nat.two_pow_pos _)⟩
  | align => exact ⟨rfl, by decide⟩

theorem ofWidth_eq {m n w : Nat} {i j : Instr} (h : ofWidth m n w i = .ok j) : i = j := by
  unfold ofWidth at h
  split at h
  · exact Except.ok.inj h
  · cases h

/-- A decoded token belongs to the place it was decoded at. -/
theorem decode_slot {k : Slot} {n w : Nat} {i : Instr} (h : decode k n w = .ok i) : i.slot = k := by
  cases k with
  | magic =>
    simp only [decode] at h
    split at h
    · split at h
      · cases h; rfl
      · cases h
    · cases h
  | nx => cases ofWidth_eq h; rfl
  | ny => cases ofWidth_eq h; rfl
  | scale => cases ofWidth_eq h; rfl
  | sumall => cases ofWidth_eq h; rfl
  | nbp0 => cases ofWidth_eq h; rfl
  | nbp1 => cases ofWidth_eq h; rfl
  | nbp2 => cases ofWidth_eq h; rfl
  | fmt =>
    cases ofWidth_eq h
    unfold decodeFormat
    split
    · rfl
    · split <;> rfl
  | nyb => cases ofWidth_eq h; rfl
  | huf =>
    simp only [decode, decodeCodeword] at h
    split at h <;> cases h <;> rfl
  | term =>
    cases ofWidth_eq h
    unfold decodeTerminator
    split <;> rfl
  | sgn => cases ofWidth_eq h; rfl
  | pad =>
    simp only [decode] at h
    split at h
    · cases h; rfl
    · cases h
  | align => cases ofWidth_eq h; rfl

/-- With at most 7 live bits, what is read at a place is a token of the place, or the wrong magic pair. -/
theorem decode_read {k : Slot} {s t : State} {p : Nat × Nat} (hb : s.btg ≤ 7) (h : readToken k s = .got p t) :
    (∃ i, decode k p.1 p.2 = .ok i ∧ i.slot = k) ∨ (k = .magic ∧ decode k p.1 p.2 = .error .badMagic) := by
  have hw := readToken_width k s
  rw [h] at hw
  obtain ⟨n, w⟩ := p
  have ok : ∀ {m : Nat} {i : Instr}, n = m ∧ w < 2 ^ m → ofWidth m n w i = .ok i := by
    intro m i hm; simp [ofWidth, hm]
  have slot_ok : ∀ {i : Instr}, decode k n w = .ok i → ∃ i, decode k n w = .ok i ∧ i.slot = k :=
    fun {i} hi => ⟨i, hi, decode_slot hi⟩
  cases k with
  | magic =>
    have hw : n = 16 := hw
    subst hw
    by_cases hm : w = 0xDD99
    · exact .inl (slot_ok (i := .hdrMagic) (by simp [decode, hm]))
    · exact .inr ⟨rfl, by simp [decode, hm]⟩
  | nx => exact .inl (slot_ok (ok hw))
  | ny => exact .inl (slot_ok (ok hw))
  | scale => exact .inl (slot_ok (ok hw))
  | sumall => exact .inl (slot_ok (ok hw))
  | nbp0 => exact .inl (slot_ok (ok hw))
  | nbp1 => exact .inl (slot_ok (ok hw))
  | nbp2 => exact .inl (slot_ok (ok hw))
  | fmt => exact .inl (slot_ok (ok hw))
  | nyb => exact .inl (slot_ok (ok hw))
  | huf =>
    obtain ⟨i, hi, _⟩ := decodeCodeword_ok hw
    exact .inl (slot_ok (i := i) hi)
  | term => exact .inl (slot_ok (ok hw))
  | sgn => exact .inl (slot_ok (ok hw))
  | pad =>
    have hw : n = s.btg ∧ w < 2 ^ s.btg := hw
    refine .inl (slot_ok (i := .pad (Fin.ofNat 8 n) (BitVec.ofNat 7 w)) ?_)
    simp [decode, hw.1, hw.2]
    omega
  | align => exact .inl (slot_ok (ok hw))

end Sys2Proof.Machine
end

