-- ==== Sys2Proof/Laws/Memory.lean ====
section
/-! SUPPORT. Every operation over the memories `A`, `S` and `T` keeps their canonical form, and the state after reset has it. -/

namespace Sys2Proof.Machine

theorem reset_memory_wf : Memory.wf State.reset = true := rfl

theorem discard_memory_wf (s : State) : Memory.wf s.discard = true := rfl

theorem startSession_memory_wf (bytes : List Byte) (s : State) : Memory.wf (startSession bytes s) = true := rfl

theorem qtreeCopy_wf {ex ey : Nat} {old b : Bank 4} (h : qtreeCopy ex ey old = .ok b) (hw : old.wf = true) :
    b.wf = true := by
  refine forEach_keeps (P := fun b => b.wf = true) (fun x _ a c ha hc => ?_) hw h
  unfold copyEntry at hc
  split at hc
  · exact writeScratch_keeps_wf ha hc
  · cases hc

theorem insertBit_wf {r : QtRegs} {b : Bank 4} {i j : Nat} {a c : Bank 32} (h : insertBit r b i j a = .ok c)
    (hw : a.gridWf = true) : c.gridWf = true := by
  unfold insertBit at h
  split at h
  · cases h
  · split at h
    · cases h
    · exact writeGrid_keeps_wf hw h

theorem qtreeBitins_wf {r : QtRegs} {b : Bank 4} {a c : Bank 32} (h : qtreeBitins r b a = .ok c)
    (hw : a.gridWf = true) : c.gridWf = true :=
  forEach_keeps (P := fun a => a.gridWf = true)
    (fun _ _ _ _ ha hc => forEach_keeps (P := fun a => a.gridWf = true) (fun _ _ _ _ ha hc => insertBit_wf hc ha) ha hc) hw h

theorem scaleGrid_wf {scale : Word} {a c : Bank 32} (h : scaleGrid scale a = .ok c) (hw : a.gridWf = true) :
    c.gridWf = true := by
  unfold scaleGrid at h
  split at h
  · refine forEach_keeps (P := fun a => a.gridWf = true) (fun i _ a c ha hc => ?_) hw h
    unfold scaleEntry at hc
    split at hc
    · exact writeGrid_keeps_wf ha hc
    · cases hc
  · cases h; exact hw

/-- The grid and the unshuffle buffer are in canonical form. -/
def PairWf (m : Bank 32 × Bank 32) : Prop := m.1.gridWf = true ∧ m.2.wf = true

theorem unshuffle_wf {base n stride : Nat} {m m' : Bank 32 × Bank 32} (h : unshuffle base n stride m = .ok m')
    (hw : PairWf m) : PairWf m' := by
  unfold unshuffle at h
  simp only at h
  split at h
  · cases h
  · rename_i t ht
    have h1 : t.wf = true := by
      refine forEach_keeps (P := fun t => t.wf = true) (fun i _ a c ha hc => ?_) hw.2 ht
      unfold saveHalf at hc
      split at hc
      · exact writeScratch_keeps_wf ha hc
      · cases hc
    split at h
    · cases h
    · rename_i a ha
      have h2 : a.gridWf = true := by
        refine forEach_keeps (P := fun a => a.gridWf = true) (fun i _ a c ha hc => ?_) hw.1 ha
        unfold spreadHalf at hc
        split at hc
        · exact writeGrid_keeps_wf ha hc
        · cases hc
      split at h
      · cases h
      · rename_i a' ha'
        cases h
        refine ⟨forEach_keeps (P := fun a => a.gridWf = true) (fun i _ a c ha hc => ?_) h2 ha', h1⟩
        unfold placeHalf at hc
        split at hc
        · exact writeGrid_keeps_wf ha hc
        · cases hc

theorem unshuffleLevel_wf {ny nxtop nytop : Nat} {m m' : Bank 32 × Bank 32}
    (h : unshuffleLevel ny nxtop nytop m = .ok m') (hw : PairWf m) : PairWf m' := by
  unfold unshuffleLevel at h
  split at h
  · cases h
  · rename_i m1 h1
    exact forEach_keeps (P := PairWf) (fun _ _ _ _ ha hc => unshuffle_wf hc ha)
      (forEach_keeps (P := PairWf) (fun _ _ _ _ ha hc => unshuffle_wf hc ha) hw h1) h

/-- A bind of a combine that ends without a fault has a first part that does. -/
theorem bind_ok {α β : Type} {x : Except Fault α} {f : α → Except Fault β} {b : β} (h : (x >>= f) = .ok b) :
    ∃ a, x = .ok a ∧ f a = .ok b := by
  cases x with
  | error e => cases h
  | ok a => exact ⟨a, rfl, h⟩

theorem combineBlock_wf {ny s00 : Nat} {m m' : HtRegs × Bank 32} (h : combineBlock ny s00 m = .ok m')
    (hw : m.2.gridWf = true) : m'.2.gridWf = true := by
  obtain ⟨_, _, h⟩ := bind_ok h
  obtain ⟨_, _, h⟩ := bind_ok h
  obtain ⟨_, _, h⟩ := bind_ok h
  obtain ⟨_, _, h⟩ := bind_ok h
  obtain ⟨a1, h1, h⟩ := bind_ok h
  obtain ⟨a2, h2, h⟩ := bind_ok h
  obtain ⟨a3, h3, h⟩ := bind_ok h
  obtain ⟨a4, h4, h⟩ := bind_ok h
  cases h
  exact writeGrid_keeps_wf (writeGrid_keeps_wf (writeGrid_keeps_wf (writeGrid_keeps_wf hw h1) h2) h3) h4

theorem combineOddY_wf {ny s00 : Nat} {m m' : HtRegs × Bank 32} (h : combineOddY ny s00 m = .ok m')
    (hw : m.2.gridWf = true) : m'.2.gridWf = true := by
  obtain ⟨_, _, h⟩ := bind_ok h
  obtain ⟨_, _, h⟩ := bind_ok h
  obtain ⟨a1, h1, h⟩ := bind_ok h
  obtain ⟨a2, h2, h⟩ := bind_ok h
  cases h
  exact writeGrid_keeps_wf (writeGrid_keeps_wf hw h1) h2

theorem combineOddX_wf {s00 : Nat} {m m' : HtRegs × Bank 32} (h : combineOddX s00 m = .ok m')
    (hw : m.2.gridWf = true) : m'.2.gridWf = true := by
  obtain ⟨_, _, h⟩ := bind_ok h
  obtain ⟨_, _, h⟩ := bind_ok h
  obtain ⟨a1, h1, h⟩ := bind_ok h
  obtain ⟨a2, h2, h⟩ := bind_ok h
  cases h
  exact writeGrid_keeps_wf (writeGrid_keeps_wf hw h1) h2

theorem combineCorner_wf {s00 : Nat} {m m' : HtRegs × Bank 32} (h : combineCorner s00 m = .ok m')
    (hw : m.2.gridWf = true) : m'.2.gridWf = true := by
  obtain ⟨_, _, h⟩ := bind_ok h
  obtain ⟨a1, h1, h⟩ := bind_ok h
  cases h
  exact writeGrid_keeps_wf hw h1

theorem combineRows_wf {ny i : Nat} {m m' : HtRegs × Bank 32} (h : combineRows ny i m = .ok m')
    (hw : m.2.gridWf = true) : m'.2.gridWf = true := by
  unfold combineRows at h
  split at h
  · cases h
  · rename_i m1 h1
    have hw1 := forEach_keeps (P := fun m : HtRegs × Bank 32 => m.2.gridWf = true)
      (fun _ _ _ _ ha hc => combineBlock_wf hc ha) hw h1
    split at h
    · exact combineOddY_wf h hw1
    · cases h; exact hw1

theorem combineLastRow_wf {ny : Nat} {m m' : HtRegs × Bank 32} (h : combineLastRow ny m = .ok m')
    (hw : m.2.gridWf = true) : m'.2.gridWf = true := by
  unfold combineLastRow at h
  simp only at h
  split at h
  · cases h
  · rename_i m1 h1
    have hw1 := forEach_keeps (P := fun m : HtRegs × Bank 32 => m.2.gridWf = true)
      (fun _ _ _ _ ha hc => combineOddX_wf hc ha) hw h1
    split at h
    · exact combineCorner_wf h hw1
    · cases h; exact hw1

theorem combineLevel_wf {ny : Nat} {m m' : HtRegs × Bank 32} (h : combineLevel ny m = .ok m')
    (hw : m.2.gridWf = true) : m'.2.gridWf = true := by
  unfold combineLevel at h
  simp only at h
  split at h
  · cases h
  · rename_i m1 h1
    have hw1 := forEach_keeps (P := fun m : HtRegs × Bank 32 => m.2.gridWf = true)
      (fun _ _ _ _ ha hc => combineRows_wf hc ha) (by exact hw) h1
    split at h
    · exact combineLastRow_wf h hw1
    · cases h; exact hw1

end Sys2Proof.Machine
end

