-- ==== Sys2Proof/Laws/State.lean ====
section
/-! SUPPORT. What each named update of the state leaves in each field: one lemma per field, each true by unfolding. -/

namespace Sys2Proof.Machine

@[simp] theorem goto_cfg (p : Point) (s : State) : (State.goto p s).cfg = s.cfg := rfl
@[simp] theorem goto_status (p : Point) (s : State) : (State.goto p s).status = s.status := rfl
@[simp] theorem goto_input (p : Point) (s : State) : (State.goto p s).input = s.input := rfl
@[simp] theorem goto_pos (p : Point) (s : State) : (State.goto p s).pos = s.pos := rfl
@[simp] theorem goto_buf (p : Point) (s : State) : (State.goto p s).buf = s.buf := rfl
@[simp] theorem goto_btg (p : Point) (s : State) : (State.goto p s).btg = s.btg := rfl
@[simp] theorem goto_hdr (p : Point) (s : State) : (State.goto p s).hdr = s.hdr := rfl
@[simp] theorem goto_A (p : Point) (s : State) : (State.goto p s).A = s.A := rfl
@[simp] theorem goto_S (p : Point) (s : State) : (State.goto p s).S = s.S := rfl
@[simp] theorem goto_T (p : Point) (s : State) : (State.goto p s).T = s.T := rfl
@[simp] theorem goto_O (p : Point) (s : State) : (State.goto p s).O = s.O := rfl
@[simp] theorem goto_qt (p : Point) (s : State) : (State.goto p s).qt = s.qt := rfl
@[simp] theorem goto_ht (p : Point) (s : State) : (State.goto p s).ht = s.ht := rfl
@[simp] theorem goto_gi (p : Point) (s : State) : (State.goto p s).gi = s.gi := rfl
@[simp] theorem goto_stage (p : Point) (s : State) : (State.goto p s).stage = s.stage := rfl
@[simp] theorem goto_phase (p : Point) (s : State) : (State.goto p s).phase = p.phase := rfl
@[simp] theorem goto_point (p : Point) (s : State) : (State.goto p s).point = p := rfl
@[simp] theorem goto_written (p : Point) (s : State) : (State.goto p s).written = s.written := rfl
@[simp] theorem goto_plan (p : Point) (s : State) : (State.goto p s).plan = s.plan := rfl
@[simp] theorem goto_reply (p : Point) (s : State) : (State.goto p s).reply = s.reply := rfl

@[simp] theorem discard_cfg (s : State) : (s.discard).cfg = s.cfg := rfl
@[simp] theorem discard_status (s : State) : (s.discard).status = s.status := rfl
@[simp] theorem discard_input (s : State) : (s.discard).input = s.input := rfl
@[simp] theorem discard_pos (s : State) : (s.discard).pos = s.pos := rfl
@[simp] theorem discard_buf (s : State) : (s.discard).buf = s.buf := rfl
@[simp] theorem discard_btg (s : State) : (s.discard).btg = s.btg := rfl
@[simp] theorem discard_hdr (s : State) : (s.discard).hdr = s.hdr := rfl
@[simp] theorem discard_A (s : State) : (s.discard).A = Bank.absent := rfl
@[simp] theorem discard_S (s : State) : (s.discard).S = Bank.absent := rfl
@[simp] theorem discard_T (s : State) : (s.discard).T = Bank.absent := rfl
@[simp] theorem discard_O (s : State) : (s.discard).O = s.O := rfl
@[simp] theorem discard_qt (s : State) : (s.discard).qt = s.qt := rfl
@[simp] theorem discard_ht (s : State) : (s.discard).ht = s.ht := rfl
@[simp] theorem discard_gi (s : State) : (s.discard).gi = s.gi := rfl
@[simp] theorem discard_stage (s : State) : (s.discard).stage = s.stage := rfl
@[simp] theorem discard_phase (s : State) : (s.discard).phase = s.phase := rfl
@[simp] theorem discard_point (s : State) : (s.discard).point = s.point := rfl
@[simp] theorem discard_written (s : State) : (s.discard).written = s.written := rfl
@[simp] theorem discard_plan (s : State) : (s.discard).plan = s.plan := rfl
@[simp] theorem discard_reply (s : State) : (s.discard).reply = s.reply := rfl

@[simp] theorem resetBitCursor_cfg (s : State) : (resetBitCursor s).cfg = s.cfg := rfl
@[simp] theorem resetBitCursor_status (s : State) : (resetBitCursor s).status = s.status := rfl
@[simp] theorem resetBitCursor_input (s : State) : (resetBitCursor s).input = s.input := rfl
@[simp] theorem resetBitCursor_pos (s : State) : (resetBitCursor s).pos = s.pos := rfl
@[simp] theorem resetBitCursor_buf (s : State) : (resetBitCursor s).buf = s.buf := rfl
@[simp] theorem resetBitCursor_btg (s : State) : (resetBitCursor s).btg = 0 := rfl
@[simp] theorem resetBitCursor_hdr (s : State) : (resetBitCursor s).hdr = s.hdr := rfl
@[simp] theorem resetBitCursor_A (s : State) : (resetBitCursor s).A = s.A := rfl
@[simp] theorem resetBitCursor_S (s : State) : (resetBitCursor s).S = s.S := rfl
@[simp] theorem resetBitCursor_T (s : State) : (resetBitCursor s).T = s.T := rfl
@[simp] theorem resetBitCursor_O (s : State) : (resetBitCursor s).O = s.O := rfl
@[simp] theorem resetBitCursor_qt (s : State) : (resetBitCursor s).qt = s.qt := rfl
@[simp] theorem resetBitCursor_ht (s : State) : (resetBitCursor s).ht = s.ht := rfl
@[simp] theorem resetBitCursor_gi (s : State) : (resetBitCursor s).gi = s.gi := rfl
@[simp] theorem resetBitCursor_stage (s : State) : (resetBitCursor s).stage = s.stage := rfl
@[simp] theorem resetBitCursor_phase (s : State) : (resetBitCursor s).phase = s.phase := rfl
@[simp] theorem resetBitCursor_point (s : State) : (resetBitCursor s).point = s.point := rfl
@[simp] theorem resetBitCursor_written (s : State) : (resetBitCursor s).written = s.written := rfl
@[simp] theorem resetBitCursor_plan (s : State) : (resetBitCursor s).plan = s.plan := rfl
@[simp] theorem resetBitCursor_reply (s : State) : (resetBitCursor s).reply = s.reply := rfl

@[simp] theorem raise_cfg (k : ErrKind) (s : State) : (raise k s).cfg = s.cfg := rfl
@[simp] theorem raise_status (k : ErrKind) (s : State) : (raise k s).status = { s.status with state := .error, errKind := k, errStage := s.stage, errPos := s.pos } := rfl
@[simp] theorem raise_input (k : ErrKind) (s : State) : (raise k s).input = s.input := rfl
@[simp] theorem raise_pos (k : ErrKind) (s : State) : (raise k s).pos = s.pos := rfl
@[simp] theorem raise_buf (k : ErrKind) (s : State) : (raise k s).buf = s.buf := rfl
@[simp] theorem raise_btg (k : ErrKind) (s : State) : (raise k s).btg = s.btg := rfl
@[simp] theorem raise_hdr (k : ErrKind) (s : State) : (raise k s).hdr = s.hdr := rfl
@[simp] theorem raise_A (k : ErrKind) (s : State) : (raise k s).A = Bank.absent := rfl
@[simp] theorem raise_S (k : ErrKind) (s : State) : (raise k s).S = Bank.absent := rfl
@[simp] theorem raise_T (k : ErrKind) (s : State) : (raise k s).T = Bank.absent := rfl
@[simp] theorem raise_O (k : ErrKind) (s : State) : (raise k s).O = s.O := rfl
@[simp] theorem raise_qt (k : ErrKind) (s : State) : (raise k s).qt = s.qt := rfl
@[simp] theorem raise_ht (k : ErrKind) (s : State) : (raise k s).ht = s.ht := rfl
@[simp] theorem raise_gi (k : ErrKind) (s : State) : (raise k s).gi = s.gi := rfl
@[simp] theorem raise_stage (k : ErrKind) (s : State) : (raise k s).stage = s.stage := rfl
@[simp] theorem raise_phase (k : ErrKind) (s : State) : (raise k s).phase = .error := rfl
@[simp] theorem raise_point (k : ErrKind) (s : State) : (raise k s).point = .error := rfl
@[simp] theorem raise_written (k : ErrKind) (s : State) : (raise k s).written = s.written := rfl
@[simp] theorem raise_plan (k : ErrKind) (s : State) : (raise k s).plan = s.plan := rfl
@[simp] theorem raise_reply (k : ErrKind) (s : State) : (raise k s).reply = s.reply := rfl

@[simp] theorem refuse_cfg (r : RefuseReason) (s : State) : (refuse r s).cfg = s.cfg := rfl
@[simp] theorem refuse_status (r : RefuseReason) (s : State) : (refuse r s).status = { s.status with state := .refused, refuseReason := r } := rfl
@[simp] theorem refuse_input (r : RefuseReason) (s : State) : (refuse r s).input = s.input := rfl
@[simp] theorem refuse_pos (r : RefuseReason) (s : State) : (refuse r s).pos = s.pos := rfl
@[simp] theorem refuse_buf (r : RefuseReason) (s : State) : (refuse r s).buf = s.buf := rfl
@[simp] theorem refuse_btg (r : RefuseReason) (s : State) : (refuse r s).btg = s.btg := rfl
@[simp] theorem refuse_hdr (r : RefuseReason) (s : State) : (refuse r s).hdr = s.hdr := rfl
@[simp] theorem refuse_A (r : RefuseReason) (s : State) : (refuse r s).A = Bank.absent := rfl
@[simp] theorem refuse_S (r : RefuseReason) (s : State) : (refuse r s).S = Bank.absent := rfl
@[simp] theorem refuse_T (r : RefuseReason) (s : State) : (refuse r s).T = Bank.absent := rfl
@[simp] theorem refuse_O (r : RefuseReason) (s : State) : (refuse r s).O = s.O := rfl
@[simp] theorem refuse_qt (r : RefuseReason) (s : State) : (refuse r s).qt = s.qt := rfl
@[simp] theorem refuse_ht (r : RefuseReason) (s : State) : (refuse r s).ht = s.ht := rfl
@[simp] theorem refuse_gi (r : RefuseReason) (s : State) : (refuse r s).gi = s.gi := rfl
@[simp] theorem refuse_stage (r : RefuseReason) (s : State) : (refuse r s).stage = s.stage := rfl
@[simp] theorem refuse_phase (r : RefuseReason) (s : State) : (refuse r s).phase = .refused := rfl
@[simp] theorem refuse_point (r : RefuseReason) (s : State) : (refuse r s).point = .refused := rfl
@[simp] theorem refuse_written (r : RefuseReason) (s : State) : (refuse r s).written = s.written := rfl
@[simp] theorem refuse_plan (r : RefuseReason) (s : State) : (refuse r s).plan = s.plan := rfl
@[simp] theorem refuse_reply (r : RefuseReason) (s : State) : (refuse r s).reply = s.reply := rfl

@[simp] theorem captureHeader_cfg (s : State) : (captureHeader s).cfg = s.cfg := rfl
@[simp] theorem captureHeader_status (s : State) : (captureHeader s).status = { s.status with
        hdrNx := s.hdr.nx, hdrNy := s.hdr.ny, hdrScale := s.hdr.scale, hdrSumall := s.hdr.sumall
        hdrNbp0 := s.hdr.nbp0, hdrNbp1 := s.hdr.nbp1, hdrNbp2 := s.hdr.nbp2, hdrValid := true } := rfl
@[simp] theorem captureHeader_input (s : State) : (captureHeader s).input = s.input := rfl
@[simp] theorem captureHeader_pos (s : State) : (captureHeader s).pos = s.pos := rfl
@[simp] theorem captureHeader_buf (s : State) : (captureHeader s).buf = s.buf := rfl
@[simp] theorem captureHeader_btg (s : State) : (captureHeader s).btg = s.btg := rfl
@[simp] theorem captureHeader_hdr (s : State) : (captureHeader s).hdr = s.hdr := rfl
@[simp] theorem captureHeader_A (s : State) : (captureHeader s).A = s.A := rfl
@[simp] theorem captureHeader_S (s : State) : (captureHeader s).S = s.S := rfl
@[simp] theorem captureHeader_T (s : State) : (captureHeader s).T = s.T := rfl
@[simp] theorem captureHeader_O (s : State) : (captureHeader s).O = s.O := rfl
@[simp] theorem captureHeader_qt (s : State) : (captureHeader s).qt = s.qt := rfl
@[simp] theorem captureHeader_ht (s : State) : (captureHeader s).ht = s.ht := rfl
@[simp] theorem captureHeader_gi (s : State) : (captureHeader s).gi = s.gi := rfl
@[simp] theorem captureHeader_stage (s : State) : (captureHeader s).stage = s.stage := rfl
@[simp] theorem captureHeader_phase (s : State) : (captureHeader s).phase = s.phase := rfl
@[simp] theorem captureHeader_point (s : State) : (captureHeader s).point = s.point := rfl
@[simp] theorem captureHeader_written (s : State) : (captureHeader s).written = { s.written with hdr := true } := rfl
@[simp] theorem captureHeader_plan (s : State) : (captureHeader s).plan = s.plan := rfl
@[simp] theorem captureHeader_reply (s : State) : (captureHeader s).reply = s.reply := rfl

@[simp] theorem emit_cfg (b : Byte) (s : State) : (emit b s).cfg = s.cfg := rfl
@[simp] theorem emit_status (b : Byte) (s : State) : (emit b s).status = s.status := rfl
@[simp] theorem emit_input (b : Byte) (s : State) : (emit b s).input = s.input := rfl
@[simp] theorem emit_pos (b : Byte) (s : State) : (emit b s).pos = s.pos := rfl
@[simp] theorem emit_buf (b : Byte) (s : State) : (emit b s).buf = s.buf := rfl
@[simp] theorem emit_btg (b : Byte) (s : State) : (emit b s).btg = s.btg := rfl
@[simp] theorem emit_hdr (b : Byte) (s : State) : (emit b s).hdr = s.hdr := rfl
@[simp] theorem emit_A (b : Byte) (s : State) : (emit b s).A = s.A := rfl
@[simp] theorem emit_S (b : Byte) (s : State) : (emit b s).S = s.S := rfl
@[simp] theorem emit_T (b : Byte) (s : State) : (emit b s).T = s.T := rfl
@[simp] theorem emit_O (b : Byte) (s : State) : (emit b s).O = s.O ++ [b] := rfl
@[simp] theorem emit_qt (b : Byte) (s : State) : (emit b s).qt = s.qt := rfl
@[simp] theorem emit_ht (b : Byte) (s : State) : (emit b s).ht = s.ht := rfl
@[simp] theorem emit_gi (b : Byte) (s : State) : (emit b s).gi = s.gi := rfl
@[simp] theorem emit_stage (b : Byte) (s : State) : (emit b s).stage = s.stage := rfl
@[simp] theorem emit_phase (b : Byte) (s : State) : (emit b s).phase = s.phase := rfl
@[simp] theorem emit_point (b : Byte) (s : State) : (emit b s).point = s.point := rfl
@[simp] theorem emit_written (b : Byte) (s : State) : (emit b s).written = s.written := rfl
@[simp] theorem emit_plan (b : Byte) (s : State) : (emit b s).plan = s.plan := rfl
@[simp] theorem emit_reply (b : Byte) (s : State) : (emit b s).reply = s.reply := rfl

@[simp] theorem finish_cfg (s : State) : (finish s).cfg = s.cfg := rfl
@[simp] theorem finish_status (s : State) : (finish s).status = { s.status with state := .done, outLen := 2 * s.A.size } := rfl
@[simp] theorem finish_input (s : State) : (finish s).input = s.input := rfl
@[simp] theorem finish_pos (s : State) : (finish s).pos = s.pos := rfl
@[simp] theorem finish_buf (s : State) : (finish s).buf = s.buf := rfl
@[simp] theorem finish_btg (s : State) : (finish s).btg = s.btg := rfl
@[simp] theorem finish_hdr (s : State) : (finish s).hdr = s.hdr := rfl
@[simp] theorem finish_A (s : State) : (finish s).A = s.A := rfl
@[simp] theorem finish_S (s : State) : (finish s).S = s.S := rfl
@[simp] theorem finish_T (s : State) : (finish s).T = s.T := rfl
@[simp] theorem finish_O (s : State) : (finish s).O = s.O := rfl
@[simp] theorem finish_qt (s : State) : (finish s).qt = s.qt := rfl
@[simp] theorem finish_ht (s : State) : (finish s).ht = s.ht := rfl
@[simp] theorem finish_gi (s : State) : (finish s).gi = s.gi := rfl
@[simp] theorem finish_stage (s : State) : (finish s).stage = s.stage := rfl
@[simp] theorem finish_phase (s : State) : (finish s).phase = .done := rfl
@[simp] theorem finish_point (s : State) : (finish s).point = .done := rfl
@[simp] theorem finish_written (s : State) : (finish s).written = s.written := rfl
@[simp] theorem finish_plan (s : State) : (finish s).plan = s.plan := rfl
@[simp] theorem finish_reply (s : State) : (finish s).reply = s.reply := rfl

@[simp] theorem startSession_cfg (bytes : List Byte) (s : State) : (startSession bytes s).cfg = s.cfg := rfl
@[simp] theorem startSession_status (bytes : List Byte) (s : State) : (startSession bytes s).status = { Status.reset with state := .busy } := rfl
@[simp] theorem startSession_input (bytes : List Byte) (s : State) : (startSession bytes s).input = bytes := rfl
@[simp] theorem startSession_pos (bytes : List Byte) (s : State) : (startSession bytes s).pos = State.reset.pos := rfl
@[simp] theorem startSession_buf (bytes : List Byte) (s : State) : (startSession bytes s).buf = State.reset.buf := rfl
@[simp] theorem startSession_btg (bytes : List Byte) (s : State) : (startSession bytes s).btg = State.reset.btg := rfl
@[simp] theorem startSession_hdr (bytes : List Byte) (s : State) : (startSession bytes s).hdr = State.reset.hdr := rfl
@[simp] theorem startSession_A (bytes : List Byte) (s : State) : (startSession bytes s).A = State.reset.A := rfl
@[simp] theorem startSession_S (bytes : List Byte) (s : State) : (startSession bytes s).S = State.reset.S := rfl
@[simp] theorem startSession_T (bytes : List Byte) (s : State) : (startSession bytes s).T = State.reset.T := rfl
@[simp] theorem startSession_O (bytes : List Byte) (s : State) : (startSession bytes s).O = State.reset.O := rfl
@[simp] theorem startSession_qt (bytes : List Byte) (s : State) : (startSession bytes s).qt = State.reset.qt := rfl
@[simp] theorem startSession_ht (bytes : List Byte) (s : State) : (startSession bytes s).ht = State.reset.ht := rfl
@[simp] theorem startSession_gi (bytes : List Byte) (s : State) : (startSession bytes s).gi = State.reset.gi := rfl
@[simp] theorem startSession_stage (bytes : List Byte) (s : State) : (startSession bytes s).stage = .header := rfl
@[simp] theorem startSession_phase (bytes : List Byte) (s : State) : (startSession bytes s).phase = .header := rfl
@[simp] theorem startSession_point (bytes : List Byte) (s : State) : (startSession bytes s).point = .magic := rfl
@[simp] theorem startSession_written (bytes : List Byte) (s : State) : (startSession bytes s).written = State.reset.written := rfl
@[simp] theorem startSession_plan (bytes : List Byte) (s : State) : (startSession bytes s).plan = s.plan := rfl
@[simp] theorem startSession_reply (bytes : List Byte) (s : State) : (startSession bytes s).reply = some .accepted := rfl

end Sys2Proof.Machine
end

