-- ==== Sys2Proof/Laws/Step.lean ====
section
/-! SUPPORT. What a step can do, said once: the event it comes from, the four ways a fetch goes, and how far each header field moves the cursor. -/

namespace Sys2Proof.Machine

open Sys2Proof.Safety

/-- The outcome of an event: a token runs, anything else is its own outcome. -/
def Event.run : Event → Result
  | .token i t => exec i t
  | .own r => r

theorem step_eq (s : State) : step s = (nextEvent s).run := by
  unfold step
  cases nextEvent s <;> rfl

/-- A step is a transaction of the host, or the engine's on the state with the `wait` taken off the plan. -/
theorem step_cases (s : State) :
    (s.plan = [] ∧ step s = (engineEvent s).run) ∨
    (∃ rest, s.plan = .wait :: rest ∧ step s = (engineEvent { s with plan := rest }).run) ∨
    (∃ m rest, s.plan = m :: rest ∧ m ≠ .wait ∧ step s = hostMove m { s with plan := rest }) := by
  rw [step_eq]
  unfold nextEvent
  split
  · exact .inl ⟨by assumption, rfl⟩
  · exact .inr (.inl ⟨_, by assumption, rfl⟩)
  · rename_i m rest hne h
    exact .inr (.inr ⟨m, rest, h, fun hw => hne hw, rfl⟩)

/-- The four ways a fetch goes: the input ends early; a token of the place; a wrong magic pair; or, with more than 7
live bits, bits that are no token. -/
theorem fetchToken_cases (k : Slot) (s : State) :
    (∃ t, EndedAt s t ∧ fetchToken k s = .own (.next (raise .streamExhausted t))) ∨
    (∃ p i t, readToken k s = .got p t ∧ decode k p.1 p.2 = .ok i ∧ Moved s t ∧ i.slot = k ∧ fetchToken k s = .token i t) ∨
    (k = .magic ∧ ∃ p t, readToken k s = .got p t ∧ Moved s t ∧ fetchToken k s = .own (.next (raise .badMagicNumber t))) ∨
    (7 < s.btg ∧ fetchToken k s = .own (.fault .undecodable)) := by
  have hm := readToken_moves k s
  unfold fetchToken
  cases hr : readToken k s with
  | exhausted t =>
    rw [hr] at hm
    exact .inl ⟨t, hm, rfl⟩
  | got p t =>
    rw [hr] at hm
    right
    simp only
    cases hd : decode k p.1 p.2 with
    | ok i => exact .inl ⟨p, i, t, rfl, hd, hm, decode_slot hd, rfl⟩
    | error e =>
      right
      by_cases hb : s.btg ≤ 7
      · rcases decode_read hb hr with ⟨i, hi, _⟩ | ⟨hk, he⟩
        · rw [hd] at hi; cases hi
        · rw [hd] at he
          cases he
          exact .inl ⟨hk, p, t, rfl, hm, rfl⟩
      · cases e with
        | badMagic =>
          cases k <;> simp only [decode, ofWidth, decodeCodeword] at hd <;> (try split at hd) <;> (try cases hd)
          exact .inl ⟨rfl, p, t, rfl, hm, rfl⟩
        | badWidth => exact .inr ⟨by omega, rfl⟩
        | short => exact .inr ⟨by omega, rfl⟩

/-- How many bytes the header field at a place has (R71). -/
def fieldBytes : Slot → Option Nat
  | .magic => some 2
  | .nx | .ny | .scale | .sumall => some 4
  | .nbp0 | .nbp1 | .nbp2 => some 1
  | .fmt | .nyb | .huf | .term | .sgn | .pad | .align => none

/-- A header field moves the cursor by its bytes and reads no bit (R107). -/
theorem readToken_header {k : Slot} {n : Nat} (hk : fieldBytes k = some n) (s : State) :
    (readToken k s).All (fun _ t => t.pos = s.pos + n ∧ t.btg = s.btg) (fun t => t.btg = s.btg) := by
  have h1 : ∀ s, (nextByte s).All (fun _ t => t.pos = s.pos + 1 ∧ t.btg = s.btg) (fun t => t.btg = s.btg) :=
    fun s => (nextByte_all s).mono (fun _ _ h => h.2) (fun _ h => by rw [h.1])
  have h8 : (readCount s).All (fun _ t => t.pos = s.pos + 1 ∧ t.btg = s.btg) (fun t => t.btg = s.btg) :=
    (h1 s).andThen fun _ t ht => ht
  have h32 : (readInt32 s).All (fun _ t => t.pos = s.pos + 4 ∧ t.btg = s.btg) (fun t => t.btg = s.btg) := by
    have h : (nextInt32BE s).All (fun _ t => t.pos = s.pos + 4 ∧ t.btg = s.btg) (fun t => t.btg = s.btg) := by
      refine (h1 s).andThen fun _ t ht => ?_
      refine ((h1 t).mono (fun _ _ h => h) (fun _ h => h.trans ht.2)).andThen fun _ u hu => ?_
      refine ((h1 u).mono (fun _ _ h => h) (fun _ h => h.trans (hu.2.trans ht.2))).andThen fun _ v hv => ?_
      refine ((h1 v).mono (fun _ _ h => h) (fun _ h => h.trans (hv.2.trans (hu.2.trans ht.2)))).andThen fun _ x hx => ?_
      exact ⟨by omega, hx.2.trans (hv.2.trans (hu.2.trans ht.2))⟩
    exact h.andThen fun _ t ht => ht
  cases k <;> cases hk
  · refine (h1 s).andThen fun _ t ht => ?_
    refine ((h1 t).mono (fun _ _ h => h) (fun _ h => h.trans ht.2)).andThen fun _ u hu => ?_
    exact ⟨by omega, hu.2.trans ht.2⟩
  all_goals first | exact h32 | exact h8

end Sys2Proof.Machine
end

