-- ==== Sys2Proof/Laws/Moves.lean ====
section
/-! SUPPORT. Everything an operation of the engine, a token and a step can do when it goes on, said once: the proofs about steps go by cases over these and unfold no operation. -/

namespace Sys2Proof.Machine

theorem needs_next {b : Bool} {r : Result} {t : State} (h : needs b r = .next t) : b = true ∧ r = .next t := by
  unfold needs at h
  split at h
  · exact ⟨by assumption, h⟩
  · cases h

theorem inSlot_next {k : Slot} {s t : State} {r : Result} (h : inSlot k s r = .next t) :
    s.point.slot = some k ∧ r = .next t := by
  unfold inSlot at h
  split at h
  · exact ⟨by assumption, h⟩
  · cases h

theorem next_inj {s t : State} (h : (Host.Outcome.next s : Result) = .next t) : t = s := by cases h; rfl

/-- What an operation that reads no token makes of `s`. -/
inductive EngineMove (s : State) : State → Prop where
  | stay (h : s.point = .idle ∨ s.point = .done ∨ s.point = .error ∨ s.point = .refused) : EngineMove s s
  | refused (h : s.point = .admitHdr) (w : s.written.hdr = true) (r : RefuseReason) (ha : admission s.cfg s.hdr = some r) :
      EngineMove s (refuse r s)
  | admitted (h : s.point = .admitHdr) (w : s.written.hdr = true) (ha : admission s.cfg s.hdr = none) :
      EngineMove s (State.goto .clear { s with A := Bank.alloc (s.hdr.rows * s.hdr.cols) })
  | cleared (h : s.point = .clear) : EngineMove s (State.goto .align1 { s with A := Bank.alloc s.A.size })
  | quadrant (h : s.point = .quad) (w : s.written.hdr = true) :
      EngineMove s
        (State.goto .plane
          { s with
            qt := enterQuadrant s.hdr s.qt
            S := Bank.alloc ((enterQuadrant s.hdr s.qt).mx * (enterQuadrant s.hdr s.qt).my)
            written := { s.written with qt := true } })
  | bitplanesDone (h : s.point = .plane) (hp : s.qt.planes = 0) (hq : s.qt.q = 3) :
      EngineMove s (State.goto .term { s with stage := .terminator })
  | quadrantDone (h : s.point = .plane) (hp : s.qt.planes = 0) (hq : s.qt.q ≠ 3) :
      EngineMove s (State.goto .quad { s with qt := { s.qt with q := s.qt.q + 1 } })
  | bitplane (h : s.point = .plane) (hp : s.qt.planes ≠ 0) :
      EngineMove s
        (State.goto .fmt
          { s with
            qt := { s.qt with planes := s.qt.planes - 1, bit := s.qt.planes - 1 }
            stage := .fmt s.qt.q (s.qt.planes - 1) })
  | nibble (h : s.point = .direct) (ht : s.qt.t < s.qt.mx * s.qt.my) : EngineMove s (s.goto .nyb)
  | nibblesDone (h : s.point = .direct) (ht : ¬ s.qt.t < s.qt.mx * s.qt.my) : EngineMove s (s.goto .bitins)
  | level (h : s.point = .level) (hk : s.qt.k < s.qt.L) (b : Bank 4)
      (hb : qtreeCopy (nextExtent s.qt).ex (nextExtent s.qt).ey s.S = .ok b) :
      EngineMove s
        (State.goto .expand
          { s with
            qt := { nextExtent s.qt with t := (nextExtent s.qt).ex * (nextExtent s.qt).ey }
            S := b })
  | levelsDone (h : s.point = .level) (hk : ¬ s.qt.k < s.qt.L) : EngineMove s (s.goto .bitins)
  | scanDone (h : s.point = .expand) (ht : s.qt.t = 0) :
      EngineMove s (State.goto .level { s with qt := { s.qt with k := s.qt.k + 1 } })
  | scanZero (h : s.point = .expand) (ht : s.qt.t ≠ 0) (hv : s.S.readScratch (s.qt.t - 1) = .ok 0) :
      EngineMove s { s with qt := { s.qt with t := s.qt.t - 1 } }
  | scanNonzero (h : s.point = .expand) (ht : s.qt.t ≠ 0) (v : Nibble) (hv : s.S.readScratch (s.qt.t - 1) = .ok v)
      (hne : v ≠ 0) : EngineMove s (State.goto .huf { s with qt := { s.qt with t := s.qt.t - 1 } })
  | inserted (h : s.point = .bitins) (a : Bank 32) (ha : qtreeBitins s.qt s.S s.A = .ok a) :
      EngineMove s (State.goto .plane { s with A := a })
  | signZero (h : s.point = .sign) (hg : s.gi < s.A.size) (hv : s.A.readGrid s.gi = .ok 0) :
      EngineMove s { s with gi := s.gi + 1 }
  | signNonzero (h : s.point = .sign) (hg : s.gi < s.A.size) (v : Word) (hv : s.A.readGrid s.gi = .ok v) (hne : v ≠ 0) :
      EngineMove s (s.goto .sgn)
  | signsDone (h : s.point = .sign) (hg : ¬ s.gi < s.A.size) : EngineMove s (s.goto .pad2)
  | dcSet (h : s.point = .setDC) (w : s.written.hdr = true) (a : Bank 32) (ha : s.A.writeGrid 0 s.hdr.sumall = .ok a) :
      EngineMove s (State.goto .undigitize { s with A := a })
  | scaled (h : s.point = .undigitize) (w : s.written.hdr = true) (a : Bank 32)
      (ha : scaleGrid s.hdr.scale s.A = .ok a) : EngineMove s (State.goto .hinit { s with A := a })
  | transformBegun (h : s.point = .hinit) (w : s.written.hdr = true) (dc : Word) (a : Bank 32)
      (hdc : s.A.readGrid 0 = .ok dc)
      (ha : s.A.writeGrid 0
        (roundWith (initConstants (initLoop s.hdr s.ht)).prnd2 (initConstants (initLoop s.hdr s.ht)).nrnd2
          (initConstants (initLoop s.hdr s.ht)).mask2 dc) = .ok a) :
      EngineMove s
        (State.goto .hlevel
          { s with
            A := a, T := Bank.alloc (ceilDiv s.hdr.maxDim 2), ht := initConstants (initLoop s.hdr s.ht)
            written := { s.written with ht := true } })
  | transformDone (h : s.point = .hlevel) (hl : s.ht.levels = 0) : EngineMove s (State.goto .pack { s with gi := 0 })
  | transformLevel (h : s.point = .hlevel) (hl : s.ht.levels ≠ 0) :
      EngineMove s (State.goto .unshuffle { s with ht := enterLevel s.ht })
  | unshuffled (h : s.point = .unshuffle) (m : Bank 32 × Bank 32)
      (hm : unshuffleLevel s.hdr.cols s.ht.nxtop s.ht.nytop (s.A, s.T) = .ok m) :
      EngineMove s (State.goto .combine { s with A := m.1, T := m.2 })
  | combined (h : s.point = .combine) (m : HtRegs × Bank 32) (hm : combineLevel s.hdr.cols (s.ht, s.A) = .ok m) :
      EngineMove s (State.goto .halve { s with ht := m.1, A := m.2 })
  | halved (h : s.point = .halve) : EngineMove s (State.goto .hlevel { s with ht := halveConstants s.ht })
  | pixel (h : s.point = .pack) (hg : s.gi < s.A.size) (v : Word) (hv : s.A.readGrid s.gi = .ok v) :
      EngineMove s { emit (v.extractLsb' 0 8) (emit (v.extractLsb' 8 8) s) with gi := s.gi + 1 }
  | packed (h : s.point = .pack) (hg : ¬ s.gi < s.A.size) : EngineMove s (finish s)

theorem engineOp_next {s t : State} (h : engineOp s = .next t) : EngineMove s t := by
  unfold engineOp at h
  split at h
  · cases next_inj h; exact .stay (.inl (by assumption))
  · cases next_inj h; exact .stay (.inr (.inl (by assumption)))
  · cases next_inj h; exact .stay (.inr (.inr (.inl (by assumption))))
  · cases next_inj h; exact .stay (.inr (.inr (.inr (by assumption))))
  · obtain ⟨w, h⟩ := needs_next h
    split at h
    · cases next_inj h; exact .refused (by assumption) w _ (by assumption)
    · cases next_inj h; exact .admitted (by assumption) w (by assumption)
  · cases next_inj h; exact .cleared (by assumption)
  · obtain ⟨w, h⟩ := needs_next h
    cases next_inj h; exact .quadrant (by assumption) w
  · obtain ⟨_, h⟩ := needs_next h
    split at h
    · split at h
      · cases next_inj h; exact .bitplanesDone (by assumption) (by assumption) (by assumption)
      · cases next_inj h; exact .quadrantDone (by assumption) (by assumption) (by assumption)
    · cases next_inj h; exact .bitplane (by assumption) (by assumption)
  · obtain ⟨_, h⟩ := needs_next h
    split at h
    · cases next_inj h; exact .nibble (by assumption) (by assumption)
    · cases next_inj h; exact .nibblesDone (by assumption) (by assumption)
  · obtain ⟨_, h⟩ := needs_next h
    split at h
    · simp only at h
      split at h
      · cases next_inj h; exact .level (by assumption) (by assumption) _ (by assumption)
      · cases h
    · cases next_inj h; exact .levelsDone (by assumption) (by assumption)
  · obtain ⟨_, h⟩ := needs_next h
    split at h
    · cases next_inj h; exact .scanDone (by assumption) (by assumption)
    · simp only at h
      split at h
      · split at h
        · rename_i hv hz
          cases next_inj h
          exact .scanZero (by assumption) (by assumption) (hz ▸ hv)
        · cases next_inj h; exact .scanNonzero (by assumption) (by assumption) _ (by assumption) (by assumption)
      · cases h
  · obtain ⟨_, h⟩ := needs_next h
    split at h
    · cases next_inj h; exact .inserted (by assumption) _ (by assumption)
    · cases h
  · unfold scanSigns at h
    split at h
    · split at h
      · split at h
        · rename_i hv hz
          cases next_inj h
          exact .signZero (by assumption) (by assumption) (hz ▸ hv)
        · cases next_inj h; exact .signNonzero (by assumption) (by assumption) _ (by assumption) (by assumption)
      · cases h
    · cases next_inj h; exact .signsDone (by assumption) (by assumption)
  · obtain ⟨w, h⟩ := needs_next h
    split at h
    · cases next_inj h; exact .dcSet (by assumption) w _ (by assumption)
    · cases h
  · obtain ⟨w, h⟩ := needs_next h
    split at h
    · cases next_inj h; exact .scaled (by assumption) w _ (by assumption)
    · cases h
  · obtain ⟨w, h⟩ := needs_next h
    simp only at h
    split at h
    · cases h
    · split at h
      · cases h
      · cases next_inj h; exact .transformBegun (by assumption) w _ _ (by assumption) (by assumption)
  · obtain ⟨_, h⟩ := needs_next h
    split at h
    · cases next_inj h; exact .transformDone (by assumption) (by assumption)
    · cases next_inj h; exact .transformLevel (by assumption) (by assumption)
  · obtain ⟨_, h⟩ := needs_next h
    split at h
    · cases next_inj h; exact .unshuffled (by assumption) _ (by assumption)
    · cases h
  · obtain ⟨_, h⟩ := needs_next h
    split at h
    · cases next_inj h; exact .combined (by assumption) _ (by assumption)
    · cases h
  · obtain ⟨_, h⟩ := needs_next h
    cases next_inj h; exact .halved (by assumption)
  · unfold packPixel at h
    split at h
    · split at h
      · cases next_inj h; exact .pixel (by assumption) (by assumption) _ (by assumption)
      · cases h
    · cases next_inj h; exact .packed (by assumption) (by assumption)
  all_goals cases h

/-- What a token makes of the state `s` in which it was read. -/
inductive TokenMove (s : State) : Instr → State → Prop where
  | magic (h : s.point = .magic) : TokenMove s .hdrMagic (s.goto .nx)
  | nx (h : s.point = .nx) (v : Word) : TokenMove s (.hdrNx v) (State.goto .ny { s with hdr := { s.hdr with nx := v } })
  | ny (h : s.point = .ny) (v : Word) : TokenMove s (.hdrNy v) (State.goto .scale { s with hdr := { s.hdr with ny := v } })
  | scale (h : s.point = .scale) (v : Word) :
      TokenMove s (.hdrScale v) (State.goto .sumall { s with hdr := { s.hdr with scale := v } })
  | sumall (h : s.point = .sumall) (v : Word) :
      TokenMove s (.hdrSumall v) (State.goto .nbp0 { s with hdr := { s.hdr with sumall := v } })
  | nbp0 (h : s.point = .nbp0) (n : Byte) :
      TokenMove s (.hdrNbp0 n) (State.goto .nbp1 { s with hdr := { s.hdr with nbp0 := n } })
  | nbp1 (h : s.point = .nbp1) (n : Byte) :
      TokenMove s (.hdrNbp1 n) (State.goto .nbp2 { s with hdr := { s.hdr with nbp1 := n } })
  | nbp2 (h : s.point = .nbp2) (n : Byte) :
      TokenMove s (.hdrNbp2 n) (State.goto .admitHdr (captureHeader { s with hdr := { s.hdr with nbp2 := n } }))
  | direct (h : s.point = .fmt) :
      TokenMove s .fmtD
        (State.goto .direct { s with qt := { s.qt with b := 0, t := 0 }, stage := .direct s.qt.q s.qt.bit })
  | emptyQuadrant (h : s.point = .fmt) (he : s.qt.nqx = 0 ∨ s.qt.nqy = 0) :
      TokenMove s .fmtQ
        (refuse .emptyQuadrantQuadtree { s with qt := { s.qt with b := 15 }, stage := .qtree s.qt.q s.qt.bit })
  | quadtree (h : s.point = .fmt) (he : ¬ (s.qt.nqx = 0 ∨ s.qt.nqy = 0)) :
      TokenMove s .fmtQ
        (State.goto .top
          { s with
            qt := { s.qt with b := 15, L := ceilLog2 (max s.qt.nqx s.qt.nqy) }
            stage := .qtree s.qt.q s.qt.bit })
  | badFormat (h : s.point = .fmt) (f : Nibble) :
      TokenMove s (.fmtIllegal f) (raise .badFormatCode { s with qt := { s.qt with b := f.toNat } })
  | nibble (h : s.point = .nyb) (v : Nibble) (hi : s.qt.t < s.S.size) :
      TokenMove s (.nyb v)
        (State.goto .direct { s with S := s.S.putEntry s.qt.t v, qt := { s.qt with t := s.qt.t + 1 } })
  | top (h : s.point = .top) (i : Instr) (v : Nibble) (hv : i.hufValue = some v) (hi : 0 < s.S.size) :
      TokenMove s i
        (State.goto .level
          { s with
            S := s.S.putEntry 0 v
            qt := { s.qt with ex := 1, ey := 1, fx := s.qt.nqx, fy := s.qt.nqy, c := 2 ^ s.qt.L, k := 1 } })
  | expanded (h : s.point = .huf) (i : Instr) (v : Nibble) (hv : i.hufValue = some v) (hi : s.qt.t < s.S.size) :
      TokenMove s i (State.goto .expand { s with S := s.S.putEntry s.qt.t v })
  | term (h : s.point = .term) : TokenMove s .term (s.goto .pad1)
  | badTerminator (h : s.point = .term) (f : Nibble) : TokenMove s (.termIllegal f) (raise .badBitplaneTerminator s)
  | keep (h : s.point = .sgn) (b : BitVec 1) (hb : b ≠ 1) (hi : s.gi < s.A.size) :
      TokenMove s (.sgn b) (State.goto .sign { s with gi := s.gi + 1 })
  | negate (h : s.point = .sgn) (hi : s.gi < s.A.size) :
      TokenMove s (.sgn 1)
        (State.goto .sign { s with A := s.A.setEntry s.gi (-s.A.entry s.gi), gi := s.gi + 1 })
  | pad1 (h : s.point = .pad1) (len : Fin 8) (p : BitVec 7) : TokenMove s (.pad len p) (s.goto .align2)
  | pad2 (h : s.point = .pad2) (len : Fin 8) (p : BitVec 7) : TokenMove s (.pad len p) (s.goto .setDC)
  | align1 (h : s.point = .align1) :
      TokenMove s .align (State.goto .quad { s with qt := { s.qt with q := 0 }, btg := 0 })
  | align2 (h : s.point = .align2) :
      TokenMove s .align (State.goto .sign { s with stage := .signs, gi := 0, btg := 0 })

/-- The positions that read a token of place `k`. -/
def standsAt (k : Slot) (p : Point) : Prop :=
  match k with
  | .magic => p = .magic
  | .nx => p = .nx
  | .ny => p = .ny
  | .scale => p = .scale
  | .sumall => p = .sumall
  | .nbp0 => p = .nbp0
  | .nbp1 => p = .nbp1
  | .nbp2 => p = .nbp2
  | .fmt => p = .fmt
  | .nyb => p = .nyb
  | .huf => p = .top ∨ p = .huf
  | .term => p = .term
  | .sgn => p = .sgn
  | .pad => p = .pad1 ∨ p = .pad2
  | .align => p = .align1 ∨ p = .align2

theorem slot_point {p : Point} {k : Slot} (h : p.slot = some k) : standsAt k p := by
  cases p <;> simp only [Point.slot, Option.some.injEq, reduceCtorEq] at h <;> subst h <;>
    first | rfl | exact .inl rfl | exact .inr rfl

theorem storeHuf_next {i : Instr} {v : Nibble} {s t : State} (hv : i.hufValue = some v) (h : storeHuf v s = .next t) :
    TokenMove s i t := by
  obtain ⟨hs, h⟩ := inSlot_next h
  obtain ⟨_, h⟩ := needs_next h
  have hp := slot_point hs
  by_cases ht : s.point = .top
  · rw [if_pos ht, storeTop, writeScratch_eq] at h
    by_cases hi : 0 < s.S.size
    · rw [if_pos hi] at h
      cases next_inj h
      exact .top ht i v hv hi
    · rw [if_neg hi] at h; cases h
  · rw [if_neg ht, storeExpanded, writeScratch_eq] at h
    by_cases hi : s.qt.t < s.S.size
    · rw [if_pos hi] at h
      cases next_inj h
      exact .expanded (Or.resolve_left hp ht) i v hv hi
    · rw [if_neg hi] at h; cases h

theorem execSgn_next {b : BitVec 1} {s t : State} (h : execSgn b s = .next t) : TokenMove s (.sgn b) t := by
  obtain ⟨hs, h⟩ := inSlot_next h
  have hp := slot_point hs
  rw [readGrid_eq] at h
  split at h
  · cases h
  · rename_i hr
    split at hr
    · rename_i hi
      cases hr
      by_cases hb : b = 1
      · subst hb
        rw [if_pos rfl, writeGrid_ok hi] at h
        cases next_inj h
        exact .negate hp hi
      · rw [if_neg hb] at h
        cases next_inj h
        exact .keep hp b hb hi
    · cases hr

theorem exec_next {i : Instr} {s t : State} (h : exec i s = .next t) : TokenMove s i t := by
  cases i
  case hdrMagic =>
    obtain ⟨hs, h⟩ := inSlot_next h
    cases next_inj h; exact .magic (slot_point hs)
  case hdrNx v =>
    obtain ⟨hs, h⟩ := inSlot_next h
    cases next_inj h; exact .nx (slot_point hs) v
  case hdrNy v =>
    obtain ⟨hs, h⟩ := inSlot_next h
    cases next_inj h; exact .ny (slot_point hs) v
  case hdrScale v =>
    obtain ⟨hs, h⟩ := inSlot_next h
    cases next_inj h; exact .scale (slot_point hs) v
  case hdrSumall v =>
    obtain ⟨hs, h⟩ := inSlot_next h
    cases next_inj h; exact .sumall (slot_point hs) v
  case hdrNbp0 n =>
    obtain ⟨hs, h⟩ := inSlot_next h
    cases next_inj h; exact .nbp0 (slot_point hs) n
  case hdrNbp1 n =>
    obtain ⟨hs, h⟩ := inSlot_next h
    cases next_inj h; exact .nbp1 (slot_point hs) n
  case hdrNbp2 n =>
    obtain ⟨hs, h⟩ := inSlot_next h
    cases next_inj h; exact .nbp2 (slot_point hs) n
  case fmtD =>
    obtain ⟨hs, h⟩ := inSlot_next h
    obtain ⟨_, h⟩ := needs_next h
    cases next_inj h; exact .direct (slot_point hs)
  case fmtQ =>
    obtain ⟨hs, h⟩ := inSlot_next h
    obtain ⟨_, h⟩ := needs_next h
    simp only at h
    split at h
    · cases next_inj h; exact .emptyQuadrant (slot_point hs) (by assumption)
    · cases next_inj h; exact .quadtree (slot_point hs) (by assumption)
  case fmtIllegal f =>
    obtain ⟨hs, h⟩ := inSlot_next h
    cases next_inj h; exact .badFormat (slot_point hs) f
  case nyb v =>
    obtain ⟨hs, h⟩ := inSlot_next h
    obtain ⟨_, h⟩ := needs_next h
    rw [writeScratch_eq] at h
    split at h
    · rename_i hb
      split at hb
      · cases hb; cases next_inj h; exact .nibble (slot_point hs) v (by assumption)
      · cases hb
    · cases h
  case term =>
    obtain ⟨hs, h⟩ := inSlot_next h
    cases next_inj h; exact .term (slot_point hs)
  case termIllegal f =>
    obtain ⟨hs, h⟩ := inSlot_next h
    cases next_inj h; exact .badTerminator (slot_point hs) f
  case sgn b => exact execSgn_next h
  case pad len p =>
    obtain ⟨hs, h⟩ := inSlot_next h
    rcases slot_point hs with hp | hp <;> simp only [hp, if_true, reduceCtorEq, if_false] at h <;> cases next_inj h
    · exact .pad1 hp len p
    · exact .pad2 hp len p
  case align =>
    obtain ⟨hs, h⟩ := inSlot_next h
    rcases slot_point hs with hp | hp
    · rw [if_pos hp] at h
      cases next_inj h
      exact .align1 hp
    · rw [if_neg (by rw [hp]; decide)] at h
      cases next_inj h
      exact .align2 hp
  all_goals exact storeHuf_next rfl h

/-- What a fetch that gives no token makes of the session: an error raised where the cursor has come to. -/
inductive FetchEnd (s : State) : State → Prop where
  | exhausted (u : State) (hm : Moved s u) (he : s.input.length ≤ u.pos) : FetchEnd s (raise .streamExhausted u)
  | badMagic (hp : s.point = .magic) (u : State) (hm : Moved s u) : FetchEnd s (raise .badMagicNumber u)

/-- What one step of the engine makes of `s`. -/
inductive StepMove (s : State) : State → Prop where
  | op {t : State} (h : EngineMove s t) : StepMove s t
  | token {t : State} (i : Instr) (u : State) (hs : s.point.slot = some i.slot) (hm : Moved s u)
      (hb : ∀ n, fieldBytes i.slot = some n → u.pos = s.pos + n ∧ u.btg = s.btg) (h : TokenMove u i t) : StepMove s t
  | ended {t : State} (k : Slot) (hs : s.point.slot = some k) (h : FetchEnd s t) : StepMove s t

theorem engineEvent_next {s t : State} (h : (engineEvent s).run = .next t) : StepMove s t := by
  unfold engineEvent at h
  split at h
  · rename_i k hs
    rcases fetchToken_cases k s with ⟨u, ⟨hm, hl⟩, he⟩ | ⟨p, i, u, hr, hd, hm, hi, he⟩ | ⟨hk, p, u, hr, hm, he⟩ | ⟨_, he⟩
    · rw [he] at h
      cases next_inj h
      exact .ended k hs (.exhausted u hm hl)
    · rw [he] at h
      subst hi
      refine .token i u hs hm (fun n hn => ?_) (exec_next h)
      have := readToken_header hn s
      rw [hr] at this
      exact this
    · rw [he] at h
      cases next_inj h
      subst hk
      exact .ended .magic hs (.badMagic (slot_point hs) u hm)
    · rw [he] at h; cases h
  · exact .op (engineOp_next h)

/-- A step that goes on: the engine's, with nothing or a `wait` taken off the plan, or a transaction of the host. -/
theorem step_next {s t : State} (h : step s = .next t) :
    (s.plan = [] ∧ StepMove s t) ∨
    (∃ rest, s.plan = .wait :: rest ∧ StepMove { s with plan := rest } t) ∨
    (∃ m rest, s.plan = m :: rest ∧ m ≠ .wait ∧ hostMove m { s with plan := rest } = .next t) := by
  rcases step_cases s with ⟨hp, he⟩ | ⟨rest, hp, he⟩ | ⟨m, rest, hp, hm, he⟩
  · exact .inl ⟨hp, engineEvent_next (he ▸ h)⟩
  · exact .inr (.inl ⟨rest, hp, engineEvent_next (he ▸ h)⟩)
  · exact .inr (.inr ⟨m, rest, hp, hm, he ▸ h⟩)

end Sys2Proof.Machine
end

