-- ==== Sys2Proof/Laws/PerInstr.lean ====
section
/-! SUPPORT. The per-instruction family `EncodingFits`: a well-formed token's bits fit the width its encoding gives it (R71 to R84). -/

namespace Sys2Proof.Laws.EncodingFits

/-- The value of a well-formed token's encoding has no bit above its width. -/
def Statement (i : Instr) : Prop := i.wellFormed = true → (encode i).2 < 2 ^ (encode i).1

theorem hdrMagic : Statement .hdrMagic := fun _ => by decide
theorem hdrNx (v : Word) : Statement (.hdrNx v) := fun _ => v.isLt
theorem hdrNy (v : Word) : Statement (.hdrNy v) := fun _ => v.isLt
theorem hdrScale (v : Word) : Statement (.hdrScale v) := fun _ => v.isLt
theorem hdrSumall (v : Word) : Statement (.hdrSumall v) := fun _ => v.isLt
theorem hdrNbp0 (n : Byte) : Statement (.hdrNbp0 n) := fun _ => n.isLt
theorem hdrNbp1 (n : Byte) : Statement (.hdrNbp1 n) := fun _ => n.isLt
theorem hdrNbp2 (n : Byte) : Statement (.hdrNbp2 n) := fun _ => n.isLt
theorem fmtD : Statement .fmtD := fun _ => by decide
theorem fmtQ : Statement .fmtQ := fun _ => by decide
theorem fmtIllegal (f : Nibble) : Statement (.fmtIllegal f) := fun _ => f.isLt
theorem nyb (v : Nibble) : Statement (.nyb v) := fun _ => v.isLt
theorem huf1 : Statement .huf1 := fun _ => by decide
theorem huf2 : Statement .huf2 := fun _ => by decide
theorem huf4 : Statement .huf4 := fun _ => by decide
theorem huf8 : Statement .huf8 := fun _ => by decide
theorem huf3 : Statement .huf3 := fun _ => by decide
theorem huf5 : Statement .huf5 := fun _ => by decide
theorem huf10 : Statement .huf10 := fun _ => by decide
theorem huf12 : Statement .huf12 := fun _ => by decide
theorem huf15 : Statement .huf15 := fun _ => by decide
theorem huf6 : Statement .huf6 := fun _ => by decide
theorem huf7 : Statement .huf7 := fun _ => by decide
theorem huf9 : Statement .huf9 := fun _ => by decide
theorem huf11 : Statement .huf11 := fun _ => by decide
theorem huf13 : Statement .huf13 := fun _ => by decide
theorem huf0 : Statement .huf0 := fun _ => by decide
theorem huf14 : Statement .huf14 := fun _ => by decide
theorem term : Statement .term := fun _ => by decide
theorem termIllegal (t : Nibble) : Statement (.termIllegal t) := fun _ => t.isLt
theorem sgn (s : BitVec 1) : Statement (.sgn s) := fun _ => s.isLt
theorem pad (len : Fin 8) (p : BitVec 7) : Statement (.pad len p) := fun h => of_decide_eq_true h
theorem align : Statement .align := fun _ => by decide

end Sys2Proof.Laws.EncodingFits
end

