-- ==== Sys2Proof/Laws/Quadtree.lean ====
section
/-! SUPPORT. The quadtree's operations end without a fault: where the geometry of R58 and the levels of R139 put their indices, and that what they read is written. -/

namespace Sys2Proof.Machine

open Sys2Proof.Safety

theorem mul_add_lt {a b A B : Nat} (ha : a < A) (hb : b < B) : a * B + b < A * B := by
  have h1 : (a + 1) * B ≤ A * B := Nat.mul_le_mul_right _ ha
  rw [Nat.add_mul] at h1
  omega

theorem writtenBelow_mono {w : Nat} {b : Bank w} {m n : Nat} (h : WrittenBelow b n) (hmn : m ≤ n) : WrittenBelow b m :=
  fun i hi => h i (lt_of_lt_of_le hi hmn)

theorem writtenBelow_put {w : Nat} {b : Bank w} {m i : Nat} {v : BitVec w} (h : WrittenBelow b m) :
    WrittenBelow (b.putEntry i v) m := by
  intro j hj
  rw [get_putEntry]
  split
  · rfl
  · exact h j hj

theorem writtenBelow_put_next {w : Nat} {b : Bank w} {m : Nat} {v : BitVec w} (h : WrittenBelow b m) :
    WrittenBelow (b.putEntry m v) (m + 1) := by
  intro j hj
  rw [get_putEntry]
  split
  · rfl
  · exact h j (by omega)

/-- `qtreeCopy` ends without a fault when the old grid is written and the new one fits (R140). -/
theorem qtreeCopy_ok {ex ey : Nat} {old : Bank 4} (hw : WrittenBelow old (ceilDiv ex 2 * ceilDiv ey 2))
    (h1 : ceilDiv ex 2 * ceilDiv ey 2 ≤ old.size) (h2 : ex * ey ≤ old.size) :
    ∃ b, qtreeCopy ex ey old = .ok b ∧ b.size = old.size ∧ WrittenBelow b (ex * ey) := by
  obtain ⟨b, hb, hs, hwb⟩ := forEach_range_ok (f := copyEntry old ey)
    (P := fun m (b : Bank 4) => b.size = old.size ∧ WrittenBelow b m) (ex * ey)
    (fun x hx b hP => by
      have hey : 0 < ey := Nat.pos_of_ne_zero (by rintro rfl; simp at hx)
      have hi : x / ey < ex := (Nat.div_lt_iff_lt_mul hey).mpr hx
      have hj : x % ey < ey := Nat.mod_lt _ hey
      have hidx : x / ey / 2 * ceilDiv ey 2 + x % ey / 2 < ceilDiv ex 2 * ceilDiv ey 2 :=
        mul_add_lt (by rw [ceilDiv_two]; omega) (by rw [ceilDiv_two]; omega)
      obtain ⟨v, hv, _⟩ := readScratch_ok (lt_of_lt_of_le hidx h1) (hw _ hidx)
      refine ⟨b.putEntry x (if nibbleBit v (x / ey) (x % ey) then 1 else 0), ?_, hP.1, writtenBelow_put_next hP.2⟩
      unfold copyEntry
      rw [hv]
      exact writeScratch_ok (by rw [hP.1]; omega))
    (a := old) ⟨rfl, fun i hi => absurd hi (Nat.not_lt_zero i)⟩
  exact ⟨b, hb, hs, hwb⟩

/-- `qtreeBitins` ends without a fault, and keeps the grid's size, when its elements lie in the grid and every
nibble is written (R142). -/
theorem qtreeBitins_ok {r : QtRegs} {b : Bank 4} {a : Bank 32}
    (hw : WrittenBelow b (ceilDiv r.nqx 2 * ceilDiv r.nqy 2)) (hmy : r.my = ceilDiv r.nqy 2)
    (hb : ceilDiv r.nqx 2 * ceilDiv r.nqy 2 ≤ b.size)
    (ha : ∀ i j, i < r.nqx → j < r.nqy → r.off + i * r.n + j < a.size) :
    ∃ c, qtreeBitins r b a = .ok c ∧ c.size = a.size := by
  refine forEach_ok (P := fun c : Bank 32 => c.size = a.size) (fun i hi c hc => ?_) rfl
  refine forEach_ok (P := fun c : Bank 32 => c.size = a.size) (fun j hj c hc => ?_) hc
  have hi := List.mem_range.mp hi
  have hj := List.mem_range.mp hj
  have hidx : i / 2 * r.my + j / 2 < ceilDiv r.nqx 2 * ceilDiv r.nqy 2 := by
    rw [hmy]
    exact mul_add_lt (by rw [ceilDiv_two]; omega) (by rw [ceilDiv_two]; omega)
  obtain ⟨v, hv, _⟩ := readScratch_ok (lt_of_lt_of_le hidx hb) (hw _ hidx)
  have hin : r.off + i * r.n + j < c.size := by rw [hc]; exact ha i j hi hj
  refine ⟨c.setEntry (r.off + i * r.n + j) (c.entry (r.off + i * r.n + j) |||
    ((BitVec.ofBool (nibbleBit v i j)).setWidth 32 <<< r.bit)), ?_, hc⟩
  unfold insertBit
  rw [hv]
  simp only [readGrid_ok hin]
  exact writeGrid_ok hin

/-- A quadrant lies in the grid (R58). -/
theorem quadrant_inside {h : HdrRegs} {q : Fin 4} {i j : Nat} (hi : i < (quadrantOf h q).nqx)
    (hj : j < (quadrantOf h q).nqy) : (quadrantOf h q).off + i * h.cols + j < h.rows * h.cols := by
  have key : ∀ r c, r < h.rows → c < h.cols → r * h.cols + c < h.rows * h.cols := fun r c => mul_add_lt
  have e2 : ceilDiv h.rows 2 = (h.rows + 1) / 2 := rfl
  have e3 : ceilDiv h.cols 2 = (h.cols + 1) / 2 := rfl
  match q with
  | 0 =>
    simp only [quadrantOf, e2, e3] at hi hj ⊢
    rw [Nat.zero_add]
    exact key i j (by omega) (by omega)
  | 1 =>
    simp only [quadrantOf, e2, e3] at hi hj ⊢
    have := key i ((h.cols + 1) / 2 + j) (by omega) (by omega)
    omega
  | 2 =>
    simp only [quadrantOf, e2, e3] at hi hj ⊢
    have := key ((h.rows + 1) / 2 + i) j (by omega) (by omega)
    rw [Nat.add_mul, Nat.mul_comm ((h.rows + 1) / 2)] at this
    omega
  | 3 =>
    simp only [quadrantOf, e2, e3] at hi hj ⊢
    have := key ((h.rows + 1) / 2 + i) ((h.cols + 1) / 2 + j) (by omega) (by omega)
    rw [Nat.add_mul, Nat.mul_comm ((h.rows + 1) / 2)] at this
    omega

/-- A quadrant has at most 32 bitplanes once the header is admitted (R131). -/
theorem quadrant_planes {cfg : Config.Params} {h : HdrRegs} (ha : admission cfg h = none) (q : Fin 4) :
    (quadrantOf h q).P ≤ 32 := by
  obtain ⟨-, -, -, -, -, h0, h1, h2⟩ := admission_none ha
  match q with
  | 0 => exact h0
  | 1 => exact h1
  | 2 => exact h1
  | 3 => exact h2

end Sys2Proof.Machine
end

