-- ==== Sys2Proof/Laws/Transform.lean ====
section
/-! SUPPORT. The transform's operations end without a fault inside the grid, and keep the sizes of `A` and `T` and the registers they do not own. -/

namespace Sys2Proof.Machine

open Sys2Proof.Safety

/-- `unshuffle` ends without a fault when the line lies in the grid and `T` holds half of it (R175). -/
theorem unshuffle_ok {base n stride : Nat} {m : Bank 32 × Bank 32}
    (ha : ∀ i, i < n → base + stride * i < m.1.size) (ht : n / 2 ≤ m.2.size) :
    ∃ m', unshuffle base n stride m = .ok m' ∧ m'.1.size = m.1.size ∧ m'.2.size = m.2.size := by
  have hhalf : n - (n + 1) / 2 = n / 2 := by omega
  obtain ⟨t, ht1, hts, htw⟩ := forEach_range_ok (f := saveHalf m.1 base ((n + 1) / 2) stride)
    (P := fun k (t : Bank 32) => t.size = m.2.size ∧ WrittenBelow t k) (n - (n + 1) / 2)
    (fun i hi t hP => by
      refine ⟨t.putEntry i (m.1.entry (base + stride * ((n + 1) / 2 + i))), ?_, hP.1, ?_⟩
      · unfold saveHalf
        rw [readGrid_ok (ha _ (by omega))]
        exact writeScratch_ok (by rw [hP.1]; omega)
      · intro j hj
        rw [get_putEntry]
        split
        · rfl
        · exact hP.2 j (by omega))
    (a := m.2) ⟨rfl, fun i hi => absurd hi (Nat.not_lt_zero i)⟩
  obtain ⟨a, ha1, has⟩ := forEach_ok (f := spreadHalf base stride)
    (is := (List.range ((n + 1) / 2)).reverse)
    (P := fun a : Bank 32 => a.size = m.1.size)
    (fun i hi a hP => by
      have hi := List.mem_range.mp (List.mem_reverse.mp hi)
      refine ⟨a.setEntry (base + stride * (2 * i)) (a.entry (base + stride * i)), ?_, hP⟩
      unfold spreadHalf
      rw [readGrid_ok (by rw [hP]; exact ha i (by omega))]
      exact writeGrid_ok (by rw [hP]; exact ha (2 * i) (by omega)))
    (a := m.1) rfl
  obtain ⟨c, hc1, hcs⟩ := forEach_ok (f := placeHalf t base stride)
    (is := List.range (n - (n + 1) / 2))
    (P := fun a : Bank 32 => a.size = m.1.size)
    (fun i hi a hP => by
      have hi := List.mem_range.mp hi
      obtain ⟨v, hv, _⟩ := readScratch_ok (b := t) (i := i) (by rw [hts]; omega) (htw i hi)
      refine ⟨a.setEntry (base + stride * (2 * i + 1)) v, ?_, hP⟩
      unfold placeHalf
      rw [hv]
      exact writeGrid_ok (by rw [hP]; exact ha (2 * i + 1) (by omega)))
    (a := a) has
  exact ⟨(c, t), by simp [unshuffle, ht1, ha1, hc1], hcs, hts⟩

/-- An element of the block lies in the grid. -/
theorem block_inside {rows cols i j : Nat} (hi : i < rows) (hj : j < cols) : cols * i + j < rows * cols := by
  have h1 : (i + 1) * cols ≤ rows * cols := Nat.mul_le_mul_right _ hi
  rw [Nat.add_mul, Nat.mul_comm i cols] at h1
  omega

/-- `unshuffleLevel` ends without a fault on a block inside the grid (R176). -/
theorem unshuffleLevel_ok {rows cols nxtop nytop : Nat} {m : Bank 32 × Bank 32}
    (hx : nxtop ≤ rows) (hy : nytop ≤ cols) (ha : m.1.size = rows * cols)
    (ht : ceilDiv (max rows cols) 2 = m.2.size) :
    ∃ m', unshuffleLevel cols nxtop nytop m = .ok m' ∧ m'.1.size = m.1.size ∧ m'.2.size = m.2.size := by
  have htb : ∀ n, n ≤ max rows cols → n / 2 ≤ m.2.size := by
    intro n hn; rw [← ht, ceilDiv_two]; omega
  obtain ⟨m1, h1, hs1, ht1⟩ := forEach_ok (f := fun i m => unshuffle (cols * i) nytop 1 m) (is := List.range nxtop)
    (P := fun m' : Bank 32 × Bank 32 => m'.1.size = m.1.size ∧ m'.2.size = m.2.size)
    (fun i hi m' hP => by
      have hi := List.mem_range.mp hi
      obtain ⟨m2, h2, e1, e2⟩ := unshuffle_ok (base := cols * i) (n := nytop) (stride := 1) (m := m')
        (fun j hj => by rw [hP.1, ha, Nat.one_mul]; exact block_inside (by omega) (by omega))
        (by rw [hP.2]; exact htb _ (by omega))
      exact ⟨m2, h2, by rw [e1, hP.1], by rw [e2, hP.2]⟩)
    (a := m) ⟨rfl, rfl⟩
  obtain ⟨m2, h2, hs2, ht2⟩ := forEach_ok (f := fun j m => unshuffle j nxtop cols m) (is := List.range nytop)
    (P := fun m' : Bank 32 × Bank 32 => m'.1.size = m.1.size ∧ m'.2.size = m.2.size)
    (fun j hj m' hP => by
      have hj := List.mem_range.mp hj
      obtain ⟨m2, h2, e1, e2⟩ := unshuffle_ok (base := j) (n := nxtop) (stride := cols) (m := m')
        (fun i hi => by rw [hP.1, ha, Nat.add_comm]; exact block_inside (by omega) (by omega))
        (by rw [hP.2]; exact htb _ (by omega))
      exact ⟨m2, h2, by rw [e1, hP.1], by rw [e2, hP.2]⟩)
    (a := m1) ⟨hs1, ht1⟩
  exact ⟨m2, by simp [unshuffleLevel, h1, h2], hs2, ht2⟩

/-- The registers a combine leaves alone: all but `h0`, `hx`, `hy`, `hc`, `lowbit0`, `lowbit1`. -/
def SameLevel (r r' : HtRegs) : Prop :=
  r' = { r with lowbit0 := r'.lowbit0, lowbit1 := r'.lowbit1, h0 := r'.h0, hx := r'.hx, hy := r'.hy, hc := r'.hc }

theorem SameLevel.refl (r : HtRegs) : SameLevel r r := rfl

theorem SameLevel.trans {r r' r'' : HtRegs} (h : SameLevel r r') (h' : SameLevel r' r'') : SameLevel r r'' := by
  unfold SameLevel at h h' ⊢
  rw [h] at h'
  exact h'

/-- What a combine step keeps: the size of the grid, and the registers it does not own. -/
def Combined (m m' : HtRegs × Bank 32) : Prop := SameLevel m.1 m'.1 ∧ m'.2.size = m.2.size

theorem Combined.refl (m : HtRegs × Bank 32) : Combined m m := ⟨rfl, rfl⟩

theorem Combined.trans {m m' m'' : HtRegs × Bank 32} (h : Combined m m') (h' : Combined m' m'') : Combined m m'' :=
  ⟨h.1.trans h'.1, h'.2.trans h.2⟩

theorem combineBlock_ok {ny s00 : Nat} {m : HtRegs × Bank 32} (h : s00 + ny + 1 < m.2.size) :
    ∃ m', combineBlock ny s00 m = .ok m' ∧ Combined m m' := by
  have e0 := readGrid_ok (b := m.2) (i := s00) (by omega)
  have e1 := readGrid_ok (b := m.2) (i := s00 + ny) (by omega)
  have e2 := readGrid_ok (b := m.2) (i := s00 + 1) (by omega)
  have e3 := readGrid_ok (b := m.2) (i := s00 + ny + 1) (by omega)
  unfold combineBlock
  simp only [e0, e1, e2, e3, bind, Except.bind]
  rw [writeGrid_ok (by omega)]
  simp only
  rw [writeGrid_ok (by simp only [setEntry_size]; omega)]
  simp only
  rw [writeGrid_ok (by simp only [setEntry_size]; omega)]
  simp only
  rw [writeGrid_ok (by simp only [setEntry_size]; omega)]
  exact ⟨_, rfl, rfl, rfl⟩

theorem combineOddY_ok {ny s00 : Nat} {m : HtRegs × Bank 32} (h : s00 + ny < m.2.size) :
    ∃ m', combineOddY ny s00 m = .ok m' ∧ Combined m m' := by
  have e0 := readGrid_ok (b := m.2) (i := s00) (by omega)
  have e1 := readGrid_ok (b := m.2) (i := s00 + ny) (by omega)
  unfold combineOddY
  simp only [e0, e1, bind, Except.bind]
  rw [writeGrid_ok (by omega)]
  simp only
  rw [writeGrid_ok (by simp only [setEntry_size]; omega)]
  exact ⟨_, rfl, rfl, rfl⟩

theorem combineOddX_ok {s00 : Nat} {m : HtRegs × Bank 32} (h : s00 + 1 < m.2.size) :
    ∃ m', combineOddX s00 m = .ok m' ∧ Combined m m' := by
  have e0 := readGrid_ok (b := m.2) (i := s00) (by omega)
  have e1 := readGrid_ok (b := m.2) (i := s00 + 1) (by omega)
  unfold combineOddX
  simp only [e0, e1, bind, Except.bind]
  rw [writeGrid_ok (by omega)]
  simp only
  rw [writeGrid_ok (by simp only [setEntry_size]; omega)]
  exact ⟨_, rfl, rfl, rfl⟩

theorem combineCorner_ok {s00 : Nat} {m : HtRegs × Bank 32} (h : s00 < m.2.size) :
    ∃ m', combineCorner s00 m = .ok m' ∧ Combined m m' := by
  unfold combineCorner
  simp only [readGrid_ok h, bind, Except.bind]
  rw [writeGrid_ok h]
  exact ⟨_, rfl, rfl, rfl⟩

theorem SameLevel.fields {r r' : HtRegs} (h : SameLevel r r') :
    r'.nxtop = r.nxtop ∧ r'.nytop = r.nytop ∧ r'.oddx = r.oddx ∧ r'.oddy = r.oddy := by
  unfold SameLevel at h
  rw [h]
  exact ⟨rfl, rfl, rfl, rfl⟩

/-- The extents and parities of a level, which lies inside the grid. -/
def LevelInside (rows cols : Nat) (m : HtRegs × Bank 32) : Prop :=
  m.1.nxtop ≤ rows ∧ m.1.nytop ≤ cols ∧ m.1.oddx = m.1.nxtop % 2 ∧ m.1.oddy = m.1.nytop % 2 ∧
    m.2.size = rows * cols

theorem LevelInside.of_combined {rows cols : Nat} {m m' : HtRegs × Bank 32} (h : LevelInside rows cols m)
    (hc : Combined m m') : LevelInside rows cols m' := by
  obtain ⟨e1, e2, e3, e4⟩ := hc.1.fields
  unfold LevelInside at h ⊢
  rw [e1, e2, e3, e4, hc.2]
  exact h

/-- A loop of combine steps ends without a fault when each step does. -/
theorem combineLoop_ok {rows cols : Nat} {f : Nat → HtRegs × Bank 32 → Except Fault (HtRegs × Bank 32)} {is : List Nat}
    {m : HtRegs × Bank 32} (hm : LevelInside rows cols m)
    (hf : ∀ i, i ∈ is → ∀ m', LevelInside rows cols m' → Combined m m' → ∃ m'', f i m' = .ok m'' ∧ Combined m' m'') :
    ∃ m', forEach f is m = .ok m' ∧ Combined m m' :=
  forEach_ok (P := fun m' => Combined m m')
    (fun i hi m' hc => by
      obtain ⟨m'', h1, h2⟩ := hf i hi m' (hm.of_combined hc) hc
      exact ⟨m'', h1, hc.trans h2⟩)
    (Combined.refl m)

theorem combineRows_ok {rows cols i : Nat} {m : HtRegs × Bank 32} (hm : LevelInside rows cols m)
    (hi : i + 1 < m.1.nxtop) : ∃ m', combineRows cols i m = .ok m' ∧ Combined m m' := by
  have hpos : m.1.nytop ≤ cols := hm.2.1
  obtain ⟨m1, h1, c1⟩ := combineLoop_ok (f := fun j m => combineBlock cols (cols * i + j) m)
    (is := evensBelow (m.1.nytop - m.1.oddy)) hm
    (fun j hj m' hm' hc => by
      have hj := mem_evensBelow.mp hj
      have hodd := hm.2.2.2.1
      apply combineBlock_ok
      have := block_inside (rows := rows) (cols := cols) (i := i + 1) (j := j + 1) (by have := hm.1; omega) (by omega)
      rw [hm'.2.2.2.2]
      rw [Nat.mul_add] at this
      omega)
  unfold combineRows
  rw [h1]
  simp only
  by_cases hodd : m1.1.oddy = 1
  · simp only [hodd, if_true]
    have hm1 := hm.of_combined c1
    obtain ⟨m2, h2, c2⟩ := combineOddY_ok (ny := cols) (s00 := cols * i + (m1.1.nytop - 1)) (m := m1) (by
      have e1 := c1.1.fields
      have := hm1.2.2.2.1
      have := block_inside (rows := rows) (cols := cols) (i := i + 1) (j := m1.1.nytop - 1)
        (by have := hm.1; omega) (by omega)
      rw [hm1.2.2.2.2]
      rw [Nat.mul_add] at this
      omega)
    exact ⟨m2, h2, c1.trans c2⟩
  · simp only [hodd, if_false]
    exact ⟨m1, rfl, c1⟩

theorem combineLastRow_ok {rows cols : Nat} {m : HtRegs × Bank 32} (hm : LevelInside rows cols m)
    (hx : 0 < m.1.nxtop) : ∃ m', combineLastRow cols m = .ok m' ∧ Combined m m' := by
  obtain ⟨m1, h1, c1⟩ := combineLoop_ok (f := fun j m' => combineOddX (cols * (m.1.nxtop - 1) + j) m')
    (is := evensBelow (m.1.nytop - m.1.oddy)) hm
    (fun j hj m' hm' hc => by
      have hj := mem_evensBelow.mp hj
      have hodd := hm.2.2.2.1
      have hy := hm.2.1
      apply combineOddX_ok
      have := block_inside (rows := rows) (cols := cols) (i := m.1.nxtop - 1) (j := j + 1)
        (by have := hm.1; omega) (by omega)
      rw [hm'.2.2.2.2]
      omega)
  unfold combineLastRow
  simp only
  rw [h1]
  simp only
  by_cases hodd : m1.1.oddy = 1
  · simp only [hodd, if_true]
    have hm1 := hm.of_combined c1
    obtain ⟨m2, h2, c2⟩ := combineCorner_ok (s00 := cols * (m.1.nxtop - 1) + (m1.1.nytop - 1)) (m := m1) (by
      have := hm1.2.2.2.1
      have := hm1.2.1
      rw [hm1.2.2.2.2]
      exact block_inside (by have := hm.1; omega) (by omega))
    exact ⟨m2, h2, c1.trans c2⟩
  · simp only [hodd, if_false]
    exact ⟨m1, rfl, c1⟩

/-- `combineLevel` ends without a fault on a block inside the grid, and changes only the entries and the registers
of R177 and R181. -/
theorem combineLevel_ok {rows cols : Nat} {m : HtRegs × Bank 32} (hx : m.1.nxtop ≤ rows) (hy : m.1.nytop ≤ cols)
    (ha : m.2.size = rows * cols) :
    ∃ m', combineLevel cols m = .ok m' ∧ m'.2.size = m.2.size ∧
      SameLevel { m.1 with oddx := m.1.nxtop % 2, oddy := m.1.nytop % 2 } m'.1 := by
  have hm : LevelInside rows cols ({ m.1 with oddx := m.1.nxtop % 2, oddy := m.1.nytop % 2 }, m.2) :=
    ⟨hx, hy, rfl, rfl, ha⟩
  obtain ⟨m1, h1, c1⟩ := combineLoop_ok (f := combineRows cols) (is := evensBelow (m.1.nxtop - m.1.nxtop % 2)) hm
    (fun i hi m' hm' hc => by
      have hi := mem_evensBelow.mp hi
      apply combineRows_ok hm'
      have e : m'.1.nxtop = m.1.nxtop := hc.1.fields.1
      rw [e]
      omega)
  unfold combineLevel
  simp only
  rw [h1]
  simp only
  by_cases hodd : m1.1.oddx = 1
  · simp only [hodd, if_true]
    have hm1 := hm.of_combined c1
    obtain ⟨m2, h2, c2⟩ := combineLastRow_ok hm1 (by have := hm1.2.2.1; omega)
    exact ⟨m2, h2, (c1.trans c2).2, (c1.trans c2).1⟩
  · simp only [hodd, if_false]
    exact ⟨m1, rfl, c1.2, c1.1⟩

/-- The undigitize step ends without a fault and keeps the grid's size (R200). -/
theorem scaleGrid_ok (scale : Word) (a : Bank 32) : ∃ c, scaleGrid scale a = .ok c ∧ c.size = a.size := by
  unfold scaleGrid
  split
  · refine forEach_ok (P := fun c : Bank 32 => c.size = a.size) (fun i hi c hc => ?_) rfl
    have hi : i < c.size := by rw [hc]; exact List.mem_range.mp hi
    refine ⟨c.setEntry i (c.entry i * scale), ?_, hc⟩
    unfold scaleEntry
    rw [readGrid_ok hi]
    exact writeGrid_ok hi
  · exact ⟨a, rfl, rfl⟩

end Sys2Proof.Machine
end

