-- ==== Sys2Proof/Tests/Slice0.lean ====
section
/-! SUPPORT. Checks of the model on fixed values, each expectation from the spec's rules and vectors (95_test_vectors.md), and for every statement that has hypotheses a state that meets them, clause by clause. -/

namespace Sys2Proof.Tests

open Sys2Proof.Machine Sys2Proof.Safety

/-! ### Small states -/

/-- The state of an outcome that goes on. -/
def after (r : Result) : Option State :=
  match r with
  | .next t => some t
  | .fault _ => none
  | .refused _ => none

/-- The value and the cursor of a read. -/
def readOf {α : Type} (r : Read α) : Option α × Nat × Nat :=
  match r with
  | .got a s => (some a, s.pos, s.btg)
  | .exhausted s => (none, s.pos, s.btg)

/-- The state after reset over the input `bytes`. -/
def onBytes (bytes : List Byte) : State := { State.reset with input := bytes }

/-- The header of an 8×8 image, whose quadrants are 4×4. -/
def hdr8 : HdrRegs := { nx := 8, ny := 8, scale := 2, sumall := 20, nbp0 := 1, nbp1 := 0, nbp2 := 0 }

/-- A running session over an 8×8 image, at position `p`, in bitplane 0 of quadrant 0, with every register group
written. -/
def at8 (p : Point) : State :=
  State.goto p
    { State.reset with
      status := { Status.reset with state := .busy }
      input := [0x0C, 0x40]
      hdr := hdr8
      A := { size := 64, cells := [(0, 3)] }
      S := { size := 4, cells := [(0, 9)] }
      T := Bank.alloc 4
      qt := { enterQuadrant hdr8 QtRegs.reset with planes := 0, L := 2, k := 1, ex := 1, ey := 1, fx := 4, fy := 4, c := 4 }
      ht := initConstants (initLoop hdr8 HtRegs.reset)
      stage := .qtree 0 0
      written := { hdr := true, qt := true, ht := true } }

/-! ### Well-formedness: an ill-formed term for each check -/

theorem test_wellFormed_format :
    Instr.wellFormed (.fmtIllegal 0) = false ∧ Instr.wellFormed (.fmtIllegal 15) = false ∧
    Instr.wellFormed (.fmtIllegal 1) = true ∧ Instr.wellFormed (.fmtIllegal 14) = true := by decide

theorem test_wellFormed_terminator :
    Instr.wellFormed (.termIllegal 0) = false ∧ Instr.wellFormed (.termIllegal 15) = true := by decide

theorem test_wellFormed_pad :
    Instr.wellFormed (.pad 2 4) = false ∧ Instr.wellFormed (.pad 2 3) = true ∧ Instr.wellFormed (.pad 0 1) = false ∧
    Instr.wellFormed (.pad 7 127) = true := by decide

/-! ### Decoding: words written out from R71 to R84, every constructor -/

theorem test_decode_header :
    decode .magic 16 0b1101110110011001 = .ok .hdrMagic ∧ decode .magic 16 0b1001100111011101 = .error .badMagic ∧
    decode .nx 32 0x80000000 = .ok (.hdrNx 0x80000000) ∧ decode .ny 32 0x00000100 = .ok (.hdrNy 256) ∧
    decode .scale 32 0xFFFFFFFE = .ok (.hdrScale (-2)) ∧ decode .sumall 32 0x00000014 = .ok (.hdrSumall 20) ∧
    decode .nbp0 8 0xFF = .ok (.hdrNbp0 255) ∧ decode .nbp1 8 0x20 = .ok (.hdrNbp1 32) ∧
    decode .nbp2 8 0x00 = .ok (.hdrNbp2 0) := by decide

theorem test_decode_planes :
    decode .fmt 4 0b0000 = .ok .fmtD ∧ decode .fmt 4 0b1111 = .ok .fmtQ ∧ decode .fmt 4 0b0001 = .ok (.fmtIllegal 1) ∧
    decode .fmt 4 0b1110 = .ok (.fmtIllegal 14) ∧ decode .nyb 4 0b1010 = .ok (.nyb 10) := by decide

theorem test_decode_huffman_short :
    decode .huf 3 0b000 = .ok .huf1 ∧ decode .huf 3 0b001 = .ok .huf2 ∧ decode .huf 3 0b010 = .ok .huf4 ∧
    decode .huf 3 0b011 = .ok .huf8 ∧ decode .huf 4 0b1000 = .ok .huf3 ∧ decode .huf 4 0b1001 = .ok .huf5 ∧
    decode .huf 4 0b1010 = .ok .huf10 ∧ decode .huf 4 0b1011 = .ok .huf12 ∧ decode .huf 4 0b1100 = .ok .huf15 := by decide

theorem test_decode_huffman_long :
    decode .huf 5 0b11010 = .ok .huf6 ∧ decode .huf 5 0b11011 = .ok .huf7 ∧ decode .huf 5 0b11100 = .ok .huf9 ∧
    decode .huf 5 0b11101 = .ok .huf11 ∧ decode .huf 5 0b11110 = .ok .huf13 ∧ decode .huf 6 0b111110 = .ok .huf0 ∧
    decode .huf 6 0b111111 = .ok .huf14 := by decide

theorem test_decode_rejects :
    decode .huf 3 0b100 = .error .badWidth ∧ decode .huf 4 0b1101 = .error .badWidth ∧
    decode .huf 5 0b11111 = .error .badWidth ∧ decode .sgn 1 2 = .error .badWidth ∧
    decode .pad 8 0 = .error .badWidth := by decide

theorem test_decode_passes :
    decode .term 4 0b0000 = .ok .term ∧ decode .term 4 0b0101 = .ok (.termIllegal 5) ∧ decode .sgn 1 0b0 = .ok (.sgn 0) ∧
    decode .sgn 1 0b1 = .ok (.sgn 1) ∧ decode .pad 4 0b0110 = .ok (.pad 4 6) ∧ decode .align 0 0 = .ok .align := by decide

/-- A table word is read and placed where the next step runs it: the magic of R72, and codewords of R80. -/
theorem test_table_words :
    decodeTableWord 16 0xDD99 = some .hdrMagic ∧ decodeTableWord 32 2 = some (.hdrNx 2) ∧
    decodeTableWord 8 0b11100 = some .huf9 ∧ decodeTableWord 8 0b111111 = some .huf14 ∧
    decodeTableWord 8 0b1111 = some .fmtQ := by decide

theorem test_fetch_word_magic :
    (after (step (State.reset.withFetchWord 16 0xDD99))).map (fun t => (t.point, t.pos)) = some (.nx, 2) := by decide

theorem test_fetch_word_codeword :
    (after (step (State.reset.withFetchWord 8 0b11100))).map (fun t => (t.point, cellsGet t.S.cells 0, t.btg)) =
      some (.level, some 9, 3) := by decide

/-! ### The BitReader (95_test_vectors.md §2.1, §2.2) -/

/-- BR4 -/
theorem test_int32_extremes :
    readOf (nextInt32BE (onBytes [0x80, 0, 0, 0])) = (some 0x80000000, 4, 0) ∧
    readOf (nextInt32BE (onBytes [0x7F, 0xFF, 0xFF, 0xFF])) = (some 0x7FFFFFFF, 4, 0) := by decide

/-- BR6, BR10 -/
theorem test_nybbles :
    readOf ((nextNybble (onBytes [0xF3])).andThen fun a s => (nextNybble s).andThen fun b s => .got (a, b) s) =
      (some (15, 3), 1, 0) ∧
    readOf ((nextNybble (onBytes [0xFF])).andThen fun _ s => nextBits 8 s) = (none, 1, 4) := by decide

/-- BR7: the refill takes `btg` to 13. -/
theorem test_bits_straddle :
    readOf ((nextBits 3 (onBytes [0x12, 0x34])).andThen fun _ s => nextBits 8 s) = (some 145, 2, 5) := by decide

/-- BR8 -/
theorem test_bits_old_and_new :
    readOf (nextBits 4 { onBytes [0x6C] with btg := 3, buf := 0b101 }) = (some 10, 1, 7) := by decide

/-- BR5: the first two bits of `A0`. -/
theorem test_bit_order :
    readOf ((nextBit (onBytes [0xA0])).andThen fun a s => (nextBit s).andThen fun b s => .got (a, b) s) =
      (some (true, false), 1, 6) := by decide

/-- BR9: the residual bits are dropped. -/
theorem test_reset_bit_cursor :
    readOf (nextBit (resetBitCursor { onBytes [0x00, 0x80] with pos := 1, btg := 5 })) = (some true, 2, 7) := by decide

/-- HF1: `001` is 2, and `11101`, across the byte boundary, is 11. -/
theorem test_codeword_straddles :
    readOf ((nextNybble (onBytes [0xF3, 0xDE])).andThen fun _ s => (readCodeword s).andThen fun a s => (readCodeword s).andThen
      fun b s => .got (a, b) s) = (some ((3, 0b001), (5, 0b11101)), 2, 4) := by decide

/-- HF3: the 5th bit of the codeword is missing. -/
theorem test_codeword_exhausted :
    readOf ((nextNybble (onBytes [0xFF])).andThen fun _ s => readCodeword s) = (none, 1, 0) := by decide

/-! ### Tokens, one step each -/

theorem test_magic : (after (exec .hdrMagic (at8 .magic))).map (·.point) = some .nx := by decide

theorem test_nx : (after (exec (.hdrNx (-2)) (at8 .nx))).map (fun t => (t.hdr.nx.toInt, t.hdr.ny)) = some (-2, 8) := by decide

theorem test_ny : (after (exec (.hdrNy 3) (at8 .ny))).map (fun t => (t.hdr.nx, t.hdr.ny)) = some (8, 3) := by decide

theorem test_scale : (after (exec (.hdrScale 0) (at8 .scale))).map (fun t => (t.hdr.scale, t.hdr.sumall)) = some (0, 20) := by
  decide

theorem test_sumall : (after (exec (.hdrSumall 7) (at8 .sumall))).map (fun t => (t.hdr.scale, t.hdr.sumall)) = some (2, 7) := by
  decide

theorem test_nbp0 : (after (exec (.hdrNbp0 255) (at8 .nbp0))).map (fun t => (t.hdr.nbp0, t.status.hdrValid)) =
    some (255, false) := by decide

theorem test_nbp1 : (after (exec (.hdrNbp1 9) (at8 .nbp1))).map (fun t => (t.hdr.nbp0, t.hdr.nbp1)) = some (1, 9) := by decide

/-- R34: the capture comes with the last count. -/
theorem test_nbp2 : (after (exec (.hdrNbp2 4) (at8 .nbp2))).map
    (fun t => (t.status.hdrNx, t.status.hdrNbp0, t.status.hdrNbp2, t.status.hdrValid)) = some (8, 1, 4, true) := by decide

theorem test_fmtD : (after (exec .fmtD (at8 .fmt))).map (fun t => (t.stage, t.qt.t, t.point)) =
    some (.direct 0 0, 0, .direct) := by decide

theorem test_fmtQ : (after (exec .fmtQ (at8 .fmt))).map (fun t => (t.stage, t.qt.L, t.point)) =
    some (.qtree 0 0, 2, .top) := by decide

/-- R143 -/
theorem test_fmtQ_empty :
    (after (exec .fmtQ { at8 .fmt with qt := { (at8 .fmt).qt with nqx := 0 } })).map
      (fun t => (t.status.state, t.status.refuseReason, t.status.errKind)) =
      some (.refused, .emptyQuadrantQuadtree, .none) := by decide

/-- E7: the format nibble 7 in quadrant 0, bitplane 0, with `pos = 22`. -/
theorem test_fmtIllegal :
    (after (exec (.fmtIllegal 7) { at8 .fmt with pos := 22, stage := .fmt 0 0 })).map
      (fun t => (t.status.state, t.status.errKind.code, t.status.errStage, t.status.errPos)) =
      some (.error, 3, .fmt 0 0, 22) := by decide

theorem test_nyb : (after (exec (.nyb 12) { at8 .nyb with qt := { (at8 .nyb).qt with t := 3 } })).map
    (fun t => (cellsGet t.S.cells 3, cellsGet t.S.cells 0, t.qt.t)) = some (some 12, some 9, 4) := by decide

/-- The value a Huffman token leaves at the top of the quadtree (R138). -/
def topValue (i : Instr) : Option Nibble := (after (exec i (at8 .top))).bind (fun t => cellsGet t.S.cells 0)

theorem test_huf0 : topValue .huf0 = some 0 := by decide
theorem test_huf1 : topValue .huf1 = some 1 := by decide
theorem test_huf2 : topValue .huf2 = some 2 := by decide
theorem test_huf3 : topValue .huf3 = some 3 := by decide
theorem test_huf4 : topValue .huf4 = some 4 := by decide
theorem test_huf5 : topValue .huf5 = some 5 := by decide
theorem test_huf6 : topValue .huf6 = some 6 := by decide
theorem test_huf7 : topValue .huf7 = some 7 := by decide
theorem test_huf8 : topValue .huf8 = some 8 := by decide
theorem test_huf9 : topValue .huf9 = some 9 := by decide
theorem test_huf10 : topValue .huf10 = some 10 := by decide
theorem test_huf11 : topValue .huf11 = some 11 := by decide
theorem test_huf12 : topValue .huf12 = some 12 := by decide
theorem test_huf13 : topValue .huf13 = some 13 := by decide
theorem test_huf14 : topValue .huf14 = some 14 := by decide
theorem test_huf15 : topValue .huf15 = some 15 := by decide

/-- R122: a 0 decoded at an expansion level is stored like any other value. -/
theorem test_huf0_expand :
    (after (exec .huf0 (at8 .huf))).map (fun t => (cellsGet t.S.cells 0, t.point)) = some (some 0, .expand) := by decide

theorem test_term : (after (exec .term (at8 .term))).map (fun t => (t.point, t.status.state)) = some (.pad1, .busy) := by decide

/-- E6: a terminator of 5 with `pos = 22`. -/
theorem test_termIllegal :
    (after (exec (.termIllegal 5) { at8 .term with pos := 22, stage := .terminator })).map
      (fun t => (t.status.state, t.status.errKind.code, t.status.errStage, t.status.errPos)) =
      some (.error, 4, .terminator, 22) := by decide

theorem test_sgn_negates : (after (exec (.sgn 1) (at8 .sgn))).map (fun t => (cellsGet t.A.cells 0, t.gi)) =
    some (some (-3), 1) := by decide

/-- R145: `-(-2^31) = -2^31`. -/
theorem test_sgn_wraps :
    (after (exec (.sgn 1) { at8 .sgn with A := { size := 64, cells := [(0, 0x80000000)] } })).map
      (fun t => cellsGet t.A.cells 0) = some (some 0x80000000) := by decide

theorem test_pad_passes :
    (after (exec (.pad 7 127) (at8 .pad1))).map (·.point) = some .align2 ∧
    (after (exec (.pad 0 0) (at8 .pad2))).map (·.point) = some .setDC := by decide

theorem test_align_passes :
    (after (exec .align { at8 .align1 with btg := 5, buf := 31 })).map (fun t => (t.btg, t.buf, t.point)) =
      some (0, 31, .quad) ∧
    (after (exec .align { at8 .align2 with btg := 5 })).map (fun t => (t.btg, t.stage, t.gi, t.point)) =
      some (0, .signs, 0, .sign) := by decide

/-! ### Operations of the engine -/

/-- R131: 1×1 is refused, and 1×2 admitted. -/
theorem test_admission_geometry :
    admission Config.Params.initial { hdr8 with nx := 1, ny := 1 } = some .badGeometry := by decide

theorem test_admission_smallest : admission Config.Params.initial { hdr8 with nx := 1, ny := 2 } = none := by decide

/-- R131: the capacity is checked before the counts. -/
theorem test_admission_order :
    admission { Config.Params.initial with gridCapacity := 63 } { hdr8 with nbp0 := 33 } = some .gridTooLarge := by decide

theorem test_admission_count :
    admission Config.Params.initial { hdr8 with nbp2 := 33 } = some .bitplaneCountTooLarge := by decide

/-- R139: for `nqx = 5`, `ex_1 = 2` and `ex_2 = 3`. -/
theorem test_nextExtent :
    let r := nextExtent { QtRegs.reset with ex := 1, ey := 1, fx := 5, fy := 5, c := 8 }
    r.ex = 2 ∧ (nextExtent r).ex = 3 := by decide

/-- R140: `[9]` becomes `[1,0,0,1]`. -/
theorem test_qtreeCopy :
    (qtreeCopy 2 2 { size := 4, cells := [(0, 9)] }).toOption.map (·.cells) = some [(0, 1), (1, 0), (2, 0), (3, 1)] := by decide

set_option maxRecDepth 2000 in
/-- R142: `S = [8,0,0,13]` at bit 0 gives the rows `1000 / 0000 / 0011 / 0001`. -/
theorem test_qtreeBitins :
    (qtreeBitins { QtRegs.reset with n := 4, nqx := 4, nqy := 4, mx := 2, my := 2 }
      { size := 4, cells := [(0, 8), (1, 0), (2, 0), (3, 13)] } (Bank.alloc 16)).toOption.map (·.cells) =
      some [(0, 1), (10, 1), (11, 1), (15, 1)] := by decide

/-- R11 -/
theorem test_rnd : rnd 2 2 = 4 ∧ rnd (-2) 2 = -4 ∧ rnd (-1) 2 = 0 ∧ rnd 1 2 = 0 := by decide

/-- R172, for `log2n = 2`. -/
theorem test_roundDC : rnd 36 3 = 40 ∧ rnd (-12) 3 = -16 ∧ rnd (-11) 3 = -8 := by decide

/-- R171, for `log2n = 2`. -/
theorem test_initConstants :
    let r := initConstants { HtRegs.reset with log2n := 2 }
    (r.bit0, r.bit1, r.bit2) = (2, 4, 8) ∧ (r.mask0, r.mask1, r.mask2) = (-2, -4, -8) ∧
    (r.prnd0, r.prnd1, r.prnd2) = (1, 2, 4) ∧ (r.nrnd0, r.nrnd1, r.nrnd2) = (0, 1, 3) := by decide

/-- R175: `[10,11,12,13,14]` becomes `[10,13,11,14,12]`. -/
theorem test_unshuffle :
    (unshuffle 0 5 1 ({ size := 5, cells := [(0, 10), (1, 11), (2, 12), (3, 13), (4, 14)] }, Bank.alloc 3)).toOption.map
      (·.1.cells) = some [(0, 10), (1, 13), (2, 11), (3, 14), (4, 12)] := by decide

/-- R176: rows, then columns, of a 3×3 grid `1 .. 9`. -/
theorem test_unshuffleLevel :
    (unshuffleLevel 3 3 3 ({ size := 9, cells := [(0, 1), (1, 2), (2, 3), (3, 4), (4, 5), (5, 6), (6, 7), (7, 8), (8, 9)] },
      Bank.alloc 2)).toOption.map (·.1.cells) =
      some [(0, 1), (1, 3), (2, 2), (3, 7), (4, 9), (5, 8), (6, 4), (7, 6), (8, 5)] := by decide

/-- The constants of level 0 (R173) after the override of R183. -/
def level0 : HtRegs := enterLevel (initConstants { initLoop { hdr8 with nx := 2, ny := 2 } HtRegs.reset with levels := 1 })

/-- R177: `[12,2,4,0]` becomes `[1,2,3,4]`. -/
theorem test_combineBlock :
    (combineBlock 2 0 (level0, { size := 4, cells := [(0, 12), (1, 2), (2, 4)] })).toOption.map (·.2.cells) =
      some [(0, 1), (1, 2), (2, 3), (3, 4)] := by decide

/-- R179: the 1×2 grid `[32,-4]` becomes `[9,7]`. -/
theorem test_combineOddX :
    (combineOddX 0 (level0, { size := 2, cells := [(0, 32), (1, -4)] })).toOption.map (·.2.cells) =
      some [(0, 9), (1, 7)] := by decide

/-- R178: 24 above -8 becomes 8 above 4. -/
theorem test_combineOddY :
    (combineOddY 1 0 (level0, { size := 2, cells := [(0, 24), (1, -8)] })).toOption.map (·.2.cells) =
      some [(0, 8), (1, 4)] := by decide

/-- R182: `bit0 = 4`, `prnd0 = 2` give 2, 4, 1, 2, 0; and `mask0 = -1` stays. -/
theorem test_halveConstants :
    let r := halveConstants { HtRegs.reset with bit0 := 4, prnd0 := 2, mask0 := -1 }
    (r.bit0, r.bit1, r.prnd0, r.prnd1, r.nrnd0, r.mask0) = (2, 4, 1, 2, 0, -1) := by decide

/-- R202, R201 -/
theorem test_scale_wraps :
    (scaleGrid 4 { size := 1, cells := [(0, 0x40000000)] }).toOption.map (·.cells) = some [] ∧
    (scaleGrid 100 { size := 1, cells := [(0, 123456789)] }).toOption.map (·.cells) = some [(0, -539222988)] ∧
    (scaleGrid (-5) { size := 2, cells := [(0, 3), (1, -1)] }).toOption.map (·.cells) = some [(0, 3), (1, -1)] := by decide

/-- R203: 70000 is packed as `11 70`. -/
theorem test_pack :
    (after (step { at8 .pack with A := { size := 1, cells := [(0, 70000)] } })).map (·.O) = some [0x11, 0x70] := by decide

/-! ### The host -/

/-- R232, D20: the byte-swapped magic, and a stream of one byte. -/
theorem test_bad_magic :
    (after (step (startSession [0x99, 0xDD] State.reset))).map
      (fun t => (t.status.state, t.status.errKind.code, t.status.errPos)) = some (.error, 2, 2) ∧
    (after (step (startSession [0xDD] State.reset))).map
      (fun t => (t.status.state, t.status.errKind.code, t.status.errPos)) = some (.error, 1, 1) := by decide

/-- R246 and R261 -/
theorem test_start :
    (after (step { at8 .pack with plan := [.start [0]] })).map (fun t => (t.reply, t.point, t.input)) =
      some (some .busy, .pack, [0x0C, 0x40]) ∧
    (after (step { State.reset with plan := [.start [0]] })).map (fun t => (t.reply, t.phase, t.input)) =
      some (some .accepted, .header, [0]) := by decide

/-! ### Witnesses: for each statement with hypotheses, states and operands that meet them, clause by clause -/

/-- A session about to read its header from `bytes`. -/
def fresh (bytes : List Byte) : State := startSession bytes State.reset

/-- The header of a 2×1 image: 21 bytes. -/
def header21 : List Byte := [0xDD, 0x99, 0, 0, 0, 2, 0, 0, 0, 1, 0, 0, 0, 0, 0, 0, 0, 0, 0, 0, 0]

/-- A session about to check a header of the extents and counts given. -/
def admitting (nx ny : Word) (nbp : Byte) : State :=
  { at8 .admitHdr with hdr := { hdr8 with nx := nx, ny := ny, nbp0 := nbp }, A := Bank.absent }

theorem witness_DecodeEncode : (Instr.pad 7 127).wellFormed = true ∧ (Instr.fmtIllegal 14).wellFormed = true := by decide

theorem witness_DecodeIsEncoded :
    decode .huf 6 0b111111 = .ok .huf14 ∧ decode .fmt 4 1 = .ok (.fmtIllegal 1) ∧ decode .pad 0 0 = .ok (.pad 0 0) := by decide

theorem witness_StreamRoundTrip :
    (Instr.pad 3 5).wellFormed = true ∧ ∀ len p, Instr.pad 3 5 = .pad len p → 3 = len.val :=
  ⟨by decide, fun _ _ h => by cases h; rfl⟩

/-- The lengths of the codeword in six bits, at the ends of each range of R81. -/
theorem witness_HuffmanComplete :
    (Instr.huf8 ∈ huffmanTokens ∧ encodeBits .huf8 <+: encodeBits .huf8) ∧
    (encodeBits .huf1 <+: wordBits 6 0b000111 ∧ bitsToNat ((wordBits 6 0b000111).take 3) < 0b100) ∧
    (encodeBits .huf8 <+: wordBits 6 0b011000 ∧ bitsToNat ((wordBits 6 0b011000).take 3) < 0b100) ∧
    (encodeBits .huf3 <+: wordBits 6 0b100000 ∧ bitsToNat ((wordBits 6 0b100000).take 4) = 0b1000) ∧
    (encodeBits .huf15 <+: wordBits 6 0b110011 ∧ bitsToNat ((wordBits 6 0b110011).take 4) = 0b1100) ∧
    (encodeBits .huf6 <+: wordBits 6 0b110100 ∧ bitsToNat ((wordBits 6 0b110100).take 5) = 0b11010) ∧
    (encodeBits .huf13 <+: wordBits 6 0b111101 ∧ bitsToNat ((wordBits 6 0b111101).take 5) = 0b11110) ∧
    (encodeBits .huf0 <+: wordBits 6 0b111110 ∧ bitsToNat ((wordBits 6 0b111110).take 5) = 0b11111) := by decide

theorem witness_ByteReads :
    (onBytes [7]).pos < (onBytes [7]).input.length ∧ (onBytes []).input.length ≤ (onBytes []).pos ∧
    (∃ t, readToken .fmt (onBytes []) = .exhausted t) ∧ (onBytes []).pos ≤ (onBytes []).input.length ∧
    (onBytes [1, 2, 3, 4]).pos + 4 ≤ (onBytes [1, 2, 3, 4]).input.length ∧
    (onBytes [1, 2, 3]).input.length < (onBytes [1, 2, 3]).pos + 4 :=
  ⟨by decide, by decide, ⟨_, rfl⟩, by decide, by decide, by decide⟩

/-- 16 bits of the two bytes, and 17. -/
theorem witness_BitStreamLaw :
    (onBytes [0xA5, 0x3C]).btg = 0 ∧ (onBytes [0xA5, 0x3C]).pos ≤ (onBytes [0xA5, 0x3C]).input.length ∧
    (∀ c ∈ [BitCall.bit, .bits 8, .bits 7], 1 ≤ c.width ∧ c.width ≤ 8) ∧
    callBits [.bit, .bits 8, .bits 7] ≤ 8 * ((onBytes [0xA5, 0x3C]).input.length - (onBytes [0xA5, 0x3C]).pos) ∧
    8 * ((onBytes [0xA5, 0x3C]).input.length - (onBytes [0xA5, 0x3C]).pos) < callBits [.bits 8, .bits 8, .bit] := by decide

/-- A token whole, a token cut short, and a wrong magic. -/
theorem witness_FetchDecodesTheStream :
    (let s := { onBytes [0x80] with btg := 5, buf := 0b11110 }
     s.btg ≤ 7 ∧ s.pos ≤ s.input.length ∧ ∃ rest, decodeStream .huf s.btg (bitsLeft s) = .ok (.huf13, rest)) ∧
    (let s := { onBytes [] with btg := 5, buf := 0b11111 }
     s.btg ≤ 7 ∧ s.pos ≤ s.input.length ∧ decodeStream .huf s.btg (bitsLeft s) = .error .short) ∧
    (let s := onBytes [0x99, 0xDD]
     s.btg = 0 ∧ s.pos ≤ s.input.length ∧ decodeStream .magic s.btg (bitsLeft s) = .error .badMagic) := by
  exact ⟨⟨by decide, by decide, _, rfl⟩, by decide, by decide⟩

theorem witness_StepRunsDecodedToken :
    ((at8 .huf).point.slot = some .huf ∧ (∃ t, readToken .huf (at8 .huf) = .got (3, 0) t) ∧
      decode .huf 3 0 = .ok .huf1 ∧ (at8 .huf).plan = []) ∧
    (at8 .pack).point.slot = none ∧ HostMove.readStatus ≠ .wait :=
  ⟨⟨rfl, ⟨_, rfl⟩, by decide, rfl⟩, rfl, by decide⟩

theorem witness_TokensKeepToTheGrammar : (at8 .pack).point.slot ≠ some Instr.huf3.slot := by decide

theorem witness_HeaderFields : ∀ p ∈ [Point.magic, .nx, .ny, .scale, .sumall, .nbp0, .nbp1, .nbp2], (at8 p).point = p := by
  intro p _; rfl

theorem witness_HeaderFrame :
    ∃ t, exec (.hdrNbp2 3) (at8 .nbp2) = .next t ∧ (Instr.hdrNbp2 3).slot ∈ [Slot.magic, .nx, .ny, .scale, .sumall, .nbp0, .nbp1, .nbp2] :=
  ⟨_, rfl, by decide⟩

/-- 21 bytes; a wrong magic in two bytes; 20 bytes; 1 byte. -/
theorem witness_ReadHeader :
    (∀ bytes, At .magic (fresh bytes) ∧ (fresh bytes).pos = 0 ∧ (fresh bytes).btg = 0 ∧ (fresh bytes).stage = .header) ∧
    (21 ≤ (fresh header21).input.length ∧ (fresh header21).input.take 2 = [0xDD, 0x99]) ∧
    (2 ≤ (fresh [0x99, 0xDD]).input.length ∧ (fresh [0x99, 0xDD]).input.take 2 ≠ [0xDD, 0x99]) ∧
    ((fresh (header21.take 20)).input.length < 21 ∧ (fresh (header21.take 20)).input.take 2 = [0xDD, 0x99]) ∧
    (fresh [0xDD]).input.length < 2 :=
  ⟨fun _ => ⟨⟨rfl, rfl⟩, rfl, rfl, rfl⟩, by decide, by decide, by decide, by decide⟩

theorem witness_AdmitAndClear :
    (∀ nx ny nbp, At .admitHdr (admitting nx ny nbp) ∧ (admitting nx ny nbp).written.hdr = true) ∧
    ¬(2 ≤ max (admitting 1 1 0).hdr.nx.toInt (admitting 1 1 0).hdr.ny.toInt) ∧
    ((admitting 0x1000 0x1001 0).cfg.gridCapacity : Int) <
      (admitting 0x1000 0x1001 0).hdr.nx.toInt * (admitting 0x1000 0x1001 0).hdr.ny.toInt ∧
    (admitting 0x1000 0x1000 33).hdr.nx.toInt * (admitting 0x1000 0x1000 33).hdr.ny.toInt ≤
      ((admitting 0x1000 0x1000 33).cfg.gridCapacity : Int) ∧
    32 < (admitting 0x1000 0x1000 33).hdr.nbp0.toNat ∧ (admitting 2 1 32).hdr.nbp0.toNat ≤ 32 ∧
    At .clear (at8 .clear) :=
  ⟨fun _ _ _ => ⟨⟨rfl, rfl⟩, rfl⟩, by decide, by decide, by decide, by decide, by decide, rfl, rfl⟩

/-- The last entry of a 3×3 grid, the last entry of its quadrant 0, and images of one row and of one column. -/
theorem witness_QuadrantsTile :
    (let h := { hdr8 with nx := 3, ny := 3 }
     2 < h.rows ∧ 2 < h.cols ∧ 1 < (quadrantOf h 0).nqx ∧ 1 < (quadrantOf h 0).nqy ∧ 0 < (quadrantOf h 3).nqx ∧
       0 < (quadrantOf h 3).nqy) ∧
    HdrRegs.rows { hdr8 with nx := 1 } = 1 ∧ HdrRegs.cols { hdr8 with ny := 1 } = 1 := by decide

theorem witness_QuadrantLoop :
    (At .quad (at8 .quad) ∧ (at8 .quad).written.hdr = true) ∧
    (let s := { at8 .plane with qt := { (at8 .plane).qt with planes := 1 } }
     At .plane s ∧ s.written.qt = true ∧ s.qt.planes ≠ 0) ∧
    (At .plane (at8 .plane) ∧ (at8 .plane).written.qt = true ∧ (at8 .plane).qt.planes = 0 ∧ (at8 .plane).qt.q.val < 3) ∧
    (let s := { at8 .plane with qt := { (at8 .plane).qt with q := 3 } }
     At .plane s ∧ s.written.qt = true ∧ s.qt.planes = 0 ∧ s.qt.q.val = 3) :=
  ⟨⟨⟨rfl, rfl⟩, rfl⟩, ⟨⟨rfl, rfl⟩, rfl, by decide⟩, ⟨⟨rfl, rfl⟩, rfl, rfl, by decide⟩, ⟨⟨rfl, rfl⟩, rfl, rfl, rfl⟩⟩

/-- The states of the format code: stage `FMT`, all registers written, a quadrant of 4×4 and one of no row. -/
def atFmt : State := { at8 .fmt with stage := .fmt 0 0 }

def atEmpty : State := { atFmt with qt := { atFmt.qt with nqx := 0, mx := 0 }, S := Bank.alloc 0 }

theorem witness_FormatDispatch :
    ((1 : Nibble) ≠ 0 ∧ (1 : Nibble) ≠ 15 ∧ (14 : Nibble) ≠ 0 ∧ (14 : Nibble) ≠ 15) ∧ atFmt.point = .fmt ∧ atFmt.written.qt = true ∧
    0 < atFmt.qt.nqx ∧ 0 < atFmt.qt.nqy ∧ atFmt.stage = .fmt atFmt.qt.q atFmt.qt.bit := by decide

theorem witness_EmptyQuadrant :
    atEmpty.point = .fmt ∧ atEmpty.written.qt = true ∧ (atEmpty.qt.nqx = 0 ∨ atEmpty.qt.nqy = 0) ∧
    atEmpty.qt.mx = ceilDiv atEmpty.qt.nqx 2 ∧ atEmpty.qt.my = ceilDiv atEmpty.qt.nqy 2 ∧ atEmpty.plan = [] := by decide

theorem witness_IllegalCodes : atFmt.point = .fmt ∧ (at8 .term).point = .term := by decide

/-- `t` below the count, at the count, and at the last entry of the scratch. -/
theorem witness_DirectNibbles :
    (At .direct (at8 .direct) ∧ (at8 .direct).written.qt = true ∧ (at8 .direct).qt.t < (at8 .direct).qt.mx * (at8 .direct).qt.my) ∧
    (let s := { at8 .direct with qt := { (at8 .direct).qt with t := 4 } }
     At .direct s ∧ s.qt.mx * s.qt.my ≤ s.qt.t) ∧
    (let s := { at8 .nyb with qt := { (at8 .nyb).qt with t := 3 } }
     s.point = .nyb ∧ s.written.qt = true ∧ s.qt.t < s.S.size) :=
  ⟨⟨⟨rfl, rfl⟩, rfl, by decide⟩, ⟨⟨rfl, rfl⟩, by decide⟩, by decide⟩

theorem witness_HuffmanTokens :
    (Instr.huf0.hufValue = some 0 ∧ (at8 .top).point = .top ∧ (at8 .top).written.qt = true ∧ 0 < (at8 .top).S.size) ∧
    (let s := { at8 .huf with qt := { (at8 .huf).qt with t := 3 } }
     Instr.huf15.hufValue = some 15 ∧ s.point = .huf ∧ s.written.qt = true ∧ s.qt.t < s.S.size) := by decide

theorem witness_PlaneTokenFrame :
    (∃ t, exec .fmtD atFmt = .next t) ∧ (∃ t, exec .fmtQ atFmt = .next t) ∧ (atFmt.qt.nqx ≠ 0 ∧ atFmt.qt.nqy ≠ 0) ∧
    (∃ t, exec (.nyb 7) (at8 .nyb) = .next t) ∧ (∃ t, exec .huf0 (at8 .top) = .next t) ∧ (∃ t, exec .huf3 (at8 .huf) = .next t) :=
  ⟨⟨_, rfl⟩, ⟨_, rfl⟩, by decide, ⟨_, rfl⟩, ⟨_, rfl⟩, ⟨_, rfl⟩⟩

theorem witness_NextExtent : 1 ≤ (at8 .level).qt.nqx ∧ 1 ≤ (at8 .level).qt.nqy ∧
    1 ≤ ceilLog2 (max (at8 .level).qt.nqx (at8 .level).qt.nqy) := by decide

/-- A 2×2 copy in a scratch of 5 entries: the last entry of the copy, and the first above it. -/
theorem witness_QtreeCopy :
    let old : Bank 4 := { size := 5, cells := [(0, 9)] }
    2 * 2 ≤ old.size ∧ WrittenBelow old (ceilDiv 2 2 * ceilDiv 2 2) ∧ ceilDiv 2 2 * ceilDiv 2 2 ≤ old.size ∧
    old.readScratch (1 / 2 * ceilDiv 2 2 + 1 / 2) = .ok 9 := by
  refine ⟨by decide, fun i hi => ?_, by decide, by decide⟩
  have : i = 0 := by simp [ceilDiv] at hi; omega
  subst this; rfl

/-- The loop ends at `k = L`, goes on below it; the scan at an entry, and below entry 0. -/
theorem witness_LevelLoop :
    (let s := { at8 .level with qt := { (at8 .level).qt with k := 2 } }
     At .level s ∧ s.written.qt = true ∧ s.qt.L ≤ s.qt.k) ∧
    ((at8 .level).qt.k < (at8 .level).qt.L ∧
      ∃ b, qtreeCopy (nextExtent (at8 .level).qt).ex (nextExtent (at8 .level).qt).ey (at8 .level).S = .ok b) ∧
    (At .expand (at8 .expand) ∧ (at8 .expand).written.qt = true ∧ (at8 .expand).qt.t = 0) ∧
    (let s := { at8 .expand with qt := { (at8 .expand).qt with t := 1 } }
     At .expand s ∧ 0 < s.qt.t ∧ s.S.readScratch (s.qt.t - 1) = .ok 9) :=
  ⟨⟨⟨rfl, rfl⟩, rfl, by decide⟩, ⟨by decide, _, rfl⟩, ⟨⟨rfl, rfl⟩, rfl, rfl⟩, ⟨⟨rfl, rfl⟩, by decide, rfl⟩⟩

/-- A quadrant of 1×2 at the highest bit. -/
theorem witness_InsertPlane :
    let s := { at8 .bitins with
      A := { size := 2, cells := [(0, 1)] }, S := { size := 1, cells := [(0, 9)] }
      qt := { QtRegs.reset with n := 2, nqx := 1, nqy := 2, mx := 1, my := 1, bit := 31 } }
    At .bitins s ∧ s.written.qt = true ∧ s.qt.bit ≤ 31 ∧ s.qt.nqy ≤ s.qt.n ∧
    (∀ i j, i < s.qt.nqx → j < s.qt.nqy →
      s.qt.off + i * s.qt.n + j < s.A.size ∧ ∃ v, s.S.readScratch (i / 2 * s.qt.my + j / 2) = .ok v) := by
  refine ⟨⟨rfl, rfl⟩, rfl, by decide, by decide, fun i j hi hj => ?_⟩
  have : i < 1 := hi
  have : j < 2 := hj
  obtain rfl : i = 0 := by omega
  obtain rfl | rfl : j = 0 ∨ j = 1 := by omega
  · exact ⟨by decide, _, rfl⟩
  · exact ⟨by decide, _, rfl⟩

theorem witness_TerminatorAndPad : (at8 .term).point = .term ∧ (at8 .pad1).point = .pad1 ∧ (at8 .pad2).point = .pad2 := by decide

theorem witness_AlignBegin : (at8 .align1).point = .align1 ∧ (at8 .align2).point = .align2 := by decide

/-- An entry that is not 0, an entry that is, and the end of the grid; a sign bit of 1 and one of 0. -/
theorem witness_SignPass :
    (At .sign (at8 .sign) ∧ (at8 .sign).A.readGrid (at8 .sign).gi = .ok 3) ∧
    (let s := { at8 .sign with gi := 63 }; At .sign s ∧ s.A.readGrid s.gi = .ok 0) ∧
    (let s := { at8 .sign with gi := 64 }; At .sign s ∧ s.A.size ≤ s.gi) ∧
    ((at8 .sgn).point = .sgn ∧ (at8 .sgn).A.readGrid (at8 .sgn).gi = .ok 3) :=
  ⟨⟨⟨rfl, rfl⟩, rfl⟩, ⟨⟨rfl, rfl⟩, rfl⟩, ⟨⟨rfl, rfl⟩, by decide⟩, by decide⟩

theorem witness_PassTokenFrame :
    (∃ t, exec .term (at8 .term) = .next t) ∧ (∃ t, exec (.pad 2 1) (at8 .pad2) = .next t) ∧
    (∃ t, exec .align (at8 .align1) = .next t) ∧ (∃ t, exec .align (at8 .align2) = .next t) ∧
    (∃ t, exec (.sgn 1) (at8 .sgn) = .next t) :=
  ⟨⟨_, rfl⟩, ⟨_, rfl⟩, ⟨_, rfl⟩, ⟨_, rfl⟩, ⟨_, rfl⟩⟩

theorem witness_SetDC : At .setDC (at8 .setDC) ∧ (at8 .setDC).written.hdr = true ∧ 0 < (at8 .setDC).A.size :=
  ⟨⟨rfl, rfl⟩, rfl, by decide⟩

/-- A session that ended in an error, whose output the host asks for. -/
def ended : State := { raise .badFormatCode (at8 .fmt) with plan := [.readOutput] }

theorem witness_RaiseAction : (raise .badFormatCode (at8 .fmt)).plan = [] := rfl

theorem witness_RefuseAction : (refuse .emptyQuadrantQuadtree (at8 .fmt)).plan = [] := rfl

theorem witness_EndedStaysEnded :
    ended.point = .error ∧ (∃ t, step ended = .next t) ∧ (∀ b r, ended.plan ≠ .start b :: r) ∧
    (∀ r, ended.plan ≠ .reset :: r) ∧ ended.status.state ≠ .done := by
  refine ⟨rfl, ⟨_, rfl⟩, fun b r h => ?_, fun r h => ?_, by decide⟩
  · simp [ended] at h
  · simp [ended] at h

/-- The shortest input. -/
theorem witness_StartAccepted :
    let s := { State.reset with plan := [.start []] }
    s.plan = .start [] :: [] ∧ s.status.state ≠ .busy ∧ ([] : List Byte).length ≤ s.cfg.maxInput := by decide

theorem witness_HostTransactions :
    (let s := { at8 .pack with plan := [.start [0]] }
     s.plan = .start [0] :: [] ∧ s.status.state = .busy ∧ [(0 : Byte)].length ≤ s.cfg.maxInput) ∧
    (let s := { at8 .pack with plan := [.readStatus] }; s.plan = .readStatus :: []) ∧
    (let s := { finish (at8 .pack) with plan := [.readOutput] }; s.plan = .readOutput :: [] ∧ s.status.state = .done) ∧
    (let s := { at8 .pack with plan := [.readOutput] }; s.plan = .readOutput :: [] ∧ s.status.state ≠ .done) := by decide

theorem witness_HostReset : { at8 .pack with plan := [.reset] }.plan = .reset :: [] := by decide

theorem witness_Undigitize :
    (At .undigitize (at8 .undigitize) ∧ (at8 .undigitize).written.hdr = true ∧ (at8 .undigitize).A.readGrid 0 = .ok 3 ∧
      1 < (at8 .undigitize).hdr.scale.toInt) ∧
    (let s := { at8 .undigitize with hdr := { hdr8 with scale := 1 } }
     At .undigitize s ∧ s.A.readGrid 0 = .ok 3 ∧ s.hdr.scale.toInt ≤ 1) :=
  ⟨⟨⟨rfl, rfl⟩, rfl, rfl, by decide⟩, ⟨⟨rfl, rfl⟩, rfl, by decide⟩⟩

/-- The ends of the exponent, and the largest value whose rounding sum does not wrap. -/
theorem witness_RoundNearest :
    (1 ≤ 1 ∧ 1 ≤ 30 ∧ (0x7FFFFFFE : Word).toInt + 2 ^ (1 - 1) < 2 ^ 31) ∧
    (1 ≤ 30 ∧ 30 ≤ 30 ∧ (0x80000000 : Word).toInt + 2 ^ (30 - 1) < 2 ^ 31) := by decide

theorem witness_TransformBegins :
    (let r := { HtRegs.reset with log2n := 29 }; 1 ≤ r.log2n ∧ r.log2n ≤ 29) ∧
    (At .hinit (at8 .hinit) ∧ (at8 .hinit).written.hdr = true ∧ 0 < (at8 .hinit).A.size ∧ 2 ≤ (at8 .hinit).hdr.maxDim ∧
      (at8 .hinit).hdr.maxDim ≤ 2 ^ 29 ∧ (at8 .hinit).A.readGrid 0 = .ok 3) :=
  ⟨by decide, ⟨rfl, rfl⟩, rfl, by decide, by decide, by decide, rfl⟩

/-- The registers of the first level of an 8×8 image (R170, R174): a region of 2×2. -/
def level2 : HtRegs := enterLevel (initConstants (initLoop hdr8 HtRegs.reset))

theorem witness_TransformConstants :
    (∃ t, step (at8 .hlevel) = .next t) ∧ Sound (at8 .hlevel) ∧ ConstantsOk (at8 .hlevel) ∧
    ConstantsFor level0 0 ∧ level0.nrnd0 = 0 ∧
    (let r := level2
     ConstantsFor r 2 ∧ r.nrnd0 = BitVec.ofNat 32 (2 ^ (2 - 1)) - 1) := by
  refine ⟨⟨_, rfl⟩, ⟨⟨rfl, rfl⟩, ⟨by decide, by decide, fun n h => by cases h⟩, ?_⟩, ?_, ?_, by decide, ?_⟩
  · refine ⟨⟨rfl, by decide, rfl⟩, rfl, by decide, by decide, by decide, ?_, ?_⟩ <;> unfold ExtentAt <;> decide
  · exact ⟨by decide, fun _ => ⟨by unfold ConstantsFor; decide, by decide, by decide⟩⟩
  · unfold ConstantsFor; decide
  · unfold ConstantsFor; decide

theorem witness_LevelExtents : 1 ≤ HdrRegs.rows hdr8 ∧ 1 ≤ HdrRegs.cols hdr8 ∧ 2 ≤ HdrRegs.maxDim hdr8 ∧
    3 ≤ ceilLog2 (HdrRegs.maxDim hdr8) := by decide

/-- The level loop at its end and before it; the end of a level whose `mask0` is -1. -/
theorem witness_TransformLevels :
    (let s := { at8 .hlevel with ht := { (at8 .hlevel).ht with levels := 0 } }
     At .hlevel s ∧ s.written.ht = true ∧ s.ht.levels = 0) ∧
    (At .hlevel (at8 .hlevel) ∧ (at8 .hlevel).written.ht = true ∧ (at8 .hlevel).ht.levels ≠ 0) ∧
    (let s := { at8 .halve with ht := level0 }; At .halve s ∧ s.written.ht = true ∧ s.ht.mask0 = -1) :=
  ⟨⟨⟨rfl, rfl⟩, rfl, rfl⟩, ⟨⟨rfl, rfl⟩, rfl, by decide⟩, ⟨⟨rfl, rfl⟩, rfl, by decide⟩⟩

/-- A column of three in a grid of 3×2, and a buffer of one entry. -/
theorem witness_Unshuffle :
    let a : Bank 32 := { size := 6, cells := [(1, 5)] }
    let t : Bank 32 := Bank.alloc 1
    0 < 2 ∧ (∀ i, i < 3 → 1 + 2 * i < a.size) ∧ 3 - (3 + 1) / 2 ≤ t.size := by
  refine ⟨by decide, fun i hi => ?_, by decide⟩
  show 1 + 2 * i < 6
  omega

/-- The whole of a 3×3 grid; the step at the first level. -/
theorem witness_UnshuffleLevel :
    (let a : Bank 32 := Bank.alloc 9
     let t : Bank 32 := Bank.alloc 2
     3 ≤ 3 ∧ 3 * 3 ≤ a.size ∧ 3 ≤ 2 * t.size) ∧
    (let s := { at8 .unshuffle with ht := level2 }
     At .unshuffle s ∧ s.written.hdr = true ∧ s.written.ht = true ∧ s.ht.nytop ≤ s.hdr.cols ∧
       s.ht.nxtop * s.hdr.cols ≤ s.A.size ∧ s.ht.nxtop ≤ 2 * s.T.size ∧ s.ht.nytop ≤ 2 * s.T.size) :=
  ⟨by decide, ⟨rfl, rfl⟩, by decide⟩

theorem witness_CombineBlock :
    let a : Bank 32 := { size := 4, cells := [(0, 12), (1, 2), (2, 4)] }
    2 ≤ 2 ∧ 0 + 2 + 1 < a.size ∧ a.readGrid 0 = .ok 12 ∧ a.readGrid (0 + 2) = .ok 4 ∧ a.readGrid (0 + 1) = .ok 2 ∧
    a.readGrid (0 + 2 + 1) = .ok 0 := by decide

/-- Level 0, and level 2 of an 8×8 image. -/
theorem witness_EdgesAreBlocks :
    (ConstantsFor level0 0 ∧ level0.nrnd0 = 0) ∧
    (let r := level2
     ConstantsFor r 2 ∧ (2 ≠ 0 → r.nrnd0 = BitVec.ofNat 32 (2 ^ (2 - 1)) - 1) ∧ (2 = 0 → r.nrnd0 = 0)) := by
  unfold ConstantsFor; decide

/-- A 3×3 region has a block, both edges and a corner; the step at the first level. -/
theorem witness_CombineLevel :
    (let r := { level0 with nxtop := 3, nytop := 3 }
     let a : Bank 32 := Bank.alloc 9
     r.nytop ≤ 3 ∧ r.nxtop * 3 ≤ a.size ∧ (0 + 1 < r.nxtop ∧ 0 + 1 < r.nytop) ∧ (0 + 1 < r.nxtop ∧ 2 + 1 = r.nytop) ∧
       (2 + 1 = r.nxtop ∧ 0 + 1 < r.nytop) ∧ (2 + 1 = r.nxtop ∧ 2 + 1 = r.nytop)) ∧
    (let s := { at8 .combine with ht := level2 }
     At .combine s ∧ s.written.hdr = true ∧ s.written.ht = true ∧ s.ht.nytop ≤ s.hdr.cols ∧
       s.ht.nxtop * s.hdr.cols ≤ s.A.size) :=
  ⟨by decide, ⟨rfl, rfl⟩, by decide⟩

theorem witness_PackAll :
    At .pack (at8 .pack) ∧ (at8 .pack).gi = 0 ∧ (at8 .pack).O = [] ∧ (at8 .pack).A.readGrid 0 = .ok 3 ∧
    (at8 .pack).A.readGrid 63 = .ok 0 := ⟨⟨rfl, rfl⟩, rfl, rfl, rfl, rfl⟩

theorem witness_StepKeepsMemoryForm : Memory.wf (at8 .sign) = true ∧ ∃ t, step (at8 .sign) = .next t := ⟨by decide, _, rfl⟩

theorem witness_StepKeepsPosition : PositionOk (at8 .align1) ∧ ∃ t, step (at8 .align1) = .next t := ⟨⟨rfl, rfl⟩, _, rfl⟩

theorem witness_StepKeepsCursor : CursorOk (fresh header21) ∧ ∃ t, step (fresh header21) = .next t := by
  refine ⟨⟨by decide, by decide, fun n h => ?_⟩, _, rfl⟩
  cases h; exact ⟨rfl, rfl⟩

/-- One pixel of two is packed. -/
theorem witness_StepKeepsOutput :
    let s := { at8 .pack with A := Bank.alloc 2, gi := 1, O := [0, 3] }
    PositionOk s ∧ OutputOk s ∧ ∃ t, step s = .next t := by
  refine ⟨⟨rfl, rfl⟩, ⟨fun h => absurd rfl h.1, fun _ => by decide, fun _ => rfl, fun h => by cases h⟩, _, rfl⟩

theorem witness_StepKeepsRecord :
    PositionOk (fresh [0xDD]) ∧ StageOk (fresh [0xDD]) ∧ RecordOk (fresh [0xDD]) ∧
    stageFits (fresh [0xDD]).status.errKind (fresh [0xDD]).status.errStage = true ∧ ∃ t, step (fresh [0xDD]) = .next t := by
  refine ⟨⟨rfl, rfl⟩, rfl, ⟨?_, ?_, fun _ => ⟨rfl, rfl⟩⟩, by decide, _, rfl⟩ <;> decide

/-- A session at the head of the level loop of a bitplane; and a host that offers more than it may. -/
theorem witness_NoFault :
    Sound (at8 .level) ∧
    (let s := { State.reset with cfg := { Config.Params.initial with maxInput := 0 }, plan := [.start [1]] }
     Sound s ∧ s.plan = .start [1] :: [] ∧ s.cfg.maxInput < [(1 : Byte)].length) := by
  refine ⟨⟨⟨rfl, rfl⟩, ⟨by decide, by decide, fun n h => by cases h⟩, ?_⟩, ⟨⟨rfl, rfl⟩, ⟨by decide, by decide, fun n h => by cases h⟩, trivial⟩, rfl, by decide⟩
  refine ⟨⟨⟨rfl, by decide, rfl⟩, by unfold QuadrantOpen; decide, rfl, by decide⟩, by decide, by decide, by decide, by decide, by decide, by decide, ?_, ?_, ?_⟩
  · unfold ExtentAt; decide
  · unfold ExtentAt; decide
  · intro i hi
    have : i < 1 := hi
    obtain rfl : i = 0 := by omega
    rfl

theorem witness_PhaseOrder :
    PositionOk (at8 .term) ∧ (at8 .term).plan = [] ∧
    (∃ t, step (at8 .term) = .next t ∧ t.status.state = (at8 .term).status.state) ∧
    (at8 .term).point ∉ [Point.idle, .magic, .nx, .ny, .scale, .sumall, .nbp0, .nbp1, .nbp2, .admitHdr] ∧
    (at8 .term).point ≠ .pack ∧ (at8 .term).point ≠ .nbp2 :=
  ⟨⟨rfl, rfl⟩, rfl, ⟨_, rfl, rfl⟩, by decide, by decide, by decide⟩

/-- Two machines whose last sessions differ. -/
theorem witness_SessionsAreDetermined :
    (∃ t, (at8 .sign).plan = [] ∧ step (at8 .sign) = .next t) ∧
    (let s := { State.reset with plan := [.start header21] }
     let u := { finish (at8 .pack) with plan := [.start header21] }
     s.plan = .start header21 :: [] ∧ u.plan = .start header21 :: [] ∧ s.cfg = u.cfg ∧ s.status.state ≠ .busy ∧
       u.status.state ≠ .busy) :=
  ⟨⟨_, rfl, rfl⟩, by decide⟩

end Sys2Proof.Tests
end

section
/-! SUPPORT. Every step keeps the canonical form of the three memories (R10, R50). -/

namespace Sys2Proof.Machine

theorem memory_wf_iff {s : State} :
    Memory.wf s = true ↔ s.A.gridWf = true ∧ s.S.wf = true ∧ s.T.wf = true := by
  simp [Memory.wf, and_assoc]

/-- Reading the stream touches no memory. -/
theorem Moved.memory_wf {s u : State} (h : Moved s u) : Memory.wf u = Memory.wf s := by
  rw [h.same]; rfl

theorem setEntry_gridWf {b : Bank 32} {i : Nat} {v : Word} (hb : b.gridWf = true) (hi : i < b.size) :
    (b.setEntry i v).gridWf = true :=
  writeGrid_keeps_wf hb (writeGrid_ok hi)

theorem putEntry_wf {w : Nat} {b : Bank w} {i : Nat} {v : BitVec w} (hb : b.wf = true) (hi : i < b.size) :
    (b.putEntry i v).wf = true :=
  writeScratch_keeps_wf hb (writeScratch_ok hi)

theorem EngineMove.keeps_memory_wf {s t : State} (h : EngineMove s t) (hw : Memory.wf s = true) :
    Memory.wf t = true := by
  obtain ⟨hA, hS, hT⟩ := memory_wf_iff.mp hw
  cases h with
  | refused => exact discard_memory_wf s
  | admitted => exact memory_wf_iff.mpr ⟨gridWf_alloc _, hS, hT⟩
  | cleared => exact memory_wf_iff.mpr ⟨gridWf_alloc _, hS, hT⟩
  | quadrant => exact memory_wf_iff.mpr ⟨hA, wf_alloc _, hT⟩
  | level _ _ b hb => exact memory_wf_iff.mpr ⟨hA, qtreeCopy_wf hb hS, hT⟩
  | inserted _ a ha => exact memory_wf_iff.mpr ⟨qtreeBitins_wf ha hA, hS, hT⟩
  | dcSet _ _ a ha => exact memory_wf_iff.mpr ⟨writeGrid_keeps_wf hA ha, hS, hT⟩
  | scaled _ _ a ha => exact memory_wf_iff.mpr ⟨scaleGrid_wf ha hA, hS, hT⟩
  | transformBegun _ _ _ a _ ha => exact memory_wf_iff.mpr ⟨writeGrid_keeps_wf hA ha, hS, wf_alloc _⟩
  | unshuffled _ m hm =>
    obtain ⟨hA', hT'⟩ := unshuffleLevel_wf hm ⟨hA, hT⟩
    exact memory_wf_iff.mpr ⟨hA', hS, hT'⟩
  | combined _ m hm => exact memory_wf_iff.mpr ⟨combineLevel_wf hm hA, hS, hT⟩
  | _ => exact hw

theorem TokenMove.keeps_memory_wf {i : Instr} {s t : State} (h : TokenMove s i t) (hw : Memory.wf s = true) :
    Memory.wf t = true := by
  obtain ⟨hA, hS, hT⟩ := memory_wf_iff.mp hw
  cases h with
  | emptyQuadrant => exact discard_memory_wf s
  | badFormat => exact discard_memory_wf s
  | badTerminator => exact discard_memory_wf s
  | nibble _ _ hi => exact memory_wf_iff.mpr ⟨hA, putEntry_wf hS hi, hT⟩
  | top _ _ _ _ hi => exact memory_wf_iff.mpr ⟨hA, putEntry_wf hS hi, hT⟩
  | expanded _ _ _ _ hi => exact memory_wf_iff.mpr ⟨hA, putEntry_wf hS hi, hT⟩
  | negate _ hi => exact memory_wf_iff.mpr ⟨setEntry_gridWf hA hi, hS, hT⟩
  | _ => exact hw

theorem StepMove.keeps_memory_wf {s t : State} (h : StepMove s t) (hw : Memory.wf s = true) :
    Memory.wf t = true := by
  cases h with
  | op h => exact h.keeps_memory_wf hw
  | token i u _ hm _ h => exact h.keeps_memory_wf (hm.memory_wf.trans hw)
  | ended _ _ h =>
    cases h with
    | exhausted u => exact discard_memory_wf u
    | badMagic _ u => exact discard_memory_wf u

theorem hostMove_keeps_memory_wf {m : HostMove} {s t : State} (h : hostMove m s = .next t)
    (hw : Memory.wf s = true) : Memory.wf t = true := by
  cases m with
  | start bytes =>
    simp only [hostMove, hostStart] at h
    split at h
    · cases h
    · split at h
      · cases next_inj h; exact hw
      · cases next_inj h; exact startSession_memory_wf bytes s
  | readStatus => cases next_inj h; exact hw
  | readOutput => cases next_inj h; exact hw
  | reset => cases next_inj h; exact reset_memory_wf
  | wait => cases next_inj h; exact hw

end Sys2Proof.Machine

namespace Sys2Proof.Proofs

open Sys2Proof.Machine

/-- Settles O52, by cases over what a step can do. -/
theorem stepKeepsMemoryForm : Obligations.StepKeepsMemoryForm := by
  intro s t hw h
  rcases step_next h with ⟨-, hm⟩ | ⟨rest, -, hm⟩ | ⟨m, rest, -, -, hm⟩
  · exact hm.keeps_memory_wf hw
  · exact hm.keeps_memory_wf hw
  · exact hostMove_keeps_memory_wf hm hw

end Sys2Proof.Proofs
end

section
/-! SUPPORT. The quadrants tile the grid (R12, R58): a quadrant is a rectangle of rows and columns, and the halves the row and
the column lie in say which. -/

namespace Sys2Proof.Machine

/-- The first row of a quadrant. -/
def quadrantRow (h : HdrRegs) (q : Fin 4) : Nat := if q = 0 ∨ q = 1 then 0 else ceilDiv h.rows 2

/-- The first column of a quadrant. -/
def quadrantCol (h : HdrRegs) (q : Fin 4) : Nat := if q = 0 ∨ q = 2 then 0 else ceilDiv h.cols 2

theorem quadrantOf_nqx (h : HdrRegs) (q : Fin 4) :
    (quadrantOf h q).nqx = if q = 0 ∨ q = 1 then ceilDiv h.rows 2 else h.rows / 2 := by
  match q with
  | 0 | 1 | 2 | 3 => rfl

theorem quadrantOf_nqy (h : HdrRegs) (q : Fin 4) :
    (quadrantOf h q).nqy = if q = 0 ∨ q = 2 then ceilDiv h.cols 2 else h.cols / 2 := by
  match q with
  | 0 | 1 | 2 | 3 => rfl

theorem quadrantOf_off (h : HdrRegs) (q : Fin 4) :
    (quadrantOf h q).off = quadrantRow h q * h.cols + quadrantCol h q := by
  match q with
  | 0 | 1 | 2 | 3 => simp [quadrantOf, quadrantRow, quadrantCol, Nat.mul_comm]

/-- Element `(i, j)` of a quadrant lies in the grid's row `quadrantRow + i` and column `quadrantCol + j` (R12). -/
theorem quadrant_index (h : HdrRegs) (q : Fin 4) (i j : Nat) :
    (quadrantOf h q).off + i * h.cols + j = (quadrantRow h q + i) * h.cols + (quadrantCol h q + j) := by
  rw [quadrantOf_off]; ring

/-- The rows of a quadrant are the grid's, the upper half's in quadrants 0 and 1 only. -/
theorem row_of_quadrant (h : HdrRegs) (q : Fin 4) (i : Nat) :
    i < (quadrantOf h q).nqx ↔
      quadrantRow h q + i < h.rows ∧ (quadrantRow h q + i < ceilDiv h.rows 2 ↔ q = 0 ∨ q = 1) := by
  rw [quadrantOf_nqx, quadrantRow, ceilDiv_two]
  by_cases hq : q = 0 ∨ q = 1 <;> simp only [hq, if_true, if_false, iff_true, iff_false] <;> omega

/-- The columns of a quadrant are the grid's, the left half's in quadrants 0 and 2 only. -/
theorem col_of_quadrant (h : HdrRegs) (q : Fin 4) (j : Nat) :
    j < (quadrantOf h q).nqy ↔
      quadrantCol h q + j < h.cols ∧ (quadrantCol h q + j < ceilDiv h.cols 2 ↔ q = 0 ∨ q = 2) := by
  rw [quadrantOf_nqy, quadrantCol, ceilDiv_two]
  by_cases hq : q = 0 ∨ q = 2 <;> simp only [hq, if_true, if_false, iff_true, iff_false] <;> omega

/-- The halves of the rows and of the columns tell the quadrants apart. -/
theorem quadrant_eq_of_halves : ∀ q p : Fin 4,
    (q = 0 ∨ q = 1 ↔ p = 0 ∨ p = 1) → (q = 0 ∨ q = 2 ↔ p = 0 ∨ p = 2) → q = p := by decide

/-- For each half of the rows and of the columns there is a quadrant. -/
theorem exists_quadrant_of_halves (upper left : Prop) :
    ∃ q : Fin 4, (upper ↔ q = 0 ∨ q = 1) ∧ (left ↔ q = 0 ∨ q = 2) := by
  by_cases hu : upper <;> by_cases hl : left <;> simp only [hu, hl, true_iff, false_iff]
  · exact ⟨0, by decide⟩
  · exact ⟨1, by decide⟩
  · exact ⟨2, by decide⟩
  · exact ⟨3, by decide⟩

/-- An index of the grid has one row and one column (R12). -/
theorem row_col_unique {n r c r' c' : Nat} (hc : c < n) (hc' : c' < n) (h : r * n + c = r' * n + c') :
    r = r' ∧ c = c' := by
  have hn : 0 < n := Nat.zero_lt_of_lt hc
  have hdiv := congrArg (· / n) h
  have hmod := congrArg (· % n) h
  simp only [Nat.mul_comm _ n, Nat.mul_add_div hn, Nat.div_eq_of_lt hc, Nat.div_eq_of_lt hc', Nat.add_zero] at hdiv
  simp only [Nat.mul_comm _ n, Nat.mul_add_mod, Nat.mod_eq_of_lt hc, Nat.mod_eq_of_lt hc'] at hmod
  exact ⟨hdiv, hmod⟩

/-- The quadrant `p.1` has an element `(p.2.1, p.2.2)`, which is the grid's entry in row `r` and column `c`. -/
def CoversEntry (h : HdrRegs) (r c : Nat) (p : Fin 4 × Nat × Nat) : Prop :=
  p.2.1 < (quadrantOf h p.1).nqx ∧ p.2.2 < (quadrantOf h p.1).nqy ∧
    (quadrantOf h p.1).off + p.2.1 * h.cols + p.2.2 = r * h.cols + c

theorem coversEntry_iff {h : HdrRegs} {r c : Nat} (hr : r < h.rows) (hc : c < h.cols) (p : Fin 4 × Nat × Nat) :
    CoversEntry h r c p ↔
      (quadrantRow h p.1 + p.2.1 = r ∧ quadrantCol h p.1 + p.2.2 = c) ∧
        (r < ceilDiv h.rows 2 ↔ p.1 = 0 ∨ p.1 = 1) ∧ (c < ceilDiv h.cols 2 ↔ p.1 = 0 ∨ p.1 = 2) := by
  rw [CoversEntry, row_of_quadrant, col_of_quadrant, quadrant_index]
  constructor
  · rintro ⟨⟨-, hup⟩, ⟨hcol, hleft⟩, hidx⟩
    obtain ⟨rfl, rfl⟩ := row_col_unique hcol hc hidx
    exact ⟨⟨rfl, rfl⟩, hup, hleft⟩
  · rintro ⟨⟨rfl, rfl⟩, hup, hleft⟩
    exact ⟨⟨hr, hup⟩, ⟨hc, hleft⟩, rfl⟩

/-- Every entry of the grid lies in exactly one quadrant, at exactly one place. -/
theorem existsUnique_coversEntry {h : HdrRegs} {r c : Nat} (hr : r < h.rows) (hc : c < h.cols) :
    ∃! p, CoversEntry h r c p := by
  obtain ⟨q, hup, hleft⟩ := exists_quadrant_of_halves (r < ceilDiv h.rows 2) (c < ceilDiv h.cols 2)
  have hrow : quadrantRow h q ≤ r := by
    unfold quadrantRow; split
    · exact Nat.zero_le r
    · omega
  have hcol : quadrantCol h q ≤ c := by
    unfold quadrantCol; split
    · exact Nat.zero_le c
    · omega
  refine ⟨(q, r - quadrantRow h q, c - quadrantCol h q), (coversEntry_iff hr hc _).mpr
    ⟨⟨Nat.add_sub_cancel' hrow, Nat.add_sub_cancel' hcol⟩, hup, hleft⟩, ?_⟩
  rintro ⟨p, i, j⟩ hp
  obtain ⟨⟨hi, hj⟩, hup', hleft'⟩ := (coversEntry_iff hr hc _).mp hp
  obtain rfl : p = q := quadrant_eq_of_halves p q (hup'.symm.trans hup) (hleft'.symm.trans hleft)
  simp only [← hi, ← hj, Nat.add_sub_cancel_left]

end Sys2Proof.Machine

namespace Sys2Proof.Proofs

open Sys2Proof.Machine

/-- Settles O16: an element of a quadrant has one row and one column, and their halves say which quadrant. -/
theorem quadrantsTile : Obligations.QuadrantsTile := by
  intro h
  refine ⟨rfl, rfl, rfl, rfl, fun r c hr hc => existsUnique_coversEntry hr hc, fun q i j hi hj => ?_,
    fun hrows => ?_, fun hcols => ?_⟩
  · obtain ⟨hr, hup⟩ := (row_of_quadrant h q i).mp hi
    obtain ⟨hc, hleft⟩ := (col_of_quadrant h q j).mp hj
    exact ⟨_, _, hr, hc, quadrant_index h q i j, hup, hleft⟩
  · simp [quadrantOf, hrows]
  · simp [quadrantOf, hcols]

end Sys2Proof.Proofs
end

section
/-! SUPPORT. The sign pass (R84, R145): the scan of one entry, and the sign bit of one entry. -/

namespace Sys2Proof.Machine

open Sys2Proof.Safety

/-- With no move of the host to come, a step at a position that reads no token is the engine's operation. -/
theorem step_at {p : Point} {s : State} (h : At p s) (hp : p.slot = none) : step s = engineOp s := by
  obtain ⟨hplan, rfl⟩ := h
  simp [step, nextEvent, hplan, engineEvent, hp]

theorem sameMemory_of_eq {s t : State} (hA : t.A = s.A) (hS : t.S = s.S) (hT : t.T = s.T) (hO : t.O = s.O) :
    SameMemory s t := by
  simp [SameMemory, SameGrid, SameScratch, SameBuffer, hA, hS, hT, hO]

/-- What a read of the grid that gives a value says: the index is in bounds, and the value is the entry's. -/
theorem readGrid_eq_ok {b : Bank 32} {i : Nat} {v : Word} : b.readGrid i = .ok v ↔ i < b.size ∧ b.entry i = v := by
  rw [readGrid_eq]
  split <;> simp [*]

theorem step_sign {s : State} (h : At .sign s) : step s = scanSigns s := by
  rw [step_at h rfl, engineOp, h.2]

theorem scanSigns_entry {s : State} (hi : s.gi < s.A.size) :
    scanSigns s = .next (if s.A.entry s.gi = 0 then { s with gi := s.gi + 1 } else s.goto .sgn) := by
  simp only [scanSigns, hi, if_true, readGrid_ok hi]
  split <;> rfl

theorem scanSigns_end {s : State} (hi : s.A.size ≤ s.gi) : scanSigns s = .next (s.goto .pad2) := by
  rw [scanSigns, if_neg (Nat.not_lt.mpr hi)]

/-- A sign bit replaces the entry, and the scan goes on with the next one. -/
theorem execSgn_eq {b : BitVec 1} {s : State} (hp : s.point = .sgn) (hi : s.gi < s.A.size) :
    execSgn b s = .next (State.goto .sign
      { s with A := if b = 1 then s.A.setEntry s.gi (-s.A.entry s.gi) else s.A, gi := s.gi + 1 }) := by
  have hslot : s.point.slot = some .sgn := by rw [hp]; rfl
  rw [execSgn, inSlot, if_pos hslot, readGrid_ok hi]
  by_cases hb : b = 1
  · simp only [hb, if_true, writeGrid_ok hi]
  · simp only [hb, if_false]

end Sys2Proof.Machine

namespace Sys2Proof.Proofs

open Sys2Proof.Machine Sys2Proof.Safety

/-- Settles O30, by the scan of one entry and the sign bit of one entry. -/
theorem signPass : Obligations.SignPass := by
  refine ⟨fun s hs => ⟨fun v hv => ?_, fun hend => ?_⟩, fun b v s hp hv => ?_⟩
  · obtain ⟨hi, rfl⟩ := readGrid_eq_ok.mp hv
    rw [step_sign hs, scanSigns_entry hi]
    by_cases hz : s.A.entry s.gi = 0
    · rw [if_pos hz]
      exact ⟨_, rfl, sameMemory_of_eq rfl rfl rfl rfl, ⟨rfl, rfl, rfl, rfl⟩, fun _ => ⟨hs.2, rfl⟩, fun hne => absurd hz hne⟩
    · rw [if_neg hz]
      exact ⟨_, rfl, sameMemory_of_eq rfl rfl rfl rfl, ⟨rfl, rfl, rfl, rfl⟩, fun h => absurd h hz, fun _ => ⟨rfl, rfl⟩⟩
  · rw [step_sign hs, scanSigns_end hend]
    exact ⟨_, rfl, rfl, sameMemory_of_eq rfl rfl rfl rfl, ⟨rfl, rfl, rfl, rfl⟩⟩
  · obtain ⟨hi, rfl⟩ := readGrid_eq_ok.mp hv
    refine ⟨_, if b = 1 then -s.A.entry s.gi else s.A.entry s.gi, execSgn_eq hp hi, ?_, rfl, rfl, fun hb => ?_, fun hb => ?_⟩
    · refine readGrid_eq_ok.mpr ?_
      split
      · exact ⟨hi, entry_setEntry_same ..⟩
      · exact ⟨hi, rfl⟩
    · rw [if_pos hb, BitVec.toInt_neg]
    · rw [if_neg (by rw [hb]; decide)]

end Sys2Proof.Proofs
end

section
/-! SUPPORT. Rounding (R11): the mask of `rnd` rounds down to a multiple, and its sum puts the halfway point away from zero. -/

namespace Sys2Proof.Machine

theorem ofNat_twoPow (e : Nat) : (BitVec.ofNat 32 (2 ^ e) : Word) = BitVec.twoPow 32 e :=
  BitVec.eq_of_toNat_eq (by simp [BitVec.toNat_twoPow])

/-- A power of two below the sign bit is itself as an `i32`. -/
theorem toInt_ofNat_twoPow {e : Nat} (he : e ≤ 30) : (BitVec.ofNat 32 (2 ^ e) : Word).toInt = 2 ^ e := by
  have hpos : (0 : Int) < 2 ^ e := by positivity
  have hlt : (2 : Int) ^ e < 2 ^ 31 := pow_lt_pow_right₀ (by decide) (by omega)
  rw [BitVec.toInt_ofNat', Nat.cast_pow, Nat.cast_ofNat]
  exact Int.bmod_eq_of_le (by omega) (by omega)

/-- Halving a power of two, arithmetically (R8). -/
theorem asr_ofNat_twoPow {e : Nat} (he : e ≤ 29) : asr (BitVec.ofNat 32 (2 ^ (e + 1))) 1 = BitVec.ofNat 32 (2 ^ e) := by
  apply BitVec.eq_of_toInt_eq
  rw [asr, BitVec.toInt_sshiftRight, toInt_ofNat_twoPow (by omega), toInt_ofNat_twoPow (by omega), Int.shiftRight_eq_div_pow]
  omega

/-- Masking off the low `e` bits is shifting them out and back. -/
theorem and_neg_twoPow_eq_shift (x : Word) (e : Nat) :
    x &&& -BitVec.ofNat 32 (2 ^ e) = asr x e <<< e := by
  have hmask : -BitVec.ofNat 32 (2 ^ e) = BitVec.allOnes 32 <<< e := by
    rw [BitVec.shiftLeft_eq_mul_twoPow, ← BitVec.neg_one_eq_allOnes, ← ofNat_twoPow, BitVec.neg_mul, BitVec.one_mul]
  ext i hi
  simp only [hmask, asr, BitVec.getElem_and, BitVec.getElem_shiftLeft, BitVec.getElem_allOnes]
  by_cases hie : i < e
  · simp [hie]
  · have h : e + (i - e) = i := by omega
    simp [hie, BitVec.getElem_sshiftRight, h, hi]

/-- Masking off the low `e` bits rounds down to a multiple of `2^e`. -/
theorem toInt_and_neg_twoPow (x : Word) {e : Nat} (he : e ≤ 30) :
    (x &&& -BitVec.ofNat 32 (2 ^ e)).toInt = 2 ^ e * (x.toInt / 2 ^ e) := by
  have hpos : (0 : Int) < 2 ^ e := by positivity
  have hhi := BitVec.toInt_lt (x := x)
  have hlo : -2 ^ (31 - e) ≤ x.toInt / 2 ^ e := by
    rw [Int.le_ediv_iff_mul_le hpos, neg_mul, ← pow_add, Nat.sub_add_cancel (by omega)]
    exact BitVec.le_toInt x
  have hlo' : -2 ^ 31 ≤ 2 ^ e * (x.toInt / 2 ^ e) := by
    calc (-2 ^ 31 : Int) = 2 ^ e * -2 ^ (31 - e) := by rw [mul_neg, ← pow_add, Nat.add_sub_cancel' (by omega)]
      _ ≤ _ := by gcongr
  have hle := Int.mul_ediv_self_le (x := x.toInt) hpos.ne'
  rw [and_neg_twoPow_eq_shift, BitVec.shiftLeft_eq_mul_twoPow, ← ofNat_twoPow, BitVec.toInt_mul, toInt_ofNat_twoPow he, asr,
    BitVec.toInt_sshiftRight, Int.shiftRight_eq_div_pow, mul_comm, Nat.cast_pow, Nat.cast_ofNat]
  exact Int.bmod_eq_of_le (by omega) (by omega)

/-- The formula of R11, with half of `2^(e+1)` written out. -/
theorem rnd_succ (v : Word) {e : Nat} (he : e ≤ 29) :
    rnd v (e + 1) = (v + (if 0 ≤ v.toInt then BitVec.ofNat 32 (2 ^ e) else BitVec.ofNat 32 (2 ^ e) - 1)) &&&
      -BitVec.ofNat 32 (2 ^ (e + 1)) := by
  simp only [rnd, roundWith, nonneg, asr_ofNat_twoPow he, decide_eq_true_eq]

/-- The rounding sum of a value that is not negative, where it does not wrap. -/
theorem toInt_roundSum_nonneg {v : Word} {e : Nat} (he : e ≤ 29) (hv : 0 ≤ v.toInt) (hw : v.toInt + 2 ^ e < 2 ^ 31) :
    (v + BitVec.ofNat 32 (2 ^ e)).toInt = v.toInt + 2 ^ e := by
  have hpos : (0 : Int) < 2 ^ e := by positivity
  rw [BitVec.toInt_add, toInt_ofNat_twoPow (by omega)]
  exact Int.bmod_eq_of_le (by omega) (by omega)

/-- The rounding sum of a negative value, which never wraps. -/
theorem toInt_roundSum_neg {v : Word} {e : Nat} (he : e ≤ 29) (hv : v.toInt < 0) :
    (v + (BitVec.ofNat 32 (2 ^ e) - 1)).toInt = v.toInt + 2 ^ e - 1 := by
  have hpos : (0 : Int) < 2 ^ e := by positivity
  have hlt : (2 : Int) ^ e < 2 ^ 31 := pow_lt_pow_right₀ (by decide) (by omega)
  have hlo := BitVec.le_toInt v
  have hnrnd : (BitVec.ofNat 32 (2 ^ e) - 1 : Word).toInt = 2 ^ e - 1 := by
    have hone : (1 : Word).toInt = 1 := rfl
    rw [BitVec.toInt_sub, toInt_ofNat_twoPow (by omega), hone]
    exact Int.bmod_eq_of_le (by omega) (by omega)
  rw [BitVec.toInt_add, hnrnd, ← add_sub_assoc]
  exact Int.bmod_eq_of_le (by omega) (by omega)

/-- Rounding a negative value down from just below the halfway point is rounding its magnitude up from it: ties go
away from zero. -/
theorem ediv_halfway_neg {v h : Int} (hh : 0 < h) : (v + h - 1) / (h * 2) = -((-v + h) / (h * 2)) := by
  have hlo := Int.mul_ediv_self_le (x := -v + h) (k := h * 2) (by omega)
  have hhi := Int.lt_mul_ediv_self_add (x := -v + h) (k := h * 2) (by omega)
  rw [Int.ediv_eq_iff_of_pos (by omega)]
  constructor <;> linarith

end Sys2Proof.Machine

namespace Sys2Proof.Proofs

open Sys2Proof.Machine

/-- Settles O41: the mask rounds down, and the sum puts the halfway point away from zero on either side. -/
theorem roundNearest : Obligations.RoundNearest := by
  intro v n hn hn'
  obtain ⟨e, rfl⟩ : ∃ e, n = e + 1 := ⟨n - 1, by omega⟩
  have he : e ≤ 29 := by omega
  simp only [Nat.add_sub_cancel]
  refine ⟨rnd_succ v he, fun hw => ?_⟩
  rw [rnd_succ v he, toInt_and_neg_twoPow _ hn']
  by_cases hv : 0 ≤ v.toInt
  · rw [if_pos hv, if_pos hv, toInt_roundSum_nonneg he hv hw]
  · rw [if_neg hv, if_neg hv, toInt_roundSum_neg he (by omega), pow_succ, ediv_halfway_neg (by positivity), mul_neg]

end Sys2Proof.Proofs
end

section
/-! SUPPORT. What a step of the engine does to the position and to `STATUS`, and what a transaction of the host makes of the
state: said once, for the invariants (R30, R32, R245). -/

namespace Sys2Proof.Machine

open Sys2Proof.Safety

/-! ### The host -/

/-- What a transaction of the host makes of `s`: an answer alone, a fresh session, or the state after reset. -/
inductive HostChange (s : State) : State → Prop where
  | answered (r : HostReply) : HostChange s { s with reply := some r }
  | started (bytes : List Byte) : HostChange s (startSession bytes s)
  | reset : HostChange s { State.reset with cfg := s.cfg, plan := s.plan }

theorem hostStart_next {bytes : List Byte} {s t : State} (h : hostStart bytes s = .next t) : HostChange s t := by
  unfold hostStart at h
  split at h
  · cases h
  · split at h
    · cases next_inj h; exact .answered .busy
    · cases next_inj h; exact .started bytes

theorem hostMove_next {m : HostMove} {s t : State} (hm : m ≠ .wait) (h : hostMove m s = .next t) : HostChange s t := by
  cases m with
  | start bytes => exact hostStart_next h
  | readStatus => cases next_inj h; exact .answered _
  | readOutput => cases next_inj h; exact .answered _
  | reset => cases next_inj h; exact .reset
  | wait => exact absurd rfl hm

/-- What the engine's step keeps, a step keeps, when it does not look at the host's side and holds where a session starts and
after reset. -/
theorem step_keeps {P : State → Prop} {s t : State} (h : step s = .next t) (hs : P s)
    (hhost : ∀ s plan reply, P s → P { s with plan := plan, reply := reply })
    (hstart : ∀ bytes s, P (startSession bytes s))
    (hreset : ∀ cfg plan, P { State.reset with cfg := cfg, plan := plan })
    (hengine : ∀ s t, P s → (engineEvent s).run = .next t → P t) : P t := by
  rcases step_cases s with ⟨-, he⟩ | ⟨rest, -, he⟩ | ⟨m, rest, -, hm, he⟩
  · exact hengine s t hs (he ▸ h)
  · exact hengine _ t (hhost s rest s.reply hs) (he ▸ h)
  · cases hostMove_next hm (he ▸ h) with
    | answered r => exact hhost s rest (some r) hs
    | started bytes => exact hstart bytes _
    | reset => exact hreset s.cfg rest

/-! ### The course of a session -/

/-- Position `q` may follow position `p` in a running session: in the same phase, or in the next of the sequence (R30). -/
def inSequence (p q : Point) : Prop :=
  p.phase.sessionState = .busy ∧ q.phase.sessionState = .busy ∧ (q.phase = p.phase ∨ phaseAfter p.phase = some q.phase)

/-- What a step of the engine does to the position and to `STATUS`. -/
inductive Course (s : State) : State → Prop where
  | stays {t : State} (hpoint : t.point = s.point) (hphase : t.phase = s.phase) (hstatus : t.status = s.status) : Course s t
  | goes (q : Point) (u : State) (hq : inSequence s.point q) (hstatus : u.status = s.status) : Course s (State.goto q u)
  | captured (u : State) (hp : s.point = .nbp2) (hstatus : u.status = s.status) :
      Course s (State.goto .admitHdr (captureHeader u))
  | raised (k : ErrKind) (u : State) (hp : s.point.phase.sessionState = .busy) (hk : k ≠ .none)
      (hstatus : u.status = s.status) : Course s (raise k u)
  | refused (r : RefuseReason) (u : State) (hp : s.point.phase.sessionState = .busy) (hr : r ≠ .none)
      (hstatus : u.status = s.status) : Course s (refuse r u)
  | finished (u : State) (hp : s.point = .pack) (hstatus : u.status = s.status) : Course s (finish u)

theorem admission_ne_none (cfg : Config.Params) (h : HdrRegs) : admission cfg h ≠ some .none := by
  unfold admission
  split
  · decide
  · split
    · decide
    · split <;> decide

theorem Course.goto {s u : State} {p q : Point} (hp : s.point = p) (hstatus : u.status = s.status)
    (hp' : p.phase.sessionState = .busy) (hq : q.phase.sessionState = .busy)
    (hnext : q.phase = p.phase ∨ phaseAfter p.phase = some q.phase) : Course s (State.goto q u) :=
  .goes q u (hp ▸ ⟨hp', hq, hnext⟩) hstatus

theorem EngineMove.course {s t : State} (h : EngineMove s t) : Course s t := by
  cases h with
  | stay => exact .stays rfl rfl rfl
  | scanZero => exact .stays rfl rfl rfl
  | signZero => exact .stays rfl rfl rfl
  | pixel => exact .stays rfl rfl rfl
  | refused hp _ r ha =>
    exact .refused r s (by rw [hp]; rfl) (fun hr => admission_ne_none s.cfg s.hdr (hr ▸ ha)) rfl
  | packed hp => exact .finished s hp rfl
  | cleared hp => exact .goto hp rfl rfl rfl (.inr rfl)
  | bitplanesDone hp => exact .goto hp rfl rfl rfl (.inr rfl)
  | dcSet hp => exact .goto hp rfl rfl rfl (.inr rfl)
  | scaled hp => exact .goto hp rfl rfl rfl (.inr rfl)
  | transformDone hp => exact .goto hp rfl rfl rfl (.inr rfl)
  | _ hp => exact .goto hp rfl rfl rfl (.inl rfl)

theorem TokenMove.course {i : Instr} {s t : State} (h : TokenMove s i t) : Course s t := by
  cases h with
  | nbp2 hp n => exact .captured _ hp rfl
  | emptyQuadrant hp => exact .refused _ _ (by rw [hp]; rfl) (by decide) rfl
  | badFormat hp => exact .raised _ _ (by rw [hp]; rfl) (by decide) rfl
  | badTerminator hp => exact .raised _ _ (by rw [hp]; rfl) (by decide) rfl
  | pad1 hp => exact .goto hp rfl rfl rfl (.inr rfl)
  | pad2 hp => exact .goto hp rfl rfl rfl (.inr rfl)
  | _ hp => exact .goto hp rfl rfl rfl (.inl rfl)

/-- A position that reads a token is a running session's (R88). -/
theorem busy_of_slot {p : Point} {k : Slot} (h : p.slot = some k) : p.phase.sessionState = .busy := by
  cases p <;> simp [Point.slot] at h <;> rfl

/-- Reading the stream changes neither the position nor `STATUS`. -/
theorem Course.of_moved {s u t : State} (hm : Moved s u) (h : Course u t) : Course s t := by
  have hpoint : u.point = s.point := by rw [hm.same]
  have hphase : u.phase = s.phase := by rw [hm.same]
  have hstatus : u.status = s.status := by rw [hm.same]
  cases h with
  | stays hp hph hst => exact .stays (hp.trans hpoint) (hph.trans hphase) (hst.trans hstatus)
  | goes q v hq hst => exact .goes q v (hpoint ▸ hq) (hst.trans hstatus)
  | captured v hp hst => exact .captured v (hpoint ▸ hp) (hst.trans hstatus)
  | raised k v hp hk hst => exact .raised k v (hpoint ▸ hp) hk (hst.trans hstatus)
  | refused r v hp hr hst => exact .refused r v (hpoint ▸ hp) hr (hst.trans hstatus)
  | finished v hp hst => exact .finished v (hpoint ▸ hp) (hst.trans hstatus)

theorem StepMove.course {s t : State} (h : StepMove s t) : Course s t := by
  cases h with
  | op h => exact h.course
  | token i u _ hm _ h => exact h.course.of_moved hm
  | ended k hs h =>
    cases h with
    | exhausted u hm => exact .raised _ u (busy_of_slot hs) (by decide) (by rw [hm.same])
    | badMagic _ u hm => exact .raised _ u (busy_of_slot hs) (by decide) (by rw [hm.same])

theorem Course.keeps_positionOk {s t : State} (h : Course s t) (hs : PositionOk s) : PositionOk t := by
  obtain ⟨hphase, hstate⟩ := hs
  cases h with
  | stays hp hph hst => exact ⟨by rw [hph, hp, hphase], by rw [hst, hph, hstate]⟩
  | goes q u hq hst =>
    obtain ⟨hbusy, hbusy', -⟩ := hq
    refine ⟨rfl, ?_⟩
    calc u.status.state = s.phase.sessionState := hst ▸ hstate
      _ = q.phase.sessionState := by rw [hphase, hbusy, hbusy']
  | captured u hp hst =>
    refine ⟨rfl, ?_⟩
    calc u.status.state = s.phase.sessionState := hst ▸ hstate
      _ = .busy := by rw [hphase, hp]; rfl
  | raised => exact ⟨rfl, rfl⟩
  | refused => exact ⟨rfl, rfl⟩
  | finished => exact ⟨rfl, rfl⟩

end Sys2Proof.Machine

namespace Sys2Proof.Proofs

open Sys2Proof.Machine Sys2Proof.Safety

/-- Settles O53: a running session goes on to a position of its own, and an end writes its state. -/
theorem stepKeepsPosition : Obligations.StepKeepsPosition := by
  intro s t hs h
  exact step_keeps (P := PositionOk) h hs (fun _ _ _ hs => hs) (fun _ _ => ⟨rfl, rfl⟩) (fun _ _ => ⟨rfl, rfl⟩)
    (fun s t hs h => (engineEvent_next h).course.keeps_positionOk hs)

end Sys2Proof.Proofs
end

section
/-! SUPPORT. The stream cursor (R22, R23): an operation that reads no token leaves it, a token's meaning moves it no further, and
in the header each field has brought it to the next field's offset (R71, R107). -/

namespace Sys2Proof.Machine

open Sys2Proof.Safety

theorem EngineMove.sameStream {s t : State} (h : EngineMove s t) : SameStream s t := by
  cases h <;> exact ⟨rfl, rfl, rfl, rfl⟩

theorem TokenMove.input_eq {i : Instr} {s t : State} (h : TokenMove s i t) : t.input = s.input := by
  cases h <;> rfl

theorem TokenMove.pos_eq {i : Instr} {s t : State} (h : TokenMove s i t) : t.pos = s.pos := by
  cases h <;> rfl

/-- The meaning of a token keeps the live bits, or drops them at `ALIGN`. -/
theorem TokenMove.btg_le {i : Instr} {s t : State} (h : TokenMove s i t) : t.btg ≤ s.btg := by
  cases h with
  | align1 | align2 => exact Nat.zero_le _
  | _ => exact le_refl _

/-- An operation that leads to a position with an offset comes from one with the same offset. -/
theorem EngineMove.headerBytes {s t : State} {n : Nat} (h : EngineMove s t) (hn : headerBytesAt t.point = some n) :
    headerBytesAt s.point = some n := by
  cases h with
  | stay | scanZero | signZero | pixel => exact hn
  | admitted hp => rw [hp]; exact hn
  | cleared hp => rw [hp]; exact hn
  | _ => cases hn

/-- A token that leads to a position with an offset is a header field, and ends there. -/
theorem TokenMove.headerBytes {i : Instr} {s t : State} {n : Nat} (h : TokenMove s i t)
    (hn : headerBytesAt t.point = some n) :
    ∃ m k, headerBytesAt s.point = some m ∧ fieldBytes i.slot = some k ∧ n = m + k := by
  cases h with
  | magic hp | nx hp | ny hp | scale hp | sumall hp | nbp0 hp | nbp1 hp | nbp2 hp =>
    cases hn
    exact ⟨_, _, by rw [hp]; rfl, rfl, rfl⟩
  | _ => cases hn

theorem EngineMove.keeps_cursorOk {s t : State} (h : EngineMove s t) (hs : CursorOk s) : CursorOk t := by
  obtain ⟨hlive, hinside, hheader⟩ := hs
  obtain ⟨hinput, hpos, -, hbtg⟩ := h.sameStream
  refine ⟨hbtg ▸ hlive, by rw [hpos, hinput]; exact hinside, fun n hn => ?_⟩
  rw [hpos, hbtg]
  exact hheader n (h.headerBytes hn)

/-- A token of the place read and run from a cursor within its bounds. -/
theorem TokenMove.keeps_cursorOk {i : Instr} {s u t : State} (h : TokenMove u i t) (hm : Moved s u)
    (hfield : ∀ n, fieldBytes i.slot = some n → u.pos = s.pos + n ∧ u.btg = s.btg) (hs : CursorOk s) : CursorOk t := by
  obtain ⟨hlive, hinside, hheader⟩ := hs
  refine ⟨h.btg_le.trans (hm.live hlive), ?_, fun n hn => ?_⟩
  · rw [h.pos_eq, h.input_eq, hm.input_eq]
    exact hm.inside hinside
  · obtain ⟨m, k, hstart, hk, rfl⟩ := h.headerBytes hn
    obtain ⟨hpos, hbtg⟩ := hfield k hk
    obtain ⟨hpos', hbtg'⟩ := hheader m (by rw [← hstart, hm.same])
    have hle := h.btg_le
    rw [h.pos_eq]
    omega

/-- An error raised where the cursor has come to. -/
theorem Moved.raise_cursorOk {s u : State} (hm : Moved s u) (k : ErrKind) (hs : CursorOk s) : CursorOk (raise k u) := by
  obtain ⟨hlive, hinside, -⟩ := hs
  exact ⟨hm.live hlive, by rw [raise_input, hm.input_eq]; exact hm.inside hinside, fun _ hn => by cases hn⟩

theorem StepMove.keeps_cursorOk {s t : State} (h : StepMove s t) (hs : CursorOk s) : CursorOk t := by
  cases h with
  | op h => exact h.keeps_cursorOk hs
  | token i u _ hm hfield h => exact h.keeps_cursorOk hm hfield hs
  | ended k _ h =>
    cases h with
    | exhausted u hm => exact hm.raise_cursorOk _ hs
    | badMagic _ u hm => exact hm.raise_cursorOk _ hs

theorem startSession_cursorOk (bytes : List Byte) (s : State) : CursorOk (startSession bytes s) :=
  ⟨Nat.zero_le 7, Nat.zero_le _, fun n hn => by cases hn; exact ⟨rfl, rfl⟩⟩

theorem reset_cursorOk (cfg : Config.Params) (plan : List HostMove) :
    CursorOk { State.reset with cfg := cfg, plan := plan } :=
  ⟨Nat.zero_le 7, Nat.zero_le 0, fun n hn => by cases hn⟩

theorem engineEvent_keeps_cursorOk {s t : State} (hs : CursorOk s) (h : (engineEvent s).run = .next t) : CursorOk t :=
  (engineEvent_next h).keeps_cursorOk hs

end Sys2Proof.Machine

namespace Sys2Proof.Proofs

open Sys2Proof.Machine Sys2Proof.Safety

/-- Settles O54: only a fetch moves the cursor, and a header field moves it to the next one's offset. -/
theorem stepKeepsCursor : Obligations.StepKeepsCursor := by
  intro s t hs h
  exact step_keeps (P := CursorOk) h hs (fun _ _ _ hs => hs) startSession_cursorOk reset_cursorOk
    (fun _ _ => engineEvent_keeps_cursorOk)

end Sys2Proof.Proofs
end

section
/-! SUPPORT. No operation resizes a memory it writes to (R25, R27): the sizes after the insertion of a plane, the undigitize step,
the unshuffle and the combine. -/

namespace Sys2Proof.Machine

/-- A loop over a bank keeps its size when each of its rounds does. -/
theorem forEach_size {w : Nat} {f : Nat → Bank w → Except Fault (Bank w)} {is : List Nat} {a b : Bank w}
    (h : forEach f is a = .ok b) (hf : ∀ i a c, f i a = .ok c → c.size = a.size) : b.size = a.size :=
  forEach_keeps (P := fun c => c.size = a.size) (fun i _ c d hc hd => (hf i c d hd).trans hc) rfl h

theorem insertBit_size {r : QtRegs} {b : Bank 4} {i j : Nat} {a c : Bank 32} (h : insertBit r b i j a = .ok c) :
    c.size = a.size := by
  unfold insertBit at h
  split at h
  · cases h
  · split at h
    · cases h
    · exact writeGrid_size h

theorem qtreeBitins_size {r : QtRegs} {b : Bank 4} {a c : Bank 32} (h : qtreeBitins r b a = .ok c) :
    c.size = a.size :=
  forEach_size h fun _ _ _ hrow => forEach_size hrow fun _ _ _ => insertBit_size

theorem scaleEntry_size {scale : Word} {i : Nat} {a c : Bank 32} (h : scaleEntry scale i a = .ok c) :
    c.size = a.size := by
  unfold scaleEntry at h
  split at h
  · exact writeGrid_size h
  · cases h

theorem scaleGrid_size {scale : Word} {a c : Bank 32} (h : scaleGrid scale a = .ok c) : c.size = a.size := by
  unfold scaleGrid at h
  split at h
  · exact forEach_size h fun _ _ _ => scaleEntry_size
  · cases h; rfl

theorem saveHalf_size {a : Bank 32} {base nhalf stride i : Nat} {t u : Bank 32}
    (h : saveHalf a base nhalf stride i t = .ok u) : u.size = t.size := by
  unfold saveHalf at h
  split at h
  · exact writeScratch_size h
  · cases h

theorem spreadHalf_size {base stride i : Nat} {a c : Bank 32} (h : spreadHalf base stride i a = .ok c) :
    c.size = a.size := by
  unfold spreadHalf at h
  split at h
  · exact writeGrid_size h
  · cases h

theorem placeHalf_size {t : Bank 32} {base stride i : Nat} {a c : Bank 32}
    (h : placeHalf t base stride i a = .ok c) : c.size = a.size := by
  unfold placeHalf at h
  split at h
  · exact writeGrid_size h
  · cases h

/-- The grid and the unshuffle buffer have their sizes as before. -/
def SameSizes (m m' : Bank 32 × Bank 32) : Prop := m'.1.size = m.1.size ∧ m'.2.size = m.2.size

theorem SameSizes.trans {m m' m'' : Bank 32 × Bank 32} (h : SameSizes m m') (h' : SameSizes m' m'') : SameSizes m m'' :=
  ⟨h'.1.trans h.1, h'.2.trans h.2⟩

theorem unshuffle_sizes {base n stride : Nat} {m m' : Bank 32 × Bank 32} (h : unshuffle base n stride m = .ok m') :
    SameSizes m m' := by
  unfold unshuffle at h
  simp only at h
  split at h
  · cases h
  · rename_i t ht
    split at h
    · cases h
    · rename_i a ha
      split at h
      · cases h
      · rename_i a' ha'
        cases h
        exact ⟨(forEach_size ha' fun _ _ _ => placeHalf_size).trans (forEach_size ha fun _ _ _ => spreadHalf_size),
          forEach_size ht fun _ _ _ => saveHalf_size⟩

/-- A loop of unshuffles keeps the sizes. -/
theorem unshuffles_sizes {base : Nat → Nat} {n stride : Nat} {is : List Nat} {m m' : Bank 32 × Bank 32}
    (h : forEach (fun i m => unshuffle (base i) n stride m) is m = .ok m') : SameSizes m m' :=
  forEach_keeps (P := SameSizes m) (fun _ _ _ _ hm hu => hm.trans (unshuffle_sizes hu)) ⟨rfl, rfl⟩ h

theorem unshuffleLevel_sizes {ny nxtop nytop : Nat} {m m' : Bank 32 × Bank 32}
    (h : unshuffleLevel ny nxtop nytop m = .ok m') : SameSizes m m' := by
  unfold unshuffleLevel at h
  split at h
  · cases h
  · rename_i m1 hrows
    exact (unshuffles_sizes (base := fun i => ny * i) hrows).trans (unshuffles_sizes (base := id) h)

theorem combineBlock_size {ny s00 : Nat} {m m' : HtRegs × Bank 32} (h : combineBlock ny s00 m = .ok m') :
    m'.2.size = m.2.size := by
  obtain ⟨_, _, h⟩ := bind_ok h
  obtain ⟨_, _, h⟩ := bind_ok h
  obtain ⟨_, _, h⟩ := bind_ok h
  obtain ⟨_, _, h⟩ := bind_ok h
  obtain ⟨_, h1, h⟩ := bind_ok h
  obtain ⟨_, h2, h⟩ := bind_ok h
  obtain ⟨_, h3, h⟩ := bind_ok h
  obtain ⟨_, h4, h⟩ := bind_ok h
  cases h
  rw [writeGrid_size h4, writeGrid_size h3, writeGrid_size h2, writeGrid_size h1]

theorem combineOddY_size {ny s00 : Nat} {m m' : HtRegs × Bank 32} (h : combineOddY ny s00 m = .ok m') :
    m'.2.size = m.2.size := by
  obtain ⟨_, _, h⟩ := bind_ok h
  obtain ⟨_, _, h⟩ := bind_ok h
  obtain ⟨_, h1, h⟩ := bind_ok h
  obtain ⟨_, h2, h⟩ := bind_ok h
  cases h
  rw [writeGrid_size h2, writeGrid_size h1]

theorem combineOddX_size {s00 : Nat} {m m' : HtRegs × Bank 32} (h : combineOddX s00 m = .ok m') :
    m'.2.size = m.2.size := by
  obtain ⟨_, _, h⟩ := bind_ok h
  obtain ⟨_, _, h⟩ := bind_ok h
  obtain ⟨_, h1, h⟩ := bind_ok h
  obtain ⟨_, h2, h⟩ := bind_ok h
  cases h
  rw [writeGrid_size h2, writeGrid_size h1]

theorem combineCorner_size {s00 : Nat} {m m' : HtRegs × Bank 32} (h : combineCorner s00 m = .ok m') :
    m'.2.size = m.2.size := by
  obtain ⟨_, _, h⟩ := bind_ok h
  obtain ⟨_, h1, h⟩ := bind_ok h
  cases h
  exact writeGrid_size h1

/-- A loop of combine steps keeps the size of the grid when each step does. -/
theorem combineLoop_size {f : Nat → HtRegs × Bank 32 → Except Fault (HtRegs × Bank 32)} {is : List Nat}
    {m m' : HtRegs × Bank 32} (h : forEach f is m = .ok m') (hf : ∀ i m m', f i m = .ok m' → m'.2.size = m.2.size) :
    m'.2.size = m.2.size :=
  forEach_keeps (P := fun c => c.2.size = m.2.size) (fun i _ c d hc hd => (hf i c d hd).trans hc) rfl h

theorem combineRows_size {ny i : Nat} {m m' : HtRegs × Bank 32} (h : combineRows ny i m = .ok m') :
    m'.2.size = m.2.size := by
  unfold combineRows at h
  split at h
  · cases h
  · rename_i m1 h1
    have hblocks := combineLoop_size h1 fun _ _ _ => combineBlock_size
    split at h
    · exact (combineOddY_size h).trans hblocks
    · cases h; exact hblocks

theorem combineLastRow_size {ny : Nat} {m m' : HtRegs × Bank 32} (h : combineLastRow ny m = .ok m') :
    m'.2.size = m.2.size := by
  unfold combineLastRow at h
  simp only at h
  split at h
  · cases h
  · rename_i m1 h1
    have hedges := combineLoop_size h1 fun _ _ _ => combineOddX_size
    split at h
    · exact (combineCorner_size h).trans hedges
    · cases h; exact hedges

theorem combineLevel_size {ny : Nat} {m m' : HtRegs × Bank 32} (h : combineLevel ny m = .ok m') :
    m'.2.size = m.2.size := by
  unfold combineLevel at h
  simp only at h
  split at h
  · cases h
  · rename_i m1 h1
    have hrows := combineLoop_size h1 fun _ _ _ => combineRows_size
    split at h
    · exact (combineLastRow_size h).trans hrows
    · cases h; exact hrows

end Sys2Proof.Machine
end

section
/-! SUPPORT. What a step of the engine leaves unchanged (R22, R24, R25, R34, R205), and the order of the phases (R30). -/

namespace Sys2Proof.Machine

open Sys2Proof.Safety

theorem EngineMove.cfg_eq {s t : State} (h : EngineMove s t) : t.cfg = s.cfg := by cases h <;> rfl

theorem EngineMove.hdr_eq {s t : State} (h : EngineMove s t) : t.hdr = s.hdr := by cases h <;> rfl

/-- Only a pixel is output (R205). -/
theorem EngineMove.output_eq {s t : State} (h : EngineMove s t) (hp : s.point ≠ .pack) : t.O = s.O := by
  cases h with
  | pixel h => exact absurd h hp
  | _ => rfl

/-- Admission allocates the grid, and no other operation resizes it (R25). -/
theorem EngineMove.size_eq {s t : State} (h : EngineMove s t) (hp : s.point ≠ .admitHdr) : t.A.size = s.A.size := by
  cases h with
  | refused h => exact absurd h hp
  | admitted h => exact absurd h hp
  | inserted _ a ha => exact qtreeBitins_size ha
  | dcSet _ _ a ha => exact writeGrid_size ha
  | scaled _ _ a ha => exact scaleGrid_size ha
  | transformBegun _ _ _ a _ ha => exact writeGrid_size ha
  | unshuffled _ m hm => exact (unshuffleLevel_sizes hm).1
  | combined _ m hm => exact combineLevel_size hm
  | _ => rfl

theorem TokenMove.cfg_eq {i : Instr} {s t : State} (h : TokenMove s i t) : t.cfg = s.cfg := by cases h <;> rfl

theorem TokenMove.output_eq {i : Instr} {s t : State} (h : TokenMove s i t) : t.O = s.O := by cases h <;> rfl

/-- Only a header field writes the header (R24). -/
theorem TokenMove.hdr_eq {i : Instr} {s t : State} (h : TokenMove s i t) (hi : fieldBytes i.slot = none) :
    t.hdr = s.hdr := by
  cases h with
  | nx | ny | scale | sumall | nbp0 | nbp1 | nbp2 => cases hi
  | _ => rfl

/-- A token keeps the size of the grid unless it ends the session. -/
theorem TokenMove.size_eq {i : Instr} {s t : State} (h : TokenMove s i t)
    (ht : t.status.state = .busy ∨ t.status.state = .done) : t.A.size = s.A.size := by
  cases h with
  | emptyQuadrant | badFormat | badTerminator => simp at ht
  | _ => rfl

/-! ### A step of the engine -/

theorem StepMove.input_eq {s t : State} (h : StepMove s t) : t.input = s.input := by
  cases h with
  | op h => exact h.sameStream.1
  | token i u _ hm _ h => exact h.input_eq.trans hm.input_eq
  | ended _ _ h =>
    cases h with
    | exhausted u hm => exact hm.input_eq
    | badMagic _ u hm => exact hm.input_eq

theorem StepMove.pos_le {s t : State} (h : StepMove s t) : s.pos ≤ t.pos := by
  cases h with
  | op h => exact h.sameStream.2.1.ge
  | token i u _ hm _ h => exact hm.forward.trans h.pos_eq.ge
  | ended _ _ h =>
    cases h with
    | exhausted u hm => exact hm.forward
    | badMagic _ u hm => exact hm.forward

theorem StepMove.cfg_eq {s t : State} (h : StepMove s t) : t.cfg = s.cfg := by
  cases h with
  | op h => exact h.cfg_eq
  | token i u _ hm _ h => rw [h.cfg_eq, hm.same]
  | ended _ _ h =>
    cases h with
    | exhausted u hm => rw [raise_cfg, hm.same]
    | badMagic _ u hm => rw [raise_cfg, hm.same]

theorem StepMove.output_eq {s t : State} (h : StepMove s t) (hp : s.point ≠ .pack) : t.O = s.O := by
  cases h with
  | op h => exact h.output_eq hp
  | token i u _ hm _ h => rw [h.output_eq, hm.same]
  | ended _ _ h =>
    cases h with
    | exhausted u hm => rw [raise_O, hm.same]
    | badMagic _ u hm => rw [raise_O, hm.same]

/-- Where no header field is read, the header stays. -/
theorem StepMove.hdr_eq {s t : State} (h : StepMove s t) (hp : ∀ k, s.point.slot = some k → fieldBytes k = none) :
    t.hdr = s.hdr := by
  cases h with
  | op h => exact h.hdr_eq
  | token i u hs hm _ h => rw [h.hdr_eq (hp _ hs), hm.same]
  | ended _ _ h =>
    cases h with
    | exhausted u hm => rw [raise_hdr, hm.same]
    | badMagic _ u hm => rw [raise_hdr, hm.same]

/-- Beside admission, the size of the grid stays until the session ends early. -/
theorem StepMove.size_eq {s t : State} (h : StepMove s t) (hp : s.point ≠ .admitHdr)
    (ht : t.status.state = .busy ∨ t.status.state = .done) : t.A.size = s.A.size := by
  cases h with
  | op h => exact h.size_eq hp
  | token i u _ hm _ h => rw [h.size_eq ht, hm.same]
  | ended _ _ h => cases h <;> simp at ht

/-! ### The phase and `STATUS` -/

theorem Course.phase_order {s t : State} (h : Course s t) (hs : PositionOk s) :
    t.phase = s.phase ∨ (s.phase ≠ .idle ∧ phaseAfter s.phase = some t.phase) ∨
      (s.status.state = .busy ∧ (t.phase = .error ∨ t.phase = .refused)) := by
  obtain ⟨hphase, hstate⟩ := hs
  cases h with
  | stays _ hph => exact .inl hph
  | goes q u hq =>
    obtain ⟨hbusy, -, hnext⟩ := hq
    rw [← hphase] at hbusy hnext
    rcases hnext with hsame | hafter
    · exact .inl hsame
    · exact .inr (.inl ⟨fun hidle => by simp [hidle, Phase.sessionState] at hbusy, hafter⟩)
  | captured u hp => exact .inl (by rw [hphase, hp]; rfl)
  | raised k u hp => exact .inr (.inr ⟨by rw [hstate, hphase, hp], .inl rfl⟩)
  | refused r u hp => exact .inr (.inr ⟨by rw [hstate, hphase, hp], .inr rfl⟩)
  | finished u hp => exact .inr (.inl (by rw [hphase, hp]; exact ⟨by decide, rfl⟩))

/-- The header capture is as before (R34). -/
def SameCapture (r r' : Status) : Prop :=
  r'.hdrNx = r.hdrNx ∧ r'.hdrNy = r.hdrNy ∧ r'.hdrScale = r.hdrScale ∧ r'.hdrSumall = r.hdrSumall ∧
  r'.hdrNbp0 = r.hdrNbp0 ∧ r'.hdrNbp1 = r.hdrNbp1 ∧ r'.hdrNbp2 = r.hdrNbp2 ∧ r'.hdrValid = r.hdrValid

theorem SameCapture.refl (r : Status) : SameCapture r r := ⟨rfl, rfl, rfl, rfl, rfl, rfl, rfl, rfl⟩

/-- The header capture of `STATUS` is written by the last token of the header only. -/
theorem Course.sameCapture {s t : State} (h : Course s t) (hp : s.point ≠ .nbp2) : SameCapture s.status t.status := by
  cases h with
  | stays _ _ hst => exact hst ▸ .refl _
  | goes q u _ hst => exact hst ▸ .refl _
  | captured u h => exact absurd h hp
  | raised k u _ _ hst => exact hst ▸ .refl u.status
  | refused r u _ _ hst => exact hst ▸ .refl u.status
  | finished u _ hst => exact hst ▸ .refl u.status

/-- The rest of `STATUS` is written only where the session ends. -/
theorem Course.status_of_state {s t : State} (h : Course s t) (hs : PositionOk s) (hp : s.point ≠ .nbp2)
    (ht : t.status.state = s.status.state) : t.status = s.status := by
  obtain ⟨hphase, hstate⟩ := hs
  rw [hstate, hphase] at ht
  cases h with
  | stays _ _ hst => exact hst
  | goes q u _ hst => exact hst
  | captured u h => exact absurd h hp
  | raised k u h => rw [h] at ht; cases ht
  | refused r u h => rw [h] at ht; cases ht
  | finished u h => rw [h] at ht; cases ht

/-- Outside the header no position reads a header field (R88). -/
theorem fieldBytes_of_slot {p : Point} {k : Slot} (h : p.slot = some k)
    (hp : p ∉ [Point.magic, .nx, .ny, .scale, .sumall, .nbp0, .nbp1, .nbp2]) : fieldBytes k = none := by
  cases p <;> simp [Point.slot] at h hp <;> subst h <;> rfl

end Sys2Proof.Machine

namespace Sys2Proof.Proofs

open Sys2Proof.Machine Sys2Proof.Safety

/-- Settles O58, from the course of a step and from what it leaves unchanged. -/
theorem phaseOrder : Obligations.PhaseOrder := by
  intro s t hs hplan h
  have hmove : StepMove s t := by
    rcases step_next h with ⟨-, hm⟩ | ⟨rest, hp, -⟩ | ⟨m, rest, hp, -⟩
    · exact hm
    · rw [hplan] at hp; cases hp
    · rw [hplan] at hp; cases hp
  have hcourse := hmove.course
  refine ⟨hcourse.phase_order hs, hmove.input_eq, hmove.pos_le, hmove.cfg_eq, hmove.output_eq, fun hp => ?_, fun hp => ?_⟩
  · obtain ⟨hnx, hny, hscale, hsumall, hnbp0, hnbp1, hnbp2, hvalid⟩ := hcourse.sameCapture hp
    exact ⟨hnx, hny, hscale, hsumall, hnbp0, hnbp1, hnbp2, hvalid, hcourse.status_of_state hs hp⟩
  · simp only [List.mem_cons, not_or] at hp
    refine ⟨hmove.hdr_eq fun k hk => fieldBytes_of_slot hk ?_, hmove.size_eq ?_⟩
    · simp [hp]
    · exact hp.2.2.2.2.2.2.2.2.2.1

end Sys2Proof.Proofs
end

section
/-! SUPPORT. The output (R28, R207, R209): empty before the pack phase, two bytes a pixel in it, all of the grid at its end. -/

namespace Sys2Proof.Machine

open Sys2Proof.Safety

theorem positionOk_phase {s : State} (h : PositionOk s) : s.phase = s.point.phase := h.1

theorem positionOk_state {s : State} (h : PositionOk s) : s.status.state = s.point.phase.sessionState := by
  rw [h.2, h.1]

theorem positionOk_done_iff {s : State} (h : PositionOk s) : s.status.state = .done ↔ s.point.phase = .done := by
  rw [positionOk_state h]
  cases s.point.phase <;> decide

/-- A position from which no pixel has been packed yet, or whose session has ended early. -/
def noPixelAt (p : Point) : Prop := p.phase ≠ .pack ∧ p.phase ≠ .done

theorem outputOk_iff_empty {s : State} (hs : PositionOk s) (hp : noPixelAt s.point) :
    OutputOk s ↔ s.O = [] ∧ s.status.outLen = 0 := by
  obtain ⟨hpack, hdone⟩ := hp
  simp [OutputOk, positionOk_phase hs, positionOk_done_iff hs, hpack, hdone]

theorem outputOk_iff_packing {s : State} (hs : PositionOk s) (hp : s.point = .pack) :
    OutputOk s ↔ (s.O.length = 2 * s.gi ∧ s.gi ≤ s.A.size) ∧ s.status.outLen = 0 := by
  simp [OutputOk, positionOk_phase hs, positionOk_done_iff hs, hp, Point.phase]

theorem outputOk_iff_done {s : State} (hs : PositionOk s) (hp : s.point = .done) :
    OutputOk s ↔ s.O.length = s.status.outLen ∧ s.status.outLen = 2 * s.A.size := by
  simp [OutputOk, positionOk_phase hs, positionOk_done_iff hs, hp, Point.phase]

/-- Outside the pack phase the output stays empty. -/
theorem outputOk_stays_empty {s t : State} (h : OutputOk s) (hs : PositionOk s) (ht : PositionOk t)
    (hp : noPixelAt s.point) (hq : noPixelAt t.point) (hO : t.O = s.O) (hlen : t.status.outLen = s.status.outLen) :
    OutputOk t := by
  rw [outputOk_iff_empty ht hq, hO, hlen]
  exact (outputOk_iff_empty hs hp).mp h

theorem EngineMove.keeps_outputOk {s t : State} (h : EngineMove s t) (hs : PositionOk s) (ho : OutputOk s) :
    OutputOk t := by
  have ht := h.course.keeps_positionOk hs
  cases h with
  | stay => exact ho
  | transformDone hp =>
    obtain ⟨hO, hlen⟩ := (outputOk_iff_empty hs (by simp [hp, noPixelAt, Point.phase])).mp ho
    exact (outputOk_iff_packing ht rfl).mpr ⟨⟨congrArg List.length hO, Nat.zero_le _⟩, hlen⟩
  | pixel hp hg v =>
    obtain ⟨⟨hO, -⟩, hlen⟩ := (outputOk_iff_packing hs hp).mp ho
    refine (outputOk_iff_packing ht hp).mpr ⟨⟨?_, hg⟩, hlen⟩
    simp only [emit_O, List.length_append, List.length_singleton, hO]
    omega
  | packed hp hg =>
    obtain ⟨⟨hO, hgi⟩, hlen⟩ := (outputOk_iff_packing hs hp).mp ho
    refine (outputOk_iff_done ht rfl).mpr ⟨?_, rfl⟩
    have hend : s.gi = s.A.size := by omega
    rw [finish_O, finish_status, hO, hend]
  | _ hp =>
    exact outputOk_stays_empty ho hs ht (by simp [hp, noPixelAt, Point.phase]) (by simp [hp, noPixelAt, Point.phase]) rfl rfl

theorem TokenMove.keeps_outputOk {i : Instr} {s t : State} (h : TokenMove s i t) (hs : PositionOk s)
    (ho : OutputOk s) : OutputOk t := by
  have ht := h.course.keeps_positionOk hs
  cases h with
  | _ hp =>
    exact outputOk_stays_empty ho hs ht (by simp [hp, noPixelAt, Point.phase]) (by simp [noPixelAt, Point.phase]) rfl rfl

theorem Moved.positionOk {s u : State} (hm : Moved s u) (h : PositionOk s) : PositionOk u := by
  rw [hm.same]; exact h

theorem Moved.outputOk {s u : State} (hm : Moved s u) (h : OutputOk s) : OutputOk u := by
  rw [hm.same]; exact h

/-- A position that reads a token packs no pixel. -/
theorem noPixelAt_of_slot {p : Point} {k : Slot} (h : p.slot = some k) : noPixelAt p := by
  have hbusy := busy_of_slot h
  refine ⟨fun hp => ?_, fun hp => ?_⟩
  · cases p <;> simp [Point.slot, Point.phase] at h hp
  · rw [hp] at hbusy; cases hbusy

/-- An error raised where a fetch has come to leaves the output empty. -/
theorem Moved.raise_outputOk {s u : State} {k : Slot} (hm : Moved s u) (e : ErrKind) (hk : s.point.slot = some k)
    (hs : PositionOk s) (ho : OutputOk s) : OutputOk (raise e u) := by
  have hu : u.point = s.point := by rw [hm.same]
  refine outputOk_stays_empty (hm.outputOk ho) (hm.positionOk hs) ⟨rfl, rfl⟩ ?_ (by simp [noPixelAt, Point.phase]) rfl rfl
  exact hu ▸ noPixelAt_of_slot hk

theorem StepMove.keeps_outputOk {s t : State} (h : StepMove s t) (hs : PositionOk s) (ho : OutputOk s) :
    OutputOk t := by
  cases h with
  | op h => exact h.keeps_outputOk hs ho
  | token i u _ hm _ h => exact h.keeps_outputOk (hm.positionOk hs) (hm.outputOk ho)
  | ended k hk h =>
    cases h with
    | exhausted u hm => exact hm.raise_outputOk _ hk hs ho
    | badMagic _ u hm => exact hm.raise_outputOk _ hk hs ho

theorem startSession_positionOk (bytes : List Byte) (s : State) : PositionOk (startSession bytes s) := ⟨rfl, rfl⟩

theorem reset_positionOk (cfg : Config.Params) (plan : List HostMove) :
    PositionOk { State.reset with cfg := cfg, plan := plan } := ⟨rfl, rfl⟩

theorem startSession_outputOk (bytes : List Byte) (s : State) : OutputOk (startSession bytes s) :=
  (outputOk_iff_empty (startSession_positionOk bytes s) (by simp [noPixelAt, Point.phase])).mpr ⟨rfl, rfl⟩

theorem reset_outputOk (cfg : Config.Params) (plan : List HostMove) :
    OutputOk { State.reset with cfg := cfg, plan := plan } :=
  (outputOk_iff_empty (reset_positionOk cfg plan) (by simp [noPixelAt, State.reset, Point.phase])).mpr ⟨rfl, rfl⟩

end Sys2Proof.Machine

namespace Sys2Proof.Proofs

open Sys2Proof.Machine Sys2Proof.Safety

/-- Settles O55: a step outside the pack phase outputs nothing, and in it a pixel is two bytes. -/
theorem stepKeepsOutput : Obligations.StepKeepsOutput := by
  intro s t hs ho h
  refine (step_keeps (P := fun s => PositionOk s ∧ OutputOk s) h ⟨hs, ho⟩ (fun _ _ _ hs => hs)
    (fun bytes s => ⟨startSession_positionOk bytes s, startSession_outputOk bytes s⟩)
    (fun cfg plan => ⟨reset_positionOk cfg plan, reset_outputOk cfg plan⟩) fun s t ⟨hs, ho⟩ h => ?_).2
  have hmove := engineEvent_next h
  exact ⟨hmove.course.keeps_positionOk hs, hmove.keeps_outputOk hs ho⟩

end Sys2Proof.Proofs
end

section
/-! SUPPORT. The record of an early end (R31, R33, R236, R237): the stage label at each position, and what an error or a refusal
writes. -/

namespace Sys2Proof.Machine

open Sys2Proof.Safety

/-! ### The stage label -/

theorem EngineMove.keeps_stageOk {s t : State} (h : EngineMove s t) (hs : StageOk s) : StageOk t := by
  cases h with
  | stay => exact hs
  | bitplanesDone => exact rfl
  | bitplane => exact rfl
  | nibble hp | level hp | scanDone hp | scanZero hp | scanNonzero hp | signZero hp | signNonzero hp =>
    simpa [StageOk, hp, nextExtent] using hs
  | pixel hp => simp [StageOk, hp]
  | _ => exact trivial

theorem TokenMove.keeps_stageOk {i : Instr} {s t : State} (h : TokenMove s i t) (hs : StageOk s) : StageOk t := by
  cases h with
  | magic hp | nx hp | ny hp | scale hp | sumall hp | nbp0 hp | nbp1 hp =>
    simpa [StageOk, hp] using hs
  | nibble hp | top hp | expanded hp | keep hp | negate hp => simpa [StageOk, hp] using hs
  | direct | quadtree | align2 => exact rfl
  | _ => exact trivial

theorem Moved.stageOk {s u : State} (hm : Moved s u) (h : StageOk s) : StageOk u := by
  rw [hm.same]; exact h

theorem StepMove.keeps_stageOk {s t : State} (h : StepMove s t) (hs : StageOk s) : StageOk t := by
  cases h with
  | op h => exact h.keeps_stageOk hs
  | token i u _ hm _ h => exact h.keeps_stageOk (hm.stageOk hs)
  | ended k hk h => cases h <;> exact trivial

/-! ### The record -/

/-- A running session has recorded nothing. -/
theorem recordOk_of_busy {s : State} (h : RecordOk s) (hs : s.status.state = .busy) :
    s.status.errKind = .none ∧ s.status.refuseReason = .none ∧ s.status.errStage = .none ∧ s.status.errPos = 0 := by
  obtain ⟨herr, href, hnone⟩ := h
  simp only [hs, reduceCtorEq, iff_false, not_not] at herr href
  exact ⟨herr, href, hnone (by rw [hs]; decide)⟩

theorem recordOk_of_status {s t : State} (h : RecordOk s) (ht : t.status = s.status) : RecordOk t := by
  unfold RecordOk
  rw [ht]
  exact h

theorem Course.keeps_recordOk {s t : State} (h : Course s t) (hs : PositionOk s) (hr : RecordOk s) : RecordOk t := by
  have hbusy : ∀ {p : Point}, s.point = p → p.phase.sessionState = .busy → _ :=
    fun hp hp' => recordOk_of_busy hr (by rw [positionOk_state hs, hp, hp'])
  cases h with
  | stays _ _ hst => exact recordOk_of_status hr hst
  | goes q u _ hst => exact recordOk_of_status hr hst
  | captured u _ hst => exact recordOk_of_status (s := s) (t := u) hr hst
  | raised k u hp hk hst =>
    obtain ⟨-, href, -⟩ := hbusy rfl hp
    simp [RecordOk, hst, href, hk]
  | refused r u hp hne hst =>
    obtain ⟨herr, -, hstage, hpos⟩ := hbusy rfl hp
    simp [RecordOk, hst, herr, hne, hstage, hpos]
  | finished u hp hst =>
    obtain ⟨herr, href, hstage, hpos⟩ := hbusy hp rfl
    simp [RecordOk, hst, herr, href, hstage, hpos]

theorem startSession_recordOk (bytes : List Byte) (s : State) : RecordOk (startSession bytes s) := by
  simp [RecordOk, Status.reset]

theorem reset_recordOk (cfg : Config.Params) (plan : List HostMove) :
    RecordOk { State.reset with cfg := cfg, plan := plan } := by
  simp [RecordOk, State.reset, Status.reset]

/-! ### The stage an error carries -/

/-- The stage recorded is one the error kind may carry (R236). -/
def StageFits (s : State) : Prop := stageFits s.status.errKind s.status.errStage = true

theorem EngineMove.keeps_stageFits {s t : State} (h : EngineMove s t) (hf : StageFits s) : StageFits t := by
  cases h <;> exact hf

theorem TokenMove.keeps_stageFits {i : Instr} {s t : State} (h : TokenMove s i t) (hs : StageOk s) (hf : StageFits s) :
    StageFits t := by
  cases h with
  | badFormat hp =>
    have hstage : s.stage = .fmt s.qt.q s.qt.bit := by simpa [StageOk, hp] using hs
    simp [StageFits, hstage, stageFits]
  | badTerminator hp =>
    have hstage : s.stage = .terminator := by simpa [StageOk, hp] using hs
    simp [StageFits, hstage, stageFits]
  | _ => exact hf

/-- A pad and `ALIGN` need no byte (R83, R89). -/
theorem fetchToken_of_no_byte {k : Slot} (hk : k = .pad ∨ k = .align) (s : State) :
    (∃ i, fetchToken k s = .token i s) ∨ ∃ f, fetchToken k s = .own (.fault f) := by
  rcases hk with rfl | rfl
  · by_cases hb : s.btg < 8 ∧ s.buf.toNat % 2 ^ s.btg < 2 ^ s.btg
    · exact .inl ⟨.pad (Fin.ofNat 8 s.btg) (BitVec.ofNat 7 (s.buf.toNat % 2 ^ s.btg)),
        by simp only [fetchToken, readToken, decode, hb, and_self, if_true]⟩
    · exact .inr ⟨.undecodable, by simp only [fetchToken, readToken, decode, hb, if_false]⟩
  · exact .inl ⟨.align, rfl⟩

/-- At a pad or `ALIGN` the engine runs the token or faults: no error is raised there. -/
theorem engineEvent_next_of_no_byte {s t : State} {k : Slot} (hs : s.point.slot = some k) (hk : k = .pad ∨ k = .align)
    (h : (engineEvent s).run = .next t) : ∃ i, TokenMove s i t := by
  have he : engineEvent s = fetchToken k s := by simp only [engineEvent, hs]
  rcases fetchToken_of_no_byte hk s with ⟨i, hi⟩ | ⟨f, hf⟩
  · rw [he, hi] at h
    exact ⟨i, exec_next h⟩
  · rw [he, hf] at h
    cases h

/-- Where a byte may be needed, a stage is recorded. -/
theorem stage_ne_none_of_slot {s : State} {k : Slot} (h : StageOk s) (hs : s.point.slot = some k)
    (hk : ¬ (k = .pad ∨ k = .align)) : s.stage ≠ .none := by
  unfold StageOk at h
  split at h <;> simp_all [Point.slot]

theorem engineEvent_keeps_stageFits {s t : State} (hs : StageOk s) (hf : StageFits s)
    (h : (engineEvent s).run = .next t) : StageFits t := by
  cases engineEvent_next h with
  | op hm => exact hm.keeps_stageFits hf
  | token i u _ hm _ ht => exact ht.keeps_stageFits (hm.stageOk hs) (by rw [hm.same]; exact hf)
  | ended k hk hend =>
    by_cases hb : k = .pad ∨ k = .align
    · obtain ⟨i, hm⟩ := engineEvent_next_of_no_byte hk hb h
      exact hm.keeps_stageFits hs hf
    · cases hend with
      | exhausted u hm =>
        have hstage : u.stage ≠ .none := by rw [hm.same]; exact stage_ne_none_of_slot hs hk hb
        simpa [StageFits, stageFits] using hstage
      | badMagic hp u hm =>
        have hstage : u.stage = .header := by rw [hm.same]; simpa [StageOk, hp] using hs
        simpa [StageFits, stageFits] using hstage

end Sys2Proof.Machine

namespace Sys2Proof.Proofs

open Sys2Proof.Machine Sys2Proof.Safety

/-- Settles O56: the record is written where a session ends, at the stage of the position that read the stream. -/
theorem stepKeepsRecord : Obligations.StepKeepsRecord := by
  intro s t hp hs hr hf h
  refine (step_keeps (P := fun s => PositionOk s ∧ StageOk s ∧ RecordOk s ∧ StageFits s) h ⟨hp, hs, hr, hf⟩
    (fun _ _ _ hs => hs) (fun bytes s => ⟨startSession_positionOk bytes s, rfl, startSession_recordOk bytes s, rfl⟩)
    (fun cfg plan => ⟨reset_positionOk cfg plan, trivial, reset_recordOk cfg plan, rfl⟩)
    fun s t ⟨hp, hs, hr, hf⟩ h => ?_).2
  have hmove := engineEvent_next h
  exact ⟨hmove.course.keeps_positionOk hp, hmove.keeps_stageOk hs, hmove.course.keeps_recordOk hp hr,
    engineEvent_keeps_stageFits hs hf h⟩

end Sys2Proof.Proofs
end

section
/-! SUPPORT. The extents of a quadtree level and of a transform level (R139, R174): inside the quadrant's scratch and inside the
grid, and what the next level makes of them. -/

namespace Sys2Proof.Machine

open Sys2Proof.Safety

/-! ### Extents -/

theorem extentAt_le {n d c e f : Nat} (h : ExtentAt n d c e f) : e ≤ n := by
  obtain ⟨-, rfl, -⟩ := h
  exact ceilDiv_le_self (Nat.two_pow_pos d)

/-- One level further halves the extent. -/
theorem extentAt_halve {n d c e f c' e' f' : Nat} (h : ExtentAt n d c e f) (h' : ExtentAt n (d + 1) c' e' f') :
    ceilDiv e 2 = e' := by
  obtain ⟨-, rfl, -⟩ := h
  obtain ⟨-, rfl, -⟩ := h'
  exact ceilDiv_halve n d

/-- With a halving left, the extent fits half of the whole. -/
theorem extentAt_le_half {n d c e f : Nat} (h : ExtentAt n (d + 1) c e f) : e ≤ ceilDiv n 2 := by
  obtain ⟨-, rfl, -⟩ := h
  have hle : ceilDiv n (2 ^ d) ≤ n := ceilDiv_le_self (Nat.two_pow_pos d)
  rw [← ceilDiv_halve, ceilDiv_two, ceilDiv_two]
  omega

/-- The extent of the last expansion level is half of the whole: one halving is left, or the whole is 1. -/
theorem extentAt_last {n d c e f : Nat} (h : ExtentAt n d c e f) (hd : d = 1 ∨ d = 0 ∧ n = 1) : e = ceilDiv n 2 := by
  obtain ⟨-, rfl, -⟩ := h
  rcases hd with rfl | ⟨rfl, rfl⟩ <;> rfl

/-! ### The quadtree -/

/-- The level loop ends at `L - 1`, or at the top level of a single entry (R138). -/
theorem levelOpen_last {s : State} (hq : QuadrantOpen s) (hl : LevelOpen s (s.qt.k - 1)) (hk : s.qt.k = max s.qt.L 1) :
    WrittenBelow s.S (s.qt.mx * s.qt.my) := by
  obtain ⟨-, -, -, -, -, -, hmx, hmy, -⟩ := hq
  obtain ⟨hx, hy, hL, -, hex, hey, hw⟩ := hl
  have hcover := le_two_pow_ceilLog2 (max s.qt.nqx s.qt.nqy)
  rw [← hL] at hcover
  have hd : s.qt.L - (s.qt.k - 1) = 1 ∨
      s.qt.L - (s.qt.k - 1) = 0 ∧ s.qt.nqx = 1 ∧ s.qt.nqy = 1 := by
    rcases Nat.eq_zero_or_pos s.qt.L with hzero | hpos
    · rw [hzero] at hcover
      omega
    · omega
  rw [hmx, hmy, ← extentAt_last hex (hd.imp_right fun h => ⟨h.1, h.2.1⟩),
    ← extentAt_last hey (hd.imp_right fun h => ⟨h.1, h.2.2⟩)]
  exact hw

/-- An expansion level fits the scratch. -/
theorem levelOpen_fits {s : State} {j : Nat} (hq : QuadrantOpen s) (hl : LevelOpen s j) (hj : j < s.qt.L) :
    s.qt.ex * s.qt.ey ≤ s.S.size := by
  obtain ⟨-, -, -, -, -, -, hmx, hmy, hsize, -⟩ := hq
  obtain ⟨-, -, -, -, hex, hey, -⟩ := hl
  obtain ⟨d, hd⟩ : ∃ d, s.qt.L - j = d + 1 := ⟨s.qt.L - j - 1, by omega⟩
  rw [hd] at hex hey
  rw [hsize, hmx, hmy]
  exact Nat.mul_le_mul (extentAt_le_half hex) (extentAt_le_half hey)

/-- The copy of a level ends without a fault, and its grid is that of the next level (R139, R140). -/
theorem levelOpen_copy {s : State} (hq : QuadrantOpen s) (hk : 1 ≤ s.qt.k) (hkL : s.qt.k < s.qt.L)
    (hl : LevelOpen s (s.qt.k - 1)) :
    ∃ b, qtreeCopy (nextExtent s.qt).ex (nextExtent s.qt).ey s.S = .ok b ∧ b.size = s.S.size ∧
      LevelOpen { s with qt := nextExtent s.qt, S := b } s.qt.k := by
  have hold := levelOpen_fits hq hl (by omega)
  obtain ⟨hx, hy, hL, -, hex, hey, hw⟩ := hl
  obtain ⟨d, hd⟩ : ∃ d, s.qt.L - s.qt.k = d + 1 := ⟨s.qt.L - s.qt.k - 1, by omega⟩
  have hd' : s.qt.L - (s.qt.k - 1) = d + 1 + 1 := by omega
  rw [hd'] at hex hey
  have hex' : ExtentAt s.qt.nqx (d + 1) (nextExtent s.qt).c (nextExtent s.qt).ex (nextExtent s.qt).fx :=
    extentAt_step hx hex
  have hey' : ExtentAt s.qt.nqy (d + 1) (nextExtent s.qt).c (nextExtent s.qt).ey (nextExtent s.qt).fy :=
    extentAt_step hy hey
  have hfits : (nextExtent s.qt).ex * (nextExtent s.qt).ey ≤ s.S.size := by
    obtain ⟨-, -, -, -, -, -, hmx, hmy, hsize, -⟩ := hq
    rw [hsize, hmx, hmy]
    exact Nat.mul_le_mul (extentAt_le_half hex') (extentAt_le_half hey')
  have hhalf : ceilDiv (nextExtent s.qt).ex 2 * ceilDiv (nextExtent s.qt).ey 2 = s.qt.ex * s.qt.ey := by
    rw [extentAt_halve hex' hex, extentAt_halve hey' hey]
  obtain ⟨b, hb, hsize, hwb⟩ := qtreeCopy_ok (hhalf ▸ hw) (hhalf ▸ hold) hfits
  rw [← hd] at hex' hey'
  exact ⟨b, hb, hsize, hx, hy, hL, hkL.le, hex', hey', hwb⟩

/-- The top level is the whole quadrant (R138). -/
theorem levelOpen_top {s : State} (hx : 0 < s.qt.nqx) (hy : 0 < s.qt.nqy)
    (hL : s.qt.L = ceilLog2 (max s.qt.nqx s.qt.nqy)) (v : Nibble) :
    LevelOpen
      { s with
        S := s.S.putEntry 0 v
        qt := { s.qt with ex := 1, ey := 1, fx := s.qt.nqx, fy := s.qt.nqy, c := 2 ^ s.qt.L, k := 1 } } 0 := by
  have hcover : max s.qt.nqx s.qt.nqy ≤ 2 ^ s.qt.L := hL ▸ le_two_pow_ceilLog2 _
  exact ⟨hx, hy, hL, Nat.zero_le _, extentAt_init hx ((le_max_left _ _).trans hcover),
    extentAt_init hy ((le_max_right _ _).trans hcover), writtenBelow_put_next fun i hi => absurd hi (Nat.not_lt_zero i)⟩

/-- A quadrant with a row and a column has a scratch. -/
theorem scratch_pos {s : State} (hq : QuadrantOpen s) (hx : 0 < s.qt.nqx) (hy : 0 < s.qt.nqy) : 0 < s.S.size := by
  obtain ⟨-, -, -, -, -, -, hmx, hmy, hsize, -⟩ := hq
  rw [hsize, hmx, hmy]
  exact Nat.mul_pos (ceilDiv_pos (by decide) hx) (ceilDiv_pos (by decide) hy)

/-- The insertion of a plane ends without a fault (R142). -/
theorem insert_ok {s : State} (ha : Admitted s) (hq : QuadrantOpen s)
    (hw : WrittenBelow s.S (s.qt.mx * s.qt.my)) : ∃ a, qtreeBitins s.qt s.S s.A = .ok a := by
  obtain ⟨-, -, hA⟩ := ha
  obtain ⟨-, hoff, hn, hnx, hny, -, hmx, hmy, hsize, -⟩ := hq
  rw [hmx, hmy] at hw hsize
  obtain ⟨a, h, -⟩ := qtreeBitins_ok hw hmy hsize.ge fun i j hi hj => by
    rw [hA, hoff, hn]
    exact quadrant_inside (hnx ▸ hi) (hny ▸ hj)
  exact ⟨a, h⟩

/-! ### The transform -/

theorem admitted_size_pos {s : State} (h : Admitted s) : 0 < s.A.size := by
  obtain ⟨-, hadm, hsize⟩ := h
  obtain ⟨hrows, hcols, -⟩ := admission_none hadm
  rw [hsize]
  exact Nat.mul_pos hrows hcols

theorem enterLevel_loop (r : HtRegs) :
    (enterLevel r).log2n = r.log2n ∧ (enterLevel r).k = r.levels - 1 ∧ (enterLevel r).levels = r.levels - 1 ∧
      (enterLevel r).c = r.c / 2 ∧ (enterLevel r).nxtop = (stepExtent (r.c / 2) r.nxtop r.nxf).1 ∧
      (enterLevel r).nxf = (stepExtent (r.c / 2) r.nxtop r.nxf).2 ∧
      (enterLevel r).nytop = (stepExtent (r.c / 2) r.nytop r.nyf).1 ∧
      (enterLevel r).nyf = (stepExtent (r.c / 2) r.nytop r.nyf).2 := by
  unfold enterLevel finalLevel
  split <;> exact ⟨rfl, rfl, rfl, rfl, rfl, rfl, rfl, rfl⟩

/-- The transform begins at the 1×1 extent (R170). -/
theorem transformOpen_init {s : State} (h : Admitted s) (a : Bank 32) (ha : a.size = s.A.size) (w : Written)
    (hhdr : w.hdr = true) (hht : w.ht = true) :
    TransformOpen
      { s with
        A := a, T := Bank.alloc (ceilDiv s.hdr.maxDim 2), ht := initConstants (initLoop s.hdr s.ht), written := w }
      (ceilLog2 s.hdr.maxDim) := by
  obtain ⟨-, hadm, hsize⟩ := h
  obtain ⟨hrows, hcols, -⟩ := admission_none hadm
  have hcover : max s.hdr.rows s.hdr.cols ≤ 2 ^ ceilLog2 s.hdr.maxDim := le_two_pow_ceilLog2 _
  exact ⟨⟨hhdr, hadm, ha.trans hsize⟩, hht, rfl, rfl, le_refl _, extentAt_init hrows ((le_max_left _ _).trans hcover),
    extentAt_init hcols ((le_max_right _ _).trans hcover)⟩

/-- The head of the level loop goes down one level (R174). -/
theorem transformOpen_enterLevel {s : State} {d : Nat} (h : TransformOpen s (d + 1)) (hd : s.ht.levels = d + 1) :
    TransformOpen { s with ht := enterLevel s.ht } d ∧ (enterLevel s.ht).k = d ∧ (enterLevel s.ht).levels = d ∧
      d < (enterLevel s.ht).log2n := by
  obtain ⟨ha, hw, hT, hlog, hle, hx, hy⟩ := h
  obtain ⟨hrows, hcols, -⟩ := admission_none ha.2.1
  obtain ⟨elog, ek, elevels, ec, ex, exf, ey, eyf⟩ := enterLevel_loop s.ht
  have hx' := extentAt_step hrows hx
  have hy' := extentAt_step hcols hy
  rw [← ex, ← exf, ← ec] at hx'
  rw [← ey, ← eyf, ← ec] at hy'
  refine ⟨⟨ha, hw, hT, elog.trans hlog, ?_, hx', hy'⟩, by omega, by omega, by omega⟩
  show d ≤ (enterLevel s.ht).log2n
  omega

/-- The block of a level lies inside the grid. -/
theorem transformOpen_inside {s : State} {d : Nat} (h : TransformOpen s d) :
    s.ht.nxtop ≤ s.hdr.rows ∧ s.ht.nytop ≤ s.hdr.cols := by
  obtain ⟨-, -, -, -, -, hx, hy⟩ := h
  exact ⟨extentAt_le hx, extentAt_le hy⟩

/-- The unshuffle of a level ends without a fault (R176). -/
theorem transformOpen_unshuffle {s : State} {d : Nat} (h : TransformOpen s d) :
    ∃ m, unshuffleLevel s.hdr.cols s.ht.nxtop s.ht.nytop (s.A, s.T) = .ok m := by
  obtain ⟨hx, hy⟩ := transformOpen_inside h
  obtain ⟨⟨-, -, hA⟩, -, hT, -⟩ := h
  obtain ⟨m, hm, -⟩ := unshuffleLevel_ok (m := (s.A, s.T)) hx hy hA hT.symm
  exact ⟨m, hm⟩

/-- The combine of a level ends without a fault, and of the loop registers it writes only the parities (R181). -/
theorem transformOpen_combine {s : State} {d : Nat} (h : TransformOpen s d) :
    ∃ m, combineLevel s.hdr.cols (s.ht, s.A) = .ok m ∧ m.2.size = s.A.size ∧
      SameLevel { s.ht with oddx := s.ht.nxtop % 2, oddy := s.ht.nytop % 2 } m.1 := by
  obtain ⟨hx, hy⟩ := transformOpen_inside h
  obtain ⟨⟨-, -, hA⟩, -⟩ := h
  exact combineLevel_ok (m := (s.ht, s.A)) hx hy hA

end Sys2Proof.Machine
end

section
/-! SUPPORT. Every move of the engine keeps what holds at its position (R40, R60, R230). -/

namespace Sys2Proof.Machine

open Sys2Proof.Safety

/-- What holds at the position where the engine stands. -/
theorem pointOk_at {s : State} {p : Point} (hs : PointOk s) (hp : s.point = p) : PointOk { s with point := p } := by
  subst hp; exact hs

theorem pointOk_of {s : State} (p : Point) (hs : PointOk { s with point := p }) (hp : s.point = p) : PointOk s := by
  subst hp; exact hs

/-- The copy of a level puts the scan at the end of the next level (R138). -/
theorem EngineMove.level_pointOk {s : State} (hp : PlaneOpen s) (hk : 1 ≤ s.qt.k) (hkL : s.qt.k < s.qt.L)
    (hl : LevelOpen s (s.qt.k - 1)) {b : Bank 4}
    (hb : qtreeCopy (nextExtent s.qt).ex (nextExtent s.qt).ey s.S = .ok b) :
    PointOk (State.goto .expand
      { s with qt := { nextExtent s.qt with t := (nextExtent s.qt).ex * (nextExtent s.qt).ey }, S := b }) := by
  obtain ⟨ha, hq, hbit, hP⟩ := hp
  obtain ⟨b', hb', hsize, hl'⟩ := levelOpen_copy hq hk hkL hl
  obtain rfl : b' = b := by rw [hb] at hb'; exact (Except.ok.inj hb').symm
  obtain ⟨hw, hoff, hn, hnx, hny, hP', hmx, hmy, hS, hplanes⟩ := hq
  exact ⟨⟨ha, ⟨hw, hoff, hn, hnx, hny, hP', hmx, hmy, hsize.trans hS, hplanes⟩, hbit, hP⟩, hk, hkL, hl', le_refl _⟩

/-- The combine of a level changes neither the loop registers nor the size of the grid (R181). -/
theorem EngineMove.combined_pointOk {s : State} (ht : TransformOpen s s.ht.k) (hlevels : s.ht.levels = s.ht.k)
    (hlog : s.ht.k < s.ht.log2n) {m : HtRegs × Bank 32} (hm : combineLevel s.hdr.cols (s.ht, s.A) = .ok m) :
    PointOk (State.goto .halve { s with ht := m.1, A := m.2 }) := by
  obtain ⟨m', hm', hsize, hsame⟩ := transformOpen_combine ht
  obtain rfl : m' = m := by rw [hm] at hm'; exact (Except.ok.inj hm').symm
  obtain ⟨⟨hhdr, hadm, hA⟩, hw, hT, hrest⟩ := ht
  show TransformOpen { s with ht := m'.1, A := m'.2 } m'.1.k ∧ m'.1.levels = m'.1.k ∧ m'.1.k < m'.1.log2n
  unfold SameLevel at hsame
  rw [hsame]
  exact ⟨⟨⟨hhdr, hadm, hsize.trans hA⟩, hw, hT, hrest⟩, hlevels, hlog⟩

theorem EngineMove.keeps_pointOk {s t : State} (h : EngineMove s t) (hs : PointOk s) : PointOk t := by
  cases h with
  | stay => exact hs
  | refused => exact trivial
  | admitted hp w ha => exact ⟨w, ha, rfl⟩
  | cleared hp => exact pointOk_at hs hp
  | quadrant hp => exact ⟨pointOk_at hs hp, rfl, rfl, rfl, rfl, rfl, rfl, rfl, rfl, rfl, le_refl _⟩
  | bitplanesDone hp | quadrantDone hp => exact (pointOk_at hs hp).1
  | bitplane hp hplanes =>
    obtain ⟨ha, hw, hoff, hn, hnx, hny, hP, hmx, hmy, hS, hle⟩ := pointOk_at hs hp
    exact ⟨ha, ⟨hw, hoff, hn, hnx, hny, hP, hmx, hmy, hS, (Nat.sub_le _ 1).trans hle⟩, rfl,
      (Nat.sub_one_lt hplanes).trans_le hle⟩
  | nibble hp ht =>
    obtain ⟨hplane, -, hw⟩ := pointOk_at hs hp
    exact ⟨hplane, ht, hw⟩
  | nibblesDone hp ht =>
    obtain ⟨hplane, hle, hw⟩ := pointOk_at hs hp
    exact ⟨hplane, writtenBelow_mono hw (Nat.not_lt.mp ht)⟩
  | level hp hkL b hb =>
    obtain ⟨hplane, hk, -, hl⟩ := pointOk_at hs hp
    exact level_pointOk hplane hk hkL hl hb
  | levelsDone hp hkL =>
    obtain ⟨hplane, hk, hk', hl⟩ : PlaneOpen s ∧ 1 ≤ s.qt.k ∧ s.qt.k ≤ max s.qt.L 1 ∧ LevelOpen s (s.qt.k - 1) :=
      pointOk_at hs hp
    have hlast : s.qt.k = max s.qt.L 1 := by omega
    exact ⟨hplane, levelOpen_last hplane.2.1 hl hlast⟩
  | scanDone hp ht =>
    obtain ⟨hplane, hk, hkL, hl, -⟩ := pointOk_at hs hp
    exact ⟨hplane, Nat.le_add_left 1 _, Nat.le_trans hkL (le_max_left _ _), hl⟩
  | scanZero hp ht =>
    obtain ⟨hplane, hk, hkL, hl, hle⟩ := pointOk_at hs hp
    exact pointOk_of .expand ⟨hplane, hk, hkL, hl, (Nat.sub_le _ 1).trans hle⟩ hp
  | scanNonzero hp ht =>
    obtain ⟨hplane, hk, hkL, hl, hle⟩ := pointOk_at hs hp
    exact ⟨hplane, hk, hkL, hl, (Nat.sub_one_lt ht).trans_le hle⟩
  | inserted hp a ha =>
    obtain ⟨⟨⟨hw, hadm, hA⟩, hq, -⟩, -⟩ := pointOk_at hs hp
    exact ⟨⟨hw, hadm, (qtreeBitins_size ha).trans hA⟩, hq⟩
  | signZero hp hg => exact pointOk_of .sign ⟨(pointOk_at hs hp).1, hg⟩ hp
  | signNonzero hp hg => exact ⟨(pointOk_at hs hp).1, hg⟩
  | signsDone hp => exact (pointOk_at hs hp).1
  | dcSet hp _ a ha =>
    obtain ⟨hw, hadm, hA⟩ := pointOk_at hs hp
    exact ⟨hw, hadm, (writeGrid_size ha).trans hA⟩
  | scaled hp _ a ha =>
    obtain ⟨hw, hadm, hA⟩ := pointOk_at hs hp
    exact ⟨hw, hadm, (scaleGrid_size ha).trans hA⟩
  | transformBegun hp w dc a _ ha => exact transformOpen_init (s := s) (pointOk_at hs hp) a (writeGrid_size ha) _ w rfl
  | transformDone hp => exact ⟨(pointOk_at hs hp).1, Nat.zero_le _⟩
  | transformLevel hp hl =>
    have hs : TransformOpen s s.ht.levels := pointOk_at hs hp
    obtain ⟨d, hd⟩ := Nat.exists_eq_succ_of_ne_zero hl
    rw [hd] at hs
    obtain ⟨ht, hk, hlevels, hlog⟩ := transformOpen_enterLevel hs hd
    rw [← hk] at ht hlevels hlog
    exact ⟨ht, hlevels, hlog⟩
  | unshuffled hp m hm =>
    obtain ⟨⟨⟨hw, hadm, hA⟩, hht, hT, hrest⟩, hlevels, hlog⟩ := pointOk_at hs hp
    obtain ⟨hA', hT'⟩ := unshuffleLevel_sizes hm
    exact ⟨⟨⟨hw, hadm, hA'.trans hA⟩, hht, hT'.trans hT, hrest⟩, hlevels, hlog⟩
  | combined hp m hm =>
    obtain ⟨ht, hlevels, hlog⟩ := pointOk_at hs hp
    exact combined_pointOk ht hlevels hlog hm
  | halved hp =>
    obtain ⟨ht, hlevels, -⟩ := pointOk_at hs hp
    rw [← hlevels] at ht
    exact ht
  | pixel hp hg => exact pointOk_of .pack ⟨(pointOk_at hs hp).1, hg⟩ hp
  | packed => exact trivial

theorem TokenMove.keeps_pointOk {i : Instr} {s t : State} (h : TokenMove s i t) (hs : PointOk s) : PointOk t := by
  cases h with
  | magic | nx | ny | scale | sumall | nbp0 | nbp1 => exact trivial
  | nbp2 => exact rfl
  | emptyQuadrant | badFormat | badTerminator => exact trivial
  | direct hp => exact ⟨pointOk_at hs hp, Nat.zero_le _, fun i hi => absurd hi (Nat.not_lt_zero i)⟩
  | quadtree hp he =>
    obtain ⟨hx, hy⟩ := not_or.mp he
    exact ⟨pointOk_at hs hp, Nat.pos_of_ne_zero hx, Nat.pos_of_ne_zero hy, rfl⟩
  | nibble hp v =>
    obtain ⟨hplane, hlt, hw⟩ := pointOk_at hs hp
    exact ⟨hplane, hlt, writtenBelow_put_next hw⟩
  | top hp _ v =>
    obtain ⟨hplane, hx, hy, hL⟩ := pointOk_at hs hp
    exact ⟨hplane, le_refl 1, le_max_right _ 1, levelOpen_top hx hy hL v⟩
  | expanded hp _ v =>
    obtain ⟨hplane, hk, hkL, ⟨hx, hy, hL, hj, hex, hey, hw⟩, hlt⟩ := pointOk_at hs hp
    exact ⟨hplane, hk, hkL, ⟨hx, hy, hL, hj, hex, hey, writtenBelow_put hw⟩, hlt.le⟩
  | keep hp _ _ hi | negate hp hi => exact ⟨(pointOk_at hs hp).1, hi⟩
  | align2 hp => exact ⟨pointOk_at hs hp, Nat.zero_le _⟩
  | term hp | pad1 hp | pad2 hp | align1 hp => exact pointOk_at hs hp

theorem Moved.pointOk {s u : State} (hm : Moved s u) (h : PointOk s) : PointOk u := by
  rw [hm.same]; exact h

theorem StepMove.keeps_pointOk {s t : State} (h : StepMove s t) (hs : PointOk s) : PointOk t := by
  cases h with
  | op h => exact h.keeps_pointOk hs
  | token i u _ hm _ h => exact h.keeps_pointOk (hm.pointOk hs)
  | ended k hk h => cases h <;> exact trivial

end Sys2Proof.Machine
end

section
/-! SUPPORT. Every operation and every token goes on from where its position's condition holds (R40, R60, R230). -/

namespace Sys2Proof.Machine

open Sys2Proof.Safety

/-- The machine goes on. -/
def Goes (r : Result) : Prop := ∃ t, r = .next t

theorem goes_next (s : State) : Goes (.next s) := ⟨s, rfl⟩

theorem goes_needs {b : Bool} {r : Result} (hb : b = true) (hr : Goes r) : Goes (needs b r) := by
  rwa [needs, if_pos hb]

theorem goes_inSlot {k : Slot} {s : State} {r : Result} (hk : s.point.slot = some k) (hr : Goes r) :
    Goes (inSlot k s r) := by
  rwa [inSlot, if_pos hk]

/-! ### The operations that read no token -/

theorem admitHeader_goes {s : State} (hw : s.written.hdr = true) : Goes (admitHeader s) := by
  refine goes_needs hw ?_
  split <;> exact goes_next _

theorem nextPlane_goes {s : State} (hw : s.written.qt = true) : Goes (nextPlane s) := by
  refine goes_needs hw ?_
  split
  · split <;> exact goes_next _
  · exact goes_next _

theorem nextDirect_goes {s : State} (hw : s.written.qt = true) : Goes (nextDirect s) := by
  refine goes_needs hw ?_
  split <;> exact goes_next _

theorem nextLevel_goes {s : State} (hw : s.written.qt = true)
    (hcopy : s.qt.k < s.qt.L → ∃ b, qtreeCopy (nextExtent s.qt).ex (nextExtent s.qt).ey s.S = .ok b) :
    Goes (nextLevel s) := by
  refine goes_needs hw ?_
  by_cases hk : s.qt.k < s.qt.L
  · obtain ⟨b, hb⟩ := hcopy hk
    simp only [hk, if_true, hb]
    exact goes_next _
  · simp only [hk, if_false]
    exact goes_next _

theorem scanLevel_goes {s : State} (hw : s.written.qt = true)
    (hread : s.qt.t ≠ 0 → ∃ v, s.S.readScratch (s.qt.t - 1) = .ok v) : Goes (scanLevel s) := by
  refine goes_needs hw ?_
  by_cases ht : s.qt.t = 0
  · rw [if_pos ht]
    exact goes_next _
  · obtain ⟨v, hv⟩ := hread ht
    simp only [ht, if_false, hv]
    split <;> exact goes_next _

theorem insertPlane_goes {s : State} (hw : s.written.qt = true) {a : Bank 32} (ha : qtreeBitins s.qt s.S s.A = .ok a) :
    Goes (insertPlane s) := by
  refine goes_needs hw ?_
  rw [ha]
  exact goes_next _

theorem scanSigns_goes (s : State) : Goes (scanSigns s) := by
  by_cases hg : s.gi < s.A.size
  · rw [scanSigns_entry hg]
    exact goes_next _
  · rw [scanSigns_end (Nat.not_lt.mp hg)]
    exact goes_next _

theorem setDC_goes {s : State} (hw : s.written.hdr = true) (hA : 0 < s.A.size) : Goes (setDC s) := by
  refine goes_needs hw ?_
  rw [writeGrid_ok hA]
  exact goes_next _

theorem undigitize_goes {s : State} (hw : s.written.hdr = true) : Goes (undigitize s) := by
  refine goes_needs hw ?_
  obtain ⟨a, ha, -⟩ := scaleGrid_ok s.hdr.scale s.A
  rw [ha]
  exact goes_next _

theorem initTransform_goes {s : State} (hw : s.written.hdr = true) (hA : 0 < s.A.size) : Goes (initTransform s) := by
  refine goes_needs hw ?_
  simp only [readGrid_ok hA, writeGrid_ok hA]
  exact goes_next _

theorem nextTransformLevel_goes {s : State} (hw : s.written.ht = true) : Goes (nextTransformLevel s) := by
  refine goes_needs hw ?_
  split <;> exact goes_next _

theorem runUnshuffle_goes {s : State} (hw : (s.written.hdr && s.written.ht) = true) {m : Bank 32 × Bank 32}
    (hm : unshuffleLevel s.hdr.cols s.ht.nxtop s.ht.nytop (s.A, s.T) = .ok m) : Goes (runUnshuffle s) := by
  refine goes_needs hw ?_
  rw [hm]
  exact goes_next _

theorem runCombine_goes {s : State} (hw : (s.written.hdr && s.written.ht) = true) {m : HtRegs × Bank 32}
    (hm : combineLevel s.hdr.cols (s.ht, s.A) = .ok m) : Goes (runCombine s) := by
  refine goes_needs hw ?_
  rw [hm]
  exact goes_next _

theorem packPixel_goes (s : State) : Goes (packPixel s) := by
  unfold packPixel
  split
  · rename_i hg
    rw [readGrid_ok hg]
    exact goes_next _
  · exact goes_next _

/-- The scan of a level reads written entries (R141). -/
theorem scan_reads {s : State} (hq : QuadrantOpen s) (hl : LevelOpen s s.qt.k) (hk : s.qt.k < s.qt.L)
    (ht : s.qt.t ≤ s.qt.ex * s.qt.ey) (hne : s.qt.t ≠ 0) : ∃ v, s.S.readScratch (s.qt.t - 1) = .ok v := by
  have hfits := levelOpen_fits hq hl hk
  obtain ⟨-, -, -, -, -, -, hw⟩ := hl
  obtain ⟨v, hv, -⟩ := readScratch_ok (by omega) (hw (s.qt.t - 1) (by omega))
  exact ⟨v, hv⟩

theorem transformOpen_written {s : State} {d : Nat} (h : TransformOpen s d) :
    (s.written.hdr && s.written.ht) = true := by
  obtain ⟨⟨hhdr, -⟩, hht, -⟩ := h
  rw [hhdr, hht]; rfl

theorem engineOp_goes {s : State} (hs : PointOk s) (hslot : s.point.slot = none) : Goes (engineOp s) := by
  rw [engineOp]
  cases hp : s.point with
  | idle | done | error | refused => exact goes_next s
  | admitHdr => exact admitHeader_goes (pointOk_at hs hp)
  | clear => exact goes_next _
  | quad => exact goes_needs (pointOk_at hs hp).1 (goes_next _)
  | plane =>
    obtain ⟨-, hw, -⟩ := pointOk_at hs hp
    exact nextPlane_goes hw
  | direct =>
    obtain ⟨⟨-, ⟨hw, -⟩, -⟩, -⟩ := pointOk_at hs hp
    exact nextDirect_goes hw
  | level =>
    obtain ⟨⟨-, hq, -⟩, hk, -, hl⟩ := pointOk_at hs hp
    refine nextLevel_goes hq.1 fun hkL => ?_
    obtain ⟨b, hb, -⟩ := levelOpen_copy (s := s) hq hk hkL hl
    exact ⟨b, hb⟩
  | expand =>
    obtain ⟨⟨-, hq, -⟩, -, hkL, hl, ht⟩ := pointOk_at hs hp
    exact scanLevel_goes hq.1 (scan_reads (s := s) hq hl hkL ht)
  | bitins =>
    obtain ⟨⟨ha, hq, -⟩, hw⟩ := pointOk_at hs hp
    obtain ⟨a, h⟩ := insert_ok (s := s) ha hq hw
    exact insertPlane_goes hq.1 h
  | sign => exact scanSigns_goes s
  | setDC => exact setDC_goes (pointOk_at hs hp).1 (admitted_size_pos (s := s) (pointOk_at hs hp))
  | undigitize => exact undigitize_goes (pointOk_at hs hp).1
  | hinit => exact initTransform_goes (pointOk_at hs hp).1 (admitted_size_pos (s := s) (pointOk_at hs hp))
  | hlevel => exact nextTransformLevel_goes (pointOk_at hs hp).2.1
  | unshuffle =>
    obtain ⟨ht, -⟩ := pointOk_at hs hp
    obtain ⟨m, hm⟩ := transformOpen_unshuffle (s := s) ht
    exact runUnshuffle_goes (transformOpen_written (s := s) ht) hm
  | combine =>
    obtain ⟨ht, -⟩ := pointOk_at hs hp
    obtain ⟨m, hm, -⟩ := transformOpen_combine (s := s) ht
    exact runCombine_goes (transformOpen_written (s := s) ht) hm
  | halve =>
    obtain ⟨⟨-, hht, -⟩, -⟩ := pointOk_at hs hp
    exact goes_needs hht (goes_next _)
  | pack => exact packPixel_goes s
  | magic | nx | ny | scale | sumall | nbp0 | nbp1 | nbp2
  | align1 | fmt | nyb | top | huf | term | pad1 | align2 | sgn | pad2 =>
    rw [hp] at hslot
    cases hslot

/-! ### The tokens -/

theorem storeHuf_goes {v : Nibble} {s : State} (hs : PointOk s) (hslot : s.point.slot = some .huf) :
    Goes (storeHuf v s) := by
  refine goes_inSlot hslot ?_
  rcases slot_point hslot with hp | hp
  · obtain ⟨⟨-, hq, -⟩, hx, hy, -⟩ := pointOk_at hs hp
    refine goes_needs hq.1 ?_
    rw [if_pos hp, storeTop, writeScratch_ok (scratch_pos (s := s) hq hx hy)]
    exact goes_next _
  · obtain ⟨⟨-, hq, -⟩, -, hkL, hl, ht⟩ := pointOk_at hs hp
    refine goes_needs hq.1 ?_
    rw [if_neg (by rw [hp]; decide), storeExpanded, writeScratch_ok (ht.trans_le (levelOpen_fits (s := s) hq hl hkL))]
    exact goes_next _

theorem execNyb_goes {v : Nibble} {s : State} (hs : PointOk s) (hslot : s.point.slot = some .nyb) :
    Goes (execNyb v s) := by
  obtain ⟨⟨-, ⟨hw, -, -, -, -, -, -, -, hsize, -⟩, -⟩, ht, -⟩ := pointOk_at hs (slot_point hslot)
  refine goes_inSlot hslot (goes_needs hw ?_)
  rw [writeScratch_ok (hsize ▸ ht)]
  exact goes_next _

theorem exec_goes {i : Instr} {s : State} (hs : PointOk s) (hslot : s.point.slot = some i.slot) : Goes (exec i s) := by
  cases i
  case hdrMagic | hdrNx | hdrNy | hdrScale | hdrSumall | hdrNbp0 | hdrNbp1 | hdrNbp2 =>
    exact goes_inSlot hslot (goes_next _)
  case fmtD =>
    obtain ⟨-, ⟨hw, -⟩, -⟩ := pointOk_at hs (slot_point hslot)
    exact goes_inSlot hslot (goes_needs hw (goes_next _))
  case fmtQ =>
    obtain ⟨-, ⟨hw, -⟩, -⟩ := pointOk_at hs (slot_point hslot)
    refine goes_inSlot hslot (goes_needs hw ?_)
    simp only
    split <;> exact goes_next _
  case nyb => exact execNyb_goes hs hslot
  case fmtIllegal | term | termIllegal | pad => exact goes_inSlot hslot (goes_next _)
  case sgn b =>
    obtain ⟨-, hi⟩ := pointOk_at hs (slot_point hslot)
    exact ⟨_, execSgn_eq (slot_point hslot) hi⟩
  case align =>
    refine goes_inSlot hslot ?_
    split <;> exact goes_next _
  all_goals exact storeHuf_goes hs hslot

/-! ### The step -/

theorem fetchToken_goes {k : Slot} {s : State} (hs : PointOk s) (hb : s.btg ≤ 7) (hk : s.point.slot = some k) :
    Goes (fetchToken k s).run := by
  rcases fetchToken_cases k s with ⟨u, -, he⟩ | ⟨p, i, u, -, -, hm, rfl, he⟩ | ⟨-, p, u, -, -, he⟩ | ⟨hlive, -⟩
  · rw [he]; exact goes_next _
  · rw [he]
    exact exec_goes (hm.pointOk hs) (by rw [hm.same]; exact hk)
  · rw [he]; exact goes_next _
  · omega

theorem engineEvent_goes {s : State} (hs : Sound s) : Goes (engineEvent s).run := by
  obtain ⟨-, ⟨hb, -⟩, hpoint⟩ := hs
  unfold engineEvent
  split
  · exact fetchToken_goes hpoint hb (by assumption)
  · exact engineOp_goes hpoint (by assumption)

theorem engineEvent_keeps_sound {s t : State} (hs : Sound s) (h : (engineEvent s).run = .next t) : Sound t := by
  obtain ⟨hp, hc, hpoint⟩ := hs
  have hmove := engineEvent_next h
  exact ⟨hmove.course.keeps_positionOk hp, hmove.keeps_cursorOk hc, hmove.keeps_pointOk hpoint⟩

theorem startSession_sound (bytes : List Byte) (s : State) : Sound (startSession bytes s) :=
  ⟨startSession_positionOk bytes s, startSession_cursorOk bytes s, trivial⟩

theorem reset_sound (cfg : Config.Params) (plan : List HostMove) : Sound { State.reset with cfg := cfg, plan := plan } :=
  ⟨reset_positionOk cfg plan, reset_cursorOk cfg plan, trivial⟩

theorem step_keeps_sound {s t : State} (hs : Sound s) (h : step s = .next t) : Sound t :=
  step_keeps h hs (fun _ _ _ hs => hs) startSession_sound reset_sound fun _ _ => engineEvent_keeps_sound

/-- Of the host's transactions only a `START` of too many bytes stops (R245). -/
theorem hostMove_goes (m : HostMove) (s : State) :
    Goes (hostMove m s) ∨ ∃ b, m = .start b ∧ s.cfg.maxInput < b.length ∧ hostMove m s = .refused .inputTooLong := by
  cases m with
  | start b =>
    by_cases hlen : s.cfg.maxInput < b.length
    · exact .inr ⟨b, rfl, hlen, if_pos hlen⟩
    · refine .inl ?_
      rw [hostMove, hostStart, if_neg hlen]
      split <;> exact goes_next _
  | readStatus | readOutput | reset | wait => exact .inl (goes_next _)

end Sys2Proof.Machine

namespace Sys2Proof.Proofs

open Sys2Proof.Machine Sys2Proof.Safety

/-- Settles O57: what holds at a position keeps its operation from faulting, and holds again at the next. -/
theorem noFault : Obligations.NoFault := by
  intro s hs
  have hgoes : Goes (step s) ∨
      ∃ b r, s.plan = .start b :: r ∧ s.cfg.maxInput < b.length ∧ step s = .refused .inputTooLong := by
    rcases step_cases s with ⟨-, he⟩ | ⟨rest, -, he⟩ | ⟨m, rest, hplan, -, he⟩
    · exact .inl (he ▸ engineEvent_goes hs)
    · exact .inl (he ▸ engineEvent_goes (s := { s with plan := rest }) hs)
    · rw [he]
      rcases hostMove_goes m { s with plan := rest } with hm | ⟨b, rfl, hlen, hm⟩
      · exact .inl hm
      · exact .inr ⟨b, rest, hplan, hlen, hm⟩
  exact hgoes.imp_left fun ⟨t, ht⟩ => ⟨t, ht, step_keeps_sound hs ht⟩

end Sys2Proof.Proofs
end

section
/-! SUPPORT. The step by the turn it is (R20, R245), and what the tokens of the header and of a bitplane change (R24, R34, R136 to
R141). -/

namespace Sys2Proof.Machine

open Sys2Proof.Safety

/-! ### Whose turn it is -/

theorem step_engine {s : State} (h : s.plan = []) : step s = (engineEvent s).run := by
  rw [step_eq, nextEvent, h]

theorem step_wait (s : State) : step { s with plan := .wait :: s.plan } = (engineEvent s).run := step_eq _

theorem step_host {s : State} {m : HostMove} {rest : List HostMove} (h : s.plan = m :: rest) (hm : m ≠ .wait) :
    step s = hostMove m { s with plan := rest } := by
  rw [step_eq, nextEvent, h]
  cases m with
  | wait => exact absurd rfl hm
  | _ => rfl

/-- A fetch whose bits decode gives the token. -/
theorem engineEvent_token {s t : State} {k : Slot} {n w : Nat} {i : Instr} (hk : s.point.slot = some k)
    (hr : readToken k s = .got (n, w) t) (hd : decode k n w = .ok i) : engineEvent s = .token i t := by
  simp only [engineEvent, hk, fetchToken, hr, hd]

theorem engineEvent_own {s : State} (h : s.point.slot = none) : engineEvent s = .own (engineOp s) := by
  simp only [engineEvent, h]

theorem inSlot_at {p : Point} {k : Slot} {s : State} {r : Result} (hp : s.point = p) (hk : p.slot = some k) :
    inSlot k s r = r := by
  rw [inSlot, if_pos (hp ▸ hk)]

theorem needs_true {b : Bool} {r : Result} (h : b = true) : needs b r = r := by
  rw [needs, if_pos h]

/-! ### The scratch -/

theorem readScratch_putEntry_other {w : Nat} {b : Bank w} {i j : Nat} {v : BitVec w} (h : j ≠ i) :
    (b.putEntry i v).readScratch j = b.readScratch j := by
  simp only [Bank.readScratch, putEntry_size, get_putEntry, if_neg h.symm]

/-- A token with a codeword's value is a codeword (R80). -/
theorem slot_of_hufValue {i : Instr} {v : Nibble} (h : i.hufValue = some v) : i.slot = .huf := by
  cases i <;> simp [Instr.hufValue] at h <;> rfl

theorem codeword_of_hufValue {i : Instr} {v : Nibble} (h : i.hufValue = some v) :
    i.slot = .huf ∧ i ≠ .fmtD ∧ i ≠ .fmtQ := by
  have hslot := slot_of_hufValue h
  refine ⟨hslot, ?_, ?_⟩ <;> rintro rfl <;> cases hslot

/-! ### The quadrant loop -/

theorem step_quad {s : State} (h : At .quad s) (hw : s.written.hdr = true) :
    step s = .next (State.goto .plane
      { s with
        qt := enterQuadrant s.hdr s.qt
        S := Bank.alloc ((enterQuadrant s.hdr s.qt).mx * (enterQuadrant s.hdr s.qt).my)
        written := { s.written with qt := true } }) := by
  rw [step_at h rfl, engineOp, h.2]
  exact needs_true hw

theorem step_plane {s : State} (h : At .plane s) (hw : s.written.qt = true) :
    step s =
      if s.qt.planes = 0 then
        if s.qt.q = 3 then .next (State.goto .term { s with stage := .terminator })
        else .next (State.goto .quad { s with qt := { s.qt with q := s.qt.q + 1 } })
      else .next (State.goto .fmt
        { s with
          qt := { s.qt with planes := s.qt.planes - 1, bit := s.qt.planes - 1 }
          stage := .fmt s.qt.q (s.qt.planes - 1) }) := by
  rw [step_at h rfl, engineOp, h.2]
  exact needs_true hw

/-- The quadrant after another than the last. -/
theorem quadrant_succ : ∀ q : Fin 4, q.val < 3 → q ≠ 3 ∧ (q + 1).val = q.val + 1 := by decide

end Sys2Proof.Machine

namespace Sys2Proof.Proofs

open Sys2Proof.Machine Sys2Proof.Safety

/-- Settles O13: a header token writes its own register, the last one also the capture. -/
theorem headerFrame : Obligations.HeaderFrame := by
  intro i s t h hi
  cases exec_next h with
  | magic | nx | ny | scale | sumall | nbp0 | nbp1 | nbp2 =>
    refine ⟨sameMemory_of_eq rfl rfl rfl rfl, ⟨rfl, rfl, rfl, rfl⟩, ⟨rfl, rfl, rfl⟩, rfl, rfl, rfl, rfl, rfl, ?_⟩
    simp [Instr.slot]
  | top _ _ _ hv => simp [slot_of_hufValue hv] at hi
  | expanded _ _ _ hv => simp [slot_of_hufValue hv] at hi
  | _ => simp [Instr.slot] at hi

/-- Settles O23: a token of a bitplane writes one entry of the scratch at most, and quadtree registers. -/
theorem planeTokenFrame : Obligations.PlaneTokenFrame := by
  intro i s t h hi
  cases exec_next h with
  | direct | quadtree =>
    refine ⟨⟨rfl, rfl, rfl, rfl⟩, ⟨rfl, rfl, rfl⟩, ⟨rfl, fun _ => rfl⟩, ⟨rfl, fun _ => rfl⟩, rfl, rfl, rfl, rfl, rfl, rfl, rfl,
      rfl, fun a ha => ?_, ?_⟩
    · rfl
    · simp [Instr.slot]
  | nibble hp v =>
    refine ⟨⟨rfl, rfl, rfl, rfl⟩, ⟨rfl, rfl, rfl⟩, ⟨rfl, fun _ => rfl⟩, ⟨rfl, fun _ => rfl⟩, rfl, rfl, rfl, rfl, rfl, rfl, rfl,
      rfl, fun a ha => ?_, ?_⟩
    · exact readScratch_putEntry_other (by simpa [hp, Instr.slot] using ha)
    · simp [Instr.slot]
  | top hp _ v hv =>
    obtain ⟨hslot, hD, hQ⟩ := codeword_of_hufValue hv
    refine ⟨⟨rfl, rfl, rfl, rfl⟩, ⟨rfl, rfl, rfl⟩, ⟨rfl, fun _ => rfl⟩, ⟨rfl, fun _ => rfl⟩, rfl, rfl, rfl, rfl, rfl, rfl, rfl,
      rfl, fun a ha => ?_, ?_⟩
    · exact readScratch_putEntry_other (by simpa [hp, hslot] using ha)
    · simp [hslot, hD, hQ, hp]
  | expanded hp _ v hv =>
    obtain ⟨hslot, hD, hQ⟩ := codeword_of_hufValue hv
    refine ⟨⟨rfl, rfl, rfl, rfl⟩, ⟨rfl, rfl, rfl⟩, ⟨rfl, fun _ => rfl⟩, ⟨rfl, fun _ => rfl⟩, rfl, rfl, rfl, rfl, rfl, rfl, rfl,
      rfl, fun a ha => ?_, ?_⟩
    · exact readScratch_putEntry_other (by simpa [hp, hslot] using ha)
    · simp [hslot, hD, hQ, hp]
  | emptyQuadrant _ he => simp [Instr.slot] at hi; omega
  | _ => simp [Instr.slot] at hi

/-- Settles O10, from the event of the turn. -/
theorem stepRunsDecodedToken : Obligations.StepRunsDecodedToken := by
  refine ⟨fun s t k n w i hk hr hd => ?_, fun s => ⟨fun hslot => ?_, fun m r hplan hm => step_host hplan hm⟩⟩
  · have he := congrArg Event.run (engineEvent_token hk hr hd)
    exact ⟨fun hplan => (step_engine hplan).trans he, (step_wait s).trans he⟩
  · have he := congrArg Event.run (engineEvent_own hslot)
    exact ⟨fun hplan => (step_engine hplan).trans he, (step_wait s).trans he⟩

/-- Settles O12: at its place a header token stores its field and goes to the next. -/
theorem headerFields : Obligations.HeaderFields :=
  ⟨fun _ hp => ⟨_, inSlot_at hp rfl, rfl, rfl⟩, fun _ _ hp => ⟨_, inSlot_at hp rfl, rfl, rfl⟩,
    fun _ _ hp => ⟨_, inSlot_at hp rfl, rfl, rfl⟩, fun _ _ hp => ⟨_, inSlot_at hp rfl, rfl, rfl⟩,
    fun _ _ hp => ⟨_, inSlot_at hp rfl, rfl, rfl⟩, fun _ _ hp => ⟨_, inSlot_at hp rfl, rfl, rfl⟩,
    fun _ _ hp => ⟨_, inSlot_at hp rfl, rfl, rfl⟩, fun _ _ hp => ⟨_, inSlot_at hp rfl, rfl, rfl, rfl⟩⟩

/-- Settles O17, from the steps of the two loop heads. -/
theorem quadrantLoop : Obligations.QuadrantLoop := by
  refine ⟨fun s hs hw => ?_, fun s hs hw => ⟨fun hp => ?_, fun hp hq => ?_, fun hp hq => ?_⟩⟩
  · exact ⟨_, step_quad hs hw, rfl, rfl, rfl, rfl, rfl, rfl, rfl, rfl, rfl, rfl, rfl, ⟨rfl, rfl, rfl, rfl⟩,
      ⟨rfl, fun _ => rfl⟩, rfl⟩
  · rw [step_plane hs hw, if_neg hp]
    exact ⟨_, rfl, rfl, rfl, rfl, rfl, rfl, ⟨rfl, rfl, rfl, rfl⟩, sameMemory_of_eq rfl rfl rfl rfl⟩
  · obtain ⟨hne, hsucc⟩ := quadrant_succ s.qt.q hq
    rw [step_plane hs hw, if_pos hp, if_neg hne]
    exact ⟨_, rfl, rfl, hsucc, ⟨rfl, rfl, rfl, rfl⟩, sameMemory_of_eq rfl rfl rfl rfl⟩
  · rw [step_plane hs hw, if_pos hp, if_pos (Fin.ext hq)]
    exact ⟨_, rfl, rfl, rfl, ⟨rfl, rfl, rfl, rfl⟩, sameMemory_of_eq rfl rfl rfl rfl⟩

/-- Settles O20: at its place an illegal code raises its error. -/
theorem illegalCodes : Obligations.IllegalCodes :=
  ⟨fun _ _ hp => ⟨_, inSlot_at hp rfl, rfl, rfl, rfl, rfl, rfl, rfl⟩,
    fun _ _ hp => ⟨_, inSlot_at hp rfl, rfl, rfl, rfl, rfl, rfl, rfl⟩⟩

/-- Settles O39: every field of the reset state, read off. -/
theorem resetState : Obligations.ResetState := by
  unfold Obligations.ResetState
  decide

/-- Settles O59: the core waits, over no input, with nothing written. -/
theorem resetInvariants : Obligations.ResetInvariants :=
  ⟨reset_memory_wf, reset_positionOk _ _, reset_cursorOk _ _, reset_outputOk _ _, reset_recordOk _ _, trivial, rfl,
    reset_sound _ _, trivial⟩

end Sys2Proof.Proofs
end

section
/-! SUPPORT. The engine does not look at what the host was answered (R20, R245): every read, token and operation makes the same of
the state with another answer in it. -/

namespace Sys2Proof.Machine

open Sys2Proof.Safety

/-- The state in which the host got `r` back last. -/
def State.answered (r : Option HostReply) (s : State) : State := { s with reply := r }

/-- The state a read leaves, changed. -/
def Read.mapState {α : Type} (f : State → State) : Read α → Read α
  | .got a s => .got a (f s)
  | .exhausted s => .exhausted (f s)

/-- The state an outcome goes on with, changed. -/
def mapNext (f : State → State) : Result → Result
  | .next s => .next (f s)
  | .fault e => .fault e
  | .refused r => .refused r

theorem mapNext_needs (f : State → State) (b : Bool) (r : Result) : mapNext f (needs b r) = needs b (mapNext f r) := by
  unfold needs
  split <;> rfl

theorem mapNext_inSlot (f : State → State) (k : Slot) (s : State) (r : Result) :
    mapNext f (inSlot k s r) = inSlot k s (mapNext f r) := by
  unfold inSlot
  split <;> rfl

theorem mapNext_ite (f : State → State) (c : Prop) [Decidable c] (a b : Result) :
    mapNext f (if c then a else b) = if c then mapNext f a else mapNext f b := apply_ite (mapNext f) c a b

/-! ### Reads -/

/-- A read delivers the same whatever the host was answered. -/
def ReadsAlike {α : Type} (f : State → Read α) : Prop := ∀ r s, f (s.answered r) = (f s).mapState (State.answered r)

theorem readsAlike_got {α : Type} (a : α) : ReadsAlike (.got a) := fun _ _ => rfl

theorem ReadsAlike.andThen {α β : Type} {f : State → Read α} {g : α → State → Read β} (hf : ReadsAlike f)
    (hg : ∀ a, ReadsAlike (g a)) : ReadsAlike fun s => (f s).andThen g := by
  intro r s
  simp only [hf r s]
  cases f s with
  | got a t => exact hg a r t
  | exhausted t => rfl

theorem nextByte_alike : ReadsAlike nextByte := by
  intro r s
  have hbyte : (s.answered r).input[(s.answered r).pos]? = s.input[s.pos]? := rfl
  rw [nextByte, nextByte, hbyte]
  cases s.input[s.pos]? <;> rfl

theorem nextInt32BE_alike : ReadsAlike nextInt32BE :=
  nextByte_alike.andThen fun _ => nextByte_alike.andThen fun _ => nextByte_alike.andThen fun _ =>
    nextByte_alike.andThen fun _ => readsAlike_got _

theorem nextBit_alike : ReadsAlike nextBit := by
  intro r s
  have hbtg : (s.answered r).btg = s.btg := rfl
  rw [nextBit, nextBit, hbtg]
  split
  · exact nextByte_alike.andThen (fun _ _ _ => rfl) r s
  · rfl

theorem nextBits_alike (n : Nat) : ReadsAlike (nextBits n) := by
  intro r s
  have hbtg : (s.answered r).btg = s.btg := rfl
  rw [nextBits, nextBits, hbtg]
  split
  · exact nextByte_alike.andThen (fun _ _ _ => rfl) r s
  · rfl

theorem moreCode_alike (c : Nat) : ReadsAlike (moreCode c) := nextBit_alike.andThen fun _ => readsAlike_got _

theorem readsAlike_ite {α : Type} {c : Prop} [Decidable c] {f g : State → Read α} (hf : ReadsAlike f) (hg : ReadsAlike g) :
    ReadsAlike fun s => if c then f s else g s := by
  by_cases hc : c
  · simpa only [hc, if_true] using hf
  · simpa only [hc, if_false] using hg

theorem readCodeword_alike : ReadsAlike readCodeword :=
  (nextBits_alike 3).andThen fun _ => readsAlike_ite (readsAlike_got _) <|
    (moreCode_alike _).andThen fun _ => readsAlike_ite (readsAlike_got _) <|
      (moreCode_alike _).andThen fun _ => readsAlike_ite (readsAlike_got _) <|
        (moreCode_alike _).andThen fun _ => readsAlike_got _

theorem readToken_alike (k : Slot) : ReadsAlike (readToken k) := by
  cases k with
  | magic => exact nextByte_alike.andThen fun _ => nextByte_alike.andThen fun _ => readsAlike_got _
  | nx | ny | scale | sumall => exact nextInt32BE_alike.andThen fun _ => readsAlike_got _
  | nbp0 | nbp1 | nbp2 => exact nextByte_alike.andThen fun _ => readsAlike_got _
  | fmt | nyb | term => exact (nextBits_alike 4).andThen fun _ => readsAlike_got _
  | huf => exact readCodeword_alike
  | sgn => exact nextBit_alike.andThen fun _ => readsAlike_got _
  | pad | align => exact fun _ _ => rfl

/-! ### Tokens and operations -/

/-- An operation does the same whatever the host was answered. -/
def RunsAlike (f : State → Result) : Prop := ∀ r s, f (s.answered r) = mapNext (State.answered r) (f s)

theorem admitHeader_alike : RunsAlike admitHeader := by
  intro r s
  simp only [admitHeader, mapNext_needs, State.answered]
  cases admission s.cfg s.hdr <;> rfl

theorem beginQuadrant_alike : RunsAlike beginQuadrant := by
  intro r s
  simp only [beginQuadrant, mapNext_needs]
  rfl

theorem nextPlane_alike : RunsAlike nextPlane := by
  intro r s
  simp only [nextPlane, mapNext_needs, mapNext_ite]
  rfl

theorem nextDirect_alike : RunsAlike nextDirect := by
  intro r s
  simp only [nextDirect, mapNext_needs, mapNext_ite]
  rfl

theorem nextLevel_alike : RunsAlike nextLevel := by
  intro r s
  simp only [nextLevel, mapNext_needs, mapNext_ite, State.answered]
  cases qtreeCopy (nextExtent s.qt).ex (nextExtent s.qt).ey s.S <;> rfl

theorem scanLevel_alike : RunsAlike scanLevel := by
  intro r s
  simp only [scanLevel, mapNext_needs, mapNext_ite, State.answered]
  cases s.S.readScratch (s.qt.t - 1) with
  | ok v =>
    simp only [mapNext_ite]
    rfl
  | error e => rfl

theorem insertPlane_alike : RunsAlike insertPlane := by
  intro r s
  simp only [insertPlane, mapNext_needs, State.answered]
  cases qtreeBitins s.qt s.S s.A <;> rfl

theorem scanSigns_alike : RunsAlike scanSigns := by
  intro r s
  simp only [scanSigns, mapNext_ite, State.answered]
  cases s.A.readGrid s.gi with
  | ok v =>
    simp only [mapNext_ite]
    rfl
  | error e => rfl

theorem setDC_alike : RunsAlike setDC := by
  intro r s
  simp only [setDC, mapNext_needs, State.answered]
  cases s.A.writeGrid 0 s.hdr.sumall <;> rfl

theorem undigitize_alike : RunsAlike undigitize := by
  intro r s
  simp only [undigitize, mapNext_needs, State.answered]
  cases scaleGrid s.hdr.scale s.A <;> rfl

theorem initTransform_alike : RunsAlike initTransform := by
  intro r s
  simp only [initTransform, mapNext_needs, State.answered]
  cases s.A.readGrid 0 with
  | ok dc =>
    simp only
    generalize s.A.writeGrid 0 _ = write
    cases write <;> rfl
  | error e => rfl

theorem nextTransformLevel_alike : RunsAlike nextTransformLevel := by
  intro r s
  simp only [nextTransformLevel, mapNext_needs, mapNext_ite]
  rfl

theorem runUnshuffle_alike : RunsAlike runUnshuffle := by
  intro r s
  simp only [runUnshuffle, mapNext_needs, State.answered]
  cases unshuffleLevel s.hdr.cols s.ht.nxtop s.ht.nytop (s.A, s.T) <;> rfl

theorem runCombine_alike : RunsAlike runCombine := by
  intro r s
  simp only [runCombine, mapNext_needs, State.answered]
  cases combineLevel s.hdr.cols (s.ht, s.A) <;> rfl

theorem runHalve_alike : RunsAlike runHalve := by
  intro r s
  simp only [runHalve, mapNext_needs]
  rfl

theorem packPixel_alike : RunsAlike packPixel := by
  intro r s
  simp only [packPixel, mapNext_ite, State.answered]
  cases s.A.readGrid s.gi <;> rfl

theorem engineOp_alike : RunsAlike engineOp := by
  intro r s
  have hpoint : (s.answered r).point = s.point := rfl
  rw [engineOp, engineOp, hpoint]
  cases s.point with
  | admitHdr => exact admitHeader_alike r s
  | quad => exact beginQuadrant_alike r s
  | plane => exact nextPlane_alike r s
  | direct => exact nextDirect_alike r s
  | level => exact nextLevel_alike r s
  | expand => exact scanLevel_alike r s
  | bitins => exact insertPlane_alike r s
  | sign => exact scanSigns_alike r s
  | setDC => exact setDC_alike r s
  | undigitize => exact undigitize_alike r s
  | hinit => exact initTransform_alike r s
  | hlevel => exact nextTransformLevel_alike r s
  | unshuffle => exact runUnshuffle_alike r s
  | combine => exact runCombine_alike r s
  | halve => exact runHalve_alike r s
  | pack => exact packPixel_alike r s
  | _ => rfl

theorem execFmtQ_alike : RunsAlike execFmtQ := by
  intro r s
  simp only [execFmtQ, mapNext_inSlot, mapNext_needs, mapNext_ite]
  rfl

theorem execNyb_alike (v : Nibble) : RunsAlike (execNyb v) := by
  intro r s
  simp only [execNyb, mapNext_inSlot, mapNext_needs, State.answered]
  cases s.S.writeScratch s.qt.t v <;> rfl

theorem storeTop_alike (v : Nibble) : RunsAlike (storeTop v) := by
  intro r s
  simp only [storeTop, State.answered]
  cases s.S.writeScratch 0 v <;> rfl

theorem storeExpanded_alike (v : Nibble) : RunsAlike (storeExpanded v) := by
  intro r s
  simp only [storeExpanded, State.answered]
  cases s.S.writeScratch s.qt.t v <;> rfl

theorem storeHuf_alike (v : Nibble) : RunsAlike (storeHuf v) := by
  intro r s
  simp only [storeHuf, mapNext_inSlot, mapNext_needs, mapNext_ite, storeTop_alike v r s, storeExpanded_alike v r s]
  rfl

theorem execSgn_alike (b : BitVec 1) : RunsAlike (execSgn b) := by
  intro r s
  simp only [execSgn, mapNext_inSlot, State.answered]
  cases s.A.readGrid s.gi with
  | ok v =>
    simp only
    cases (if b = 1 then s.A.writeGrid s.gi (-v) else .ok s.A) <;> rfl
  | error e => rfl

theorem execAlign_alike : RunsAlike execAlign := by
  intro r s
  simp only [execAlign, mapNext_inSlot, mapNext_ite]
  rfl

theorem exec_alike (i : Instr) : RunsAlike (exec i) := by
  intro r s
  cases i
  case hdrMagic | hdrNx | hdrNy | hdrScale | hdrSumall | hdrNbp0 | hdrNbp1 | hdrNbp2 =>
    simp only [exec, execHdrMagic, execHdrNx, execHdrNy, execHdrScale, execHdrSumall, execHdrNbp0, execHdrNbp1,
      execHdrNbp2, storeHdr, mapNext_inSlot]
    rfl
  case fmtD | fmtIllegal | term | termIllegal | pad =>
    simp only [exec, execFmtD, execFmtIllegal, execTerm, execTermIllegal, execPad, mapNext_inSlot, mapNext_needs]
    rfl
  case fmtQ => exact execFmtQ_alike r s
  case nyb v => exact execNyb_alike v r s
  case sgn b => exact execSgn_alike b r s
  case align => exact execAlign_alike r s
  all_goals exact storeHuf_alike _ r s

/-! ### The step -/

theorem fetchToken_alike (k : Slot) : RunsAlike fun s => (fetchToken k s).run := by
  intro r s
  simp only [fetchToken, readToken_alike k r s]
  cases readToken k s with
  | exhausted t => rfl
  | got p t =>
    simp only [Read.mapState]
    cases decode k p.1 p.2 with
    | ok i => exact exec_alike i r t
    | error e => cases e <;> rfl

theorem engineEvent_alike : RunsAlike fun s => (engineEvent s).run := by
  intro r s
  have hpoint : (s.answered r).point = s.point := rfl
  simp only [engineEvent, hpoint]
  cases s.point.slot with
  | some k => exact fetchToken_alike k r s
  | none => exact engineOp_alike r s

/-- A `START` that finds no session running leaves nothing of what was before but the parameters and the host's moves to come. -/
theorem hostStart_forgets {s u : State} (bytes : List Byte) (hcfg : s.cfg = u.cfg) (hplan : s.plan = u.plan)
    (hs : s.status.state ≠ .busy) (hu : u.status.state ≠ .busy) : hostStart bytes s = hostStart bytes u := by
  simp only [hostStart, State.busy, hs, hu, decide_false, Bool.false_eq_true, if_false, startSession, hcfg, hplan]

theorem runSteps_of_step {s u : State} (h : step s = step u) (n : Nat) : runSteps (n + 1) s = runSteps (n + 1) u := by
  simp only [runSteps, h]

end Sys2Proof.Machine

namespace Sys2Proof.Proofs

open Sys2Proof.Machine Sys2Proof.Safety

/-- Settles O60: the engine does not look at the reply, and a `START` makes the session from its bytes and the parameters. -/
theorem sessionsAreDetermined : Obligations.SessionsAreDetermined := by
  refine ⟨fun s t r hplan h => ?_, fun bytes rest s u hs hu hcfg hbusy hbusy' n => runSteps_of_step ?_ n⟩
  · rw [step_engine hplan] at h
    calc step (s.answered r) = (engineEvent (s.answered r)).run := step_engine hplan
      _ = mapNext (State.answered r) (engineEvent s).run := engineEvent_alike r s
      _ = .next (t.answered r) := by rw [h]; rfl
  · rw [step_host hs HostMove.noConfusion, step_host hu HostMove.noConfusion]
    exact hostStart_forgets bytes hcfg rfl hbusy hbusy'

end Sys2Proof.Proofs
end

section
/-! SUPPORT. A word's bits in stream order (R53): how they split, join and read back as a number. -/

namespace Sys2Proof

@[simp] theorem length_wordBits (n w : Nat) : (wordBits n w).length = n := by
  induction n with
  | zero => rfl
  | succ n ih => simp [wordBits, ih]

/-- Only the low bits of a word count. -/
theorem wordBits_mod {n m : Nat} (h : n ≤ m) (w : Nat) : wordBits n (w % 2 ^ m) = wordBits n w := by
  induction n with
  | zero => rfl
  | succ n ih =>
    have hn : n < m := h
    simp [wordBits, ih hn.le, Nat.testBit_mod_two_pow, hn]

/-- The first bits of a word are its high ones. -/
theorem wordBits_add (n m w : Nat) : wordBits (n + m) w = wordBits n (w / 2 ^ m) ++ wordBits m w := by
  induction n with
  | zero => simp [wordBits]
  | succ n ih => simp [Nat.succ_add, wordBits, ih, Nat.testBit_div_two_pow]

/-- Two words one after the other are one word. -/
theorem wordBits_append {m v : Nat} (hv : v < 2 ^ m) (n w : Nat) :
    wordBits n w ++ wordBits m v = wordBits (n + m) (w * 2 ^ m + v) := by
  have hhigh : (w * 2 ^ m + v) / 2 ^ m = w := by
    rw [Nat.mul_comm, Nat.mul_add_div (Nat.two_pow_pos m), Nat.div_eq_of_lt hv, Nat.add_zero]
  have hlow : (w * 2 ^ m + v) % 2 ^ m = v := Nat.mul_add_mod_of_lt hv
  rw [wordBits_add, hhigh, ← wordBits_mod le_rfl (w * 2 ^ m + v), hlow]

theorem foldl_wordBits (n w a : Nat) :
    (wordBits n w).foldl (fun n b => 2 * n + b.toNat) a = a * 2 ^ n + w % 2 ^ n := by
  induction n generalizing a with
  | zero => simp [wordBits, Nat.mod_one]
  | succ n ih =>
    have hbit := Nat.mod_pow_succ (x := w) (b := 2) (k := n)
    rw [wordBits, List.foldl_cons, ih, hbit, Nat.toNat_testBit]
    ring

theorem bitsToNat_wordBits {n w : Nat} (hw : w < 2 ^ n) : bitsToNat (wordBits n w) = w := by
  rw [bitsToNat, foldl_wordBits, Nat.mod_eq_of_lt hw]
  omega

/-- The first `m` bits of a word, as a number. -/
theorem bitsToNat_take_front {n w : Nat} (hw : w < 2 ^ n) (rest : List Bool) {m d : Nat} (hn : n = m + d) :
    bitsToNat ((wordBits n w ++ rest).take m) = w / 2 ^ d := by
  subst hn
  rw [wordBits_add, List.append_assoc, List.take_left' (length_wordBits _ _)]
  refine bitsToNat_wordBits (Nat.div_lt_of_lt_mul ?_)
  rwa [← pow_add, Nat.add_comm]

end Sys2Proof
end

section
/-! SUPPORT. The decoder at the front of a bit stream, and the encoder's words there (R80 to R88). -/

namespace Sys2Proof

open Sys2Proof.Machine Sys2Proof.Laws

/-- The length of a codeword follows from its bits (R81), whatever bits come after it. -/
theorem codewordLength_front {n w : Nat} (h : IsCodeword (n, w)) (rest : List Bool) :
    codewordLength (wordBits n w ++ rest) = some n := by
  simp only [codewordLength, List.length_append, length_wordBits]
  rcases h with ⟨rfl, hw⟩ | ⟨rfl, hlow, hw⟩ | ⟨rfl, hlow, hw⟩ | ⟨rfl, hlow, hw⟩
  · have take3 := bitsToNat_take_front (n := 3) (m := 3) (d := 0) (w := w) (by omega) rest rfl
    rw [if_neg, if_pos] <;> omega
  · have take3 := bitsToNat_take_front (n := 4) (m := 3) (d := 1) (w := w) (by omega) rest rfl
    have take4 := bitsToNat_take_front (n := 4) (m := 4) (d := 0) (w := w) (by omega) rest rfl
    rw [if_neg, if_neg, if_neg, if_pos] <;> omega
  · have take3 := bitsToNat_take_front (n := 5) (m := 3) (d := 2) (w := w) (by omega) rest rfl
    have take4 := bitsToNat_take_front (n := 5) (m := 4) (d := 1) (w := w) (by omega) rest rfl
    have take5 := bitsToNat_take_front (n := 5) (m := 5) (d := 0) (w := w) (by omega) rest rfl
    rw [if_neg, if_neg, if_neg, if_neg, if_neg, if_pos] <;> omega
  · have take3 := bitsToNat_take_front (n := 6) (m := 3) (d := 3) (w := w) (by omega) rest rfl
    have take4 := bitsToNat_take_front (n := 6) (m := 4) (d := 2) (w := w) (by omega) rest rfl
    have take5 := bitsToNat_take_front (n := 6) (m := 5) (d := 1) (w := w) (by omega) rest rfl
    rw [if_neg, if_neg, if_neg, if_neg, if_neg, if_neg, if_neg] <;> omega

theorem codewordLength_of_lt_three {bs : List Bool} (h : bs.length < 3) : codewordLength bs = none := if_pos h

/-- The value of the bits read so far, where the tests of R120 ask for one bit more. -/
def IsOpenCodeword (n w : Nat) : Prop := (n = 3 ∧ 4 ≤ w) ∨ (n = 4 ∧ 13 ≤ w) ∨ (n = 5 ∧ 31 ≤ w)

/-- Bits that end where a codeword is still open have no codeword length. -/
theorem codewordLength_open {n w : Nat} (h : IsOpenCodeword n w) (hw : w < 2 ^ n) {rest : List Bool}
    (hrest : (wordBits n w ++ rest).length < n + 1) : codewordLength (wordBits n w ++ rest) = none := by
  rw [List.length_append, length_wordBits] at hrest
  simp only [codewordLength, List.length_append, length_wordBits]
  rcases h with ⟨rfl, hlow⟩ | ⟨rfl, hlow⟩ | ⟨rfl, hlow⟩
  · have take3 := bitsToNat_take_front (m := 3) (d := 0) hw rest rfl
    rw [if_neg, if_neg, if_pos] <;> omega
  · have take3 := bitsToNat_take_front (m := 3) (d := 1) hw rest rfl
    have take4 := bitsToNat_take_front (m := 4) (d := 0) hw rest rfl
    rw [if_neg, if_neg, if_neg, if_neg, if_pos] <;> omega
  · have take3 := bitsToNat_take_front (m := 3) (d := 2) hw rest rfl
    have take4 := bitsToNat_take_front (m := 4) (d := 1) hw rest rfl
    have take5 := bitsToNat_take_front (m := 5) (d := 0) hw rest rfl
    rw [if_neg, if_neg, if_neg, if_neg, if_neg, if_neg, if_pos] <;> omega

/-- The decoder reads a word at the front of a stream as the token the word is, and leaves the rest. -/
theorem decodeStream_front {k : Slot} {residual n w : Nat} {rest : List Bool} (hw : w < 2 ^ n)
    (hn : tokenWidth k residual (wordBits n w ++ rest) = some n) :
    decodeStream k residual (wordBits n w ++ rest) = (decode k n w).map fun i => (i, rest) := by
  have hval := bitsToNat_take_front hw rest (m := n) (d := 0) rfl
  have hlen : ¬ (wordBits n w ++ rest).length < n := by simp
  simp only [decodeStream, hn, if_neg hlen, hval, pow_zero, Nat.div_one, List.drop_left' (length_wordBits n w)]
  cases decode k n w <;> rfl

/-- The decoder finds the bits too short where they end inside the token. -/
theorem decodeStream_short {k : Slot} {residual : Nat} {bs : List Bool}
    (h : ∀ n, tokenWidth k residual bs = some n → bs.length < n) : decodeStream k residual bs = .error .short := by
  cases hn : tokenWidth k residual bs with
  | none => simp only [decodeStream, hn]
  | some n => simp only [decodeStream, hn, if_pos (h n hn)]

/-! ### The encoder's words -/

/-- The value of a well-formed token's encoding has no bit above its width. -/
theorem encode_fits {i : Instr} (h : i.wellFormed = true) : (encode i).2 < 2 ^ (encode i).1 := by
  cases i with
  | hdrNx v | hdrNy v | hdrScale v | hdrSumall v | hdrNbp0 v | hdrNbp1 v | hdrNbp2 v => exact v.isLt
  | fmtIllegal v | nyb v | termIllegal v | sgn v => exact v.isLt
  | pad len p => exact EncodingFits.pad len p h
  | _ => decide

theorem ofWidth_fits {m w : Nat} (h : w < 2 ^ m) (i : Instr) : ofWidth m m w i = .ok i := if_pos ⟨rfl, h⟩

theorem decodeFormat_illegal {f : Nibble} (h : illegalFormat f = true) : decodeFormat f.toNat = .fmtIllegal f := by
  revert f; decide

theorem decodeTerminator_illegal {t : Nibble} (h : illegalTerminator t = true) :
    decodeTerminator t.toNat = .termIllegal t := by
  revert t; decide

/-- Every well-formed token is what the decoder reads from its encoding. -/
theorem decode_encode {i : Instr} (h : i.wellFormed = true) : decode i.slot (encode i).1 (encode i).2 = .ok i := by
  have hfits := encode_fits h
  cases i with
  | hdrNx v | hdrNy v | hdrScale v | hdrSumall v | hdrNbp0 v | hdrNbp1 v | hdrNbp2 v | nyb v | sgn v =>
    exact (ofWidth_fits hfits _).trans (by rw [encode, BitVec.ofNat_toNat, BitVec.setWidth_eq])
  | fmtIllegal f => exact (ofWidth_fits hfits _).trans (congrArg _ (decodeFormat_illegal h))
  | termIllegal t => exact (ofWidth_fits hfits _).trans (congrArg _ (decodeTerminator_illegal h))
  | pad len p =>
    have hp : p.toNat < 2 ^ len.val := hfits
    simp [Instr.slot, encode, decode, hp]
  | _ => rfl

/-- A token's width is found at its place from its own bits, a codeword's from its first ones (R81, R88); a pad's is the
residual (R83). -/
theorem tokenWidth_encodeBits {i : Instr} {residual : Nat} (hpad : ∀ len p, i = .pad len p → residual = len.val)
    (rest : List Bool) : tokenWidth i.slot residual (encodeBits i ++ rest) = some (encode i).1 := by
  cases i with
  | pad len p => exact congrArg some (hpad len p rfl)
  | _ => rfl

end Sys2Proof

namespace Sys2Proof.Proofs

/-- Settles O5: the width is found from the token's own bits, and the word they are decodes to the token. -/
theorem streamRoundTrip : Obligations.StreamRoundTrip := by
  intro i residual rest hwf hpad
  rw [encodeBits, decodeStream_front (encode_fits hwf) (tokenWidth_encodeBits hpad rest), decode_encode hwf]
  rfl

end Sys2Proof.Proofs
end

section
/-! SUPPORT. Each read of the BitReader takes the bits at the front of what the stream still holds (R53, R100 to R106), and so
the fetch reads what the decoder reads. -/

namespace Sys2Proof.Machine

open Sys2Proof.Safety

/-- From `s` to `t` the `n` bits of the word `w` have been taken off the front of the stream. -/
structure Taken (s : State) (n w : Nat) (t : State) : Prop where
  fits : w < 2 ^ n
  bits : bitsLeft s = wordBits n w ++ bitsLeft t

theorem Taken.refl (s : State) : Taken s 0 0 s := ⟨Nat.one_pos, rfl⟩

theorem Taken.trans {s t u : State} {n w m v : Nat} (h : Taken s n w t) (h' : Taken t m v u) :
    Taken s (n + m) (w * 2 ^ m + v) u where
  fits := by
    have hhigh : (w + 1) * 2 ^ m ≤ 2 ^ n * 2 ^ m := Nat.mul_le_mul_right _ h.fits
    have hlow := h'.fits
    rw [pow_add]
    linarith
  bits := by rw [h.bits, h'.bits, ← List.append_assoc, wordBits_append h'.fits]

theorem Taken.length {s t : State} {n w : Nat} (h : Taken s n w t) : (bitsLeft s).length = n + (bitsLeft t).length := by
  rw [h.bits, List.length_append, length_wordBits]

/-! ### Bytes -/

/-- The bits of the bytes not consumed. -/
def bytesLeft (s : State) : List Bool := (s.input.drop s.pos).flatMap byteBits

theorem bitsLeft_eq (s : State) : bitsLeft s = wordBits s.btg s.buf.toNat ++ bytesLeft s := rfl

/-- A byte read takes the next byte's bits, and ends early where there is none. -/
theorem nextByte_bytesLeft (s : State) :
    (nextByte s).All (fun v t => bytesLeft s = byteBits v ++ bytesLeft t ∧ t.btg = s.btg ∧ t.buf = s.buf)
      (fun _ => bytesLeft s = []) := by
  unfold nextByte
  split
  · rename_i v hv
    obtain ⟨hlt, rfl⟩ := List.getElem?_eq_some_iff.mp hv
    refine ⟨?_, rfl, rfl⟩
    rw [bytesLeft, List.drop_eq_getElem_cons hlt, List.flatMap_cons]
    rfl
  · rename_i hnone
    have hend : s.input.length ≤ s.pos := by simpa using hnone
    show bytesLeft s = []
    rw [bytesLeft, List.drop_eq_nil_of_le hend, List.flatMap_nil]

/-- With no live bit, a byte read takes eight bits more. -/
theorem nextByte_after {s t : State} {n w m : Nat} (h : Taken s n w t) (hb : t.btg = 0) (hm : n + 8 ≤ m) :
    (nextByte t).All (fun v u => Taken s (n + 8) (w * 2 ^ 8 + v.toNat) u ∧ u.btg = 0) (fun _ => (bitsLeft s).length < m) := by
  refine (nextByte_bytesLeft t).mono (fun v u hu => ?_) (fun _ hnil => ?_)
  · obtain ⟨hbytes, hbtg, -⟩ := hu
    refine ⟨h.trans ⟨v.isLt, ?_⟩, hbtg.trans hb⟩
    simp only [bitsLeft_eq, hbtg, hb, hbytes, wordBits, List.nil_append, byteBits]
  · rw [h.length, bitsLeft_eq, hb, hnil]
    exact Nat.lt_of_lt_of_le (Nat.lt_add_of_pos_right (by decide)) hm

theorem toNat_append_eq {m n : Nat} (x : BitVec m) (y : BitVec n) : (x ++ y).toNat = x.toNat * 2 ^ n + y.toNat := by
  rw [BitVec.toNat_append, ← Nat.shiftLeft_add_eq_or_of_lt y.isLt, Nat.shiftLeft_eq]

theorem readCount_takes {s : State} (hb : s.btg = 0) :
    (readCount s).All (fun p t => p.1 = 8 ∧ Taken s 8 p.2 t) (fun _ => (bitsLeft s).length < 8) :=
  (nextByte_after (.refl s) hb le_rfl).andThen fun v t ht => ⟨rfl, by simpa using ht.1⟩

theorem readMagic_takes {s : State} (hb : s.btg = 0) :
    (readMagic s).All (fun p t => p.1 = 16 ∧ Taken s 16 p.2 t) (fun _ => (bitsLeft s).length < 16) :=
  (nextByte_after (.refl s) hb (by decide)).andThen fun m0 t0 h0 =>
  (nextByte_after h0.1 h0.2 le_rfl).andThen fun m1 t1 h1 => ⟨rfl, by
    simpa only [toNat_append_eq, zero_mul, zero_add] using h1.1⟩

theorem readInt32_takes {s : State} (hb : s.btg = 0) :
    (readInt32 s).All (fun p t => p.1 = 32 ∧ Taken s 32 p.2 t) (fun _ => (bitsLeft s).length < 32) := by
  have hword : (nextInt32BE s).All (fun v t => Taken s 32 v.toNat t) (fun _ => (bitsLeft s).length < 32) :=
    (nextByte_after (.refl s) hb (by decide)).andThen fun b0 t0 h0 =>
    (nextByte_after h0.1 h0.2 (by decide)).andThen fun b1 t1 h1 =>
    (nextByte_after h1.1 h1.2 (by decide)).andThen fun b2 t2 h2 =>
    (nextByte_after h2.1 h2.2 le_rfl).andThen fun b3 t3 h3 => by
      simpa only [Read.All, toNat_append_eq, zero_mul, zero_add] using h3.1
  exact hword.andThen fun v t ht => ⟨rfl, ht⟩

/-! ### Bits -/

/-- A byte loaded below the live bits of the accumulator follows them in the stream (R104). -/
theorem wordBits_load {buf : Accumulator} {n : Nat} (hn : n ≤ 8) (v : Byte) :
    wordBits (n + 8) (buf <<< 8 ||| v.setWidth 16).toNat = wordBits n buf.toNat ++ byteBits v := by
  have hload : (buf <<< 8 ||| v.setWidth 16).toNat = (buf.toNat * 2 ^ 8 + v.toNat) % 2 ^ 16 := by
    have hv : v.toNat < 2 ^ 8 := v.isLt
    have hshift : (buf <<< 8).toNat = 2 ^ 8 * (buf.toNat % 2 ^ 8) := by
      rw [BitVec.toNat_shiftLeft, Nat.shiftLeft_eq]
      omega
    rw [BitVec.toNat_or, hshift, BitVec.toNat_setWidth_of_le (by decide), ← Nat.two_pow_add_eq_or_of_lt hv]
    omega
  rw [hload, wordBits_mod (by omega), byteBits, wordBits_append v.isLt]

/-- Loading a byte takes no bit. -/
theorem nextByte_load (s : State) (hb : s.btg ≤ 8) :
    (nextByte s).All
      (fun v t => bitsLeft { t with buf := t.buf <<< 8 ||| v.setWidth 16, btg := t.btg + 8 } = bitsLeft s ∧ t.btg = s.btg)
      (fun _ => (bitsLeft s).length = s.btg) := by
  refine (nextByte_bytesLeft s).mono (fun v t ht => ?_) (fun _ hnil => ?_)
  · obtain ⟨hbytes, hbtg, hbuf⟩ := ht
    refine ⟨?_, hbtg⟩
    rw [bitsLeft_eq, bitsLeft_eq s, hbytes, ← List.append_assoc, ← wordBits_load hb, hbuf, hbtg]
    rfl
  · simp [bitsLeft_eq, hnil]

/-- The top live bits of the accumulator are the first bits of the stream. -/
theorem takeBits_takes {n : Nat} {s : State} (hn : n ≤ s.btg) (Q : State → Prop) :
    (takeBits n s).All (fun v t => Taken s n v.toNat t) Q := by
  refine ⟨BitVec.isLt _, ?_⟩
  have hsplit : s.btg = n + (s.btg - n) := by omega
  have hword := wordBits_add n (s.btg - n) s.buf.toNat
  rw [← hsplit] at hword
  rw [bitsLeft_eq, hword, List.append_assoc, BitVec.extractLsb'_toNat, wordBits_mod le_rfl, Nat.shiftRight_eq_div_pow]
  rfl

theorem nextBits_takes {n : Nat} {s : State} (hn : n ≤ 8) (hb : s.btg ≤ 7) :
    (nextBits n s).All (fun v t => Taken s n v.toNat t) (fun _ => (bitsLeft s).length < n) := by
  unfold nextBits
  split
  · rename_i hlt
    refine ((nextByte_load s (by omega)).mono (fun _ _ h => h) (fun _ h => h.trans_lt hlt)).andThen fun v t ht => ?_
    exact (takeBits_takes (by show n ≤ t.btg + 8; omega) _).mono (fun _ _ h => ⟨h.fits, ht.1 ▸ h.bits⟩) (fun _ h => h)
  · exact takeBits_takes (by omega) _

theorem taken_bit {s t : State} {b : Bool} (h : bitsLeft s = b :: bitsLeft t) : Taken s 1 b.toNat t :=
  ⟨b.toNat_lt, h.trans (by cases b <;> rfl)⟩

/-- A bit read takes one bit more. -/
theorem nextBit_after {s t : State} {n w : Nat} (h : Taken s n w t) :
    (nextBit t).All (fun b u => Taken s (n + 1) (2 * w + b.toNat) u) (fun _ => (bitsLeft s).length < n + 1) := by
  have hone : (nextBit t).All (fun b u => Taken t 1 b.toNat u) (fun _ => bitsLeft t = []) := by
    unfold nextBit
    split
    · rename_i hb
      refine ((nextByte_bytesLeft t).mono (fun _ _ h => h) (fun _ hnil => ?_)).andThen fun v u hu => ?_
      · rw [bitsLeft_eq, hb, hnil]
        rfl
      · refine taken_bit ?_
        show bitsLeft t = (v.setWidth 16).toNat.testBit 7 :: (wordBits 7 (v.setWidth 16).toNat ++ bytesLeft u)
        rw [BitVec.toNat_setWidth_of_le (by decide), bitsLeft_eq, hb, hu.1]
        rfl
    · rename_i hb
      obtain ⟨d, hd⟩ := Nat.exists_eq_succ_of_ne_zero hb
      refine taken_bit ?_
      rw [bitsLeft_eq, hd]
      rfl
  refine hone.mono (fun b u hu => ?_) (fun _ hnil => ?_)
  · simpa [Nat.mul_comm] using h.trans hu
  · simp [h.length, hnil]

end Sys2Proof.Machine
end

section
/-! SUPPORT. The fetch at every place of the grammar against the decoder of the bits the stream still holds (R83, R88, R120). -/

namespace Sys2Proof.Machine

open Sys2Proof.Safety

theorem Read.All.and {α : Type} {r : Read α} {P P' : α → State → Prop} {Q Q' : State → Prop} (h : r.All P Q)
    (h' : r.All P' Q') : r.All (fun a t => P a t ∧ P' a t) (fun t => Q t ∧ Q' t) := by
  cases r <;> exact ⟨h, h'⟩

/-! ### A codeword -/

/-- A codeword that is still open asks for one bit more, and without it the bits hold no codeword (R81, R120). -/
theorem moreCode_after {s t : State} {n c : Nat} (h : Taken s n c t) (hopen : IsOpenCodeword n c) :
    (moreCode c t).All (fun d u => Taken s (n + 1) d u) (fun _ => codewordLength (bitsLeft s) = none) := by
  refine ((nextBit_after h).mono (fun _ _ hb => hb) fun _ hend => ?_).andThen fun _ _ hb => hb
  rw [h.bits] at hend ⊢
  exact codewordLength_open hopen h.fits hend

/-- `decodeHuffman` takes one codeword off the front of the stream, and ends early where the bits hold none (R120). -/
theorem readCodeword_takes {s : State} (hb : s.btg ≤ 7) :
    (readCodeword s).All (fun p t => Taken s p.1 p.2 t) (fun _ => codewordLength (bitsLeft s) = none) := by
  refine ((nextBits_takes (by omega) hb).mono (fun _ _ h => h) fun _ => codewordLength_of_lt_three).andThen fun c t h3 => ?_
  split
  · exact h3
  refine (moreCode_after h3 (.inl ⟨rfl, by omega⟩)).andThen fun d u h4 => ?_
  split
  · exact h4
  refine (moreCode_after h4 (.inr (.inl ⟨rfl, by omega⟩))).andThen fun e v h5 => ?_
  split
  · exact h5
  exact (moreCode_after h5 (.inr (.inr ⟨rfl, by omega⟩))).andThen fun _ _ h6 => h6

/-! ### Every place -/

/-- What is read at place `k` of `s` is the token's bits at the front of the stream, which goes on in `t` after them; a pad's
bits stay (R83). -/
structure TokenFront (k : Slot) (s : State) (p : Nat × Nat) (t : State) : Prop where
  width : tokenWidth k s.btg (bitsLeft s) = some p.1
  fits : p.2 < 2 ^ p.1
  front : ∃ rest, bitsLeft s = wordBits p.1 p.2 ++ rest ∧ bitsLeft t = if k = .pad then bitsLeft s else rest

/-- The stream ends inside the token of place `k`. -/
def CutShort (k : Slot) (s : State) : Prop :=
  ∀ n, tokenWidth k s.btg (bitsLeft s) = some n → (bitsLeft s).length < n

theorem Taken.tokenFront {k : Slot} {s t : State} {p : Nat × Nat} (h : Taken s p.1 p.2 t) (hk : k ≠ .pad)
    (hwidth : tokenWidth k s.btg (bitsLeft s) = some p.1) : TokenFront k s p t :=
  ⟨hwidth, h.fits, _, h.bits, (if_neg hk).symm⟩

/-- A place whose token has one width. -/
theorem Read.All.tokenFront {k : Slot} {s : State} {m : Nat} {r : Read (Nat × Nat)} (hk : k ≠ .pad)
    (hwidth : tokenWidth k s.btg (bitsLeft s) = some m)
    (hr : r.All (fun p t => p.1 = m ∧ Taken s m p.2 t) (fun _ => (bitsLeft s).length < m)) :
    r.All (TokenFront k s) (fun _ => CutShort k s) := by
  refine hr.mono (fun p t ht => ?_) (fun _ hend n hn => ?_)
  · obtain ⟨hp, ht⟩ := ht
    exact Taken.tokenFront (hp ▸ ht) hk (hp ▸ hwidth)
  · rw [hwidth] at hn
    exact Option.some.inj hn ▸ hend

theorem readNybble_takes {s : State} (hb : s.btg ≤ 7) :
    (readNybble s).All (fun p t => p.1 = 4 ∧ Taken s 4 p.2 t) (fun _ => (bitsLeft s).length < 4) :=
  (nextBits_takes (by omega) hb).andThen fun _ _ ht => ⟨rfl, ht⟩

theorem readSign_takes (s : State) :
    (readToken .sgn s).All (fun p t => p.1 = 1 ∧ Taken s 1 p.2 t) (fun _ => (bitsLeft s).length < 1) :=
  (nextBit_after (.refl s)).andThen fun _ _ ht => ⟨rfl, by simpa using ht⟩

theorem readCodeword_tokenFront {s : State} (hb : s.btg ≤ 7) :
    (readCodeword s).All (TokenFront .huf s) (fun _ => CutShort .huf s) := by
  refine ((readCodeword_takes hb).and (readCodeword_isCodeword s)).mono (fun p t ht => ?_) (fun _ hend n hn => ?_)
  · obtain ⟨htaken, hcode⟩ := ht
    refine htaken.tokenFront (by decide) ?_
    rw [htaken.bits]
    exact codewordLength_front hcode _
  · exact absurd (hend.1.symm.trans hn) (by simp)

/-- The live bits left are the pad. -/
theorem pad_tokenFront (s : State) : TokenFront .pad s (s.btg, s.buf.toNat % 2 ^ s.btg) s :=
  ⟨rfl, Nat.mod_lt _ (Nat.two_pow_pos _), bytesLeft s, by rw [wordBits_mod le_rfl]; rfl, rfl⟩

/-- Reading at a place takes the token the decoder finds at the front of the stream, and ends early where the stream ends inside
it. Header fields are read with no live bit (R107). -/
theorem readToken_tokenFront {k : Slot} {s : State} (hb : s.btg ≤ 7) (hhdr : (fieldBytes k).isSome → s.btg = 0) :
    (readToken k s).All (TokenFront k s) (fun _ => CutShort k s) := by
  cases k with
  | magic => exact (readMagic_takes (hhdr rfl)).tokenFront (by decide) rfl
  | nx | ny | scale | sumall => exact (readInt32_takes (hhdr rfl)).tokenFront (by decide) rfl
  | nbp0 | nbp1 | nbp2 => exact (readCount_takes (hhdr rfl)).tokenFront (by decide) rfl
  | fmt | nyb | term => exact (readNybble_takes hb).tokenFront (by decide) rfl
  | huf => exact readCodeword_tokenFront hb
  | sgn => exact (readSign_takes s).tokenFront (by decide) rfl
  | pad => exact pad_tokenFront s
  | align => exact (Taken.refl s).tokenFront (by decide) rfl

theorem TokenFront.decodeStream_eq {k : Slot} {s t : State} {p : Nat × Nat} (h : TokenFront k s p t) :
    ∃ rest, decodeStream k s.btg (bitsLeft s) = (decode k p.1 p.2).map (fun i => (i, rest)) ∧
      bitsLeft t = if k = .pad then bitsLeft s else rest := by
  obtain ⟨hwidth, hfits, rest, hs, ht⟩ := h
  refine ⟨rest, ?_, ht⟩
  rw [hs] at hwidth ⊢
  exact decodeStream_front hfits hwidth

theorem Moved.frame {s t : State} (h : Moved s t) : SameMemory s t ∧ t.point = s.point ∧ t.status = s.status := by
  rw [h.same]
  exact ⟨sameMemory_of_eq rfl rfl rfl rfl, rfl, rfl⟩

end Sys2Proof.Machine

namespace Sys2Proof.Proofs

open Sys2Proof.Machine Sys2Proof.Safety

/-- Settles O9: what is read at a place is the word at the front of the stream that the decoder reads, or the stream ends inside
the token for both. -/
theorem fetchDecodesTheStream : Obligations.FetchDecodesTheStream := by
  intro k s hb hpos hhdr
  have hfront := readToken_tokenFront hb (k := k) (fun hk => hhdr (by cases k <;> simp [fieldBytes] at hk ⊢))
  have hmoves := readToken_moves k s
  cases hr : readToken k s with
  | exhausted t =>
    rw [hr] at hfront hmoves
    obtain ⟨hmoved, hend⟩ := hmoves
    rw [decodeStream_short hfront]
    refine ⟨raise .streamExhausted t, by simp only [fetchToken, hr], rfl, rfl, ?_⟩
    exact le_antisymm (hmoved.inside hpos) hend
  | got p t =>
    rw [hr] at hfront hmoves
    obtain ⟨rest, hdecoder, hleft⟩ := TokenFront.decodeStream_eq hfront
    rw [hdecoder]
    rcases decode_read hb hr with ⟨i, hi, -⟩ | ⟨-, hbad⟩
    · rw [hi]
      exact ⟨t, by simp only [fetchToken, hr, hi], hleft, Moved.frame hmoves⟩
    · rw [hbad]
      exact ⟨raise .badMagicNumber t, by simp only [fetchToken, hr, hbad], rfl, rfl⟩

end Sys2Proof.Proofs
end

section
/-! SUPPORT. After the end of a session only a `START` or a `RESET` of the host changes the core (R241, R245). -/

namespace Sys2Proof.Machine

/-- The session has ended (R206, R233, R238). -/
def State.ended (s : State) : Prop := s.point = .done ∨ s.point = .error ∨ s.point = .refused

theorem StepMove.eq_of_ended {s t : State} (h : StepMove s t) (hend : s.ended) : t = s := by
  have hslot : s.point.slot = none := by
    rcases hend with hp | hp | hp <;> rw [hp] <;> rfl
  cases h with
  | token i u hs => rw [hslot] at hs; cases hs
  | ended k hs => rw [hslot] at hs; cases hs
  | op h =>
    cases h with
    | stay => rfl
    | _ hp => simp [State.ended, hp] at hend

/-- What a transaction that only reads makes of the state: the reply, an output only when `DONE` (R67, R245). -/
theorem hostMove_reads {m : HostMove} {s t : State} (h : hostMove m s = .next t) (hstart : ∀ b, m ≠ .start b)
    (hreset : m ≠ .reset) (hwait : m ≠ .wait) :
    t = { s with reply := t.reply } ∧ (s.status.state ≠ .done → ∀ o, t.reply ≠ some (.output o)) := by
  cases m with
  | start b => exact absurd rfl (hstart b)
  | reset => exact absurd rfl hreset
  | wait => exact absurd rfl hwait
  | readStatus =>
    cases next_inj h
    exact ⟨rfl, fun _ o => by simp⟩
  | readOutput =>
    cases next_inj h
    exact ⟨rfl, fun hstate o => by simp [State.outputReady, hstate]⟩

end Sys2Proof.Machine

namespace Sys2Proof.Proofs

open Sys2Proof.Machine

/-- Settles O35: an ended engine waits, and a transaction other than `START` and `RESET` gives a reply only. -/
theorem endedStaysEnded : Obligations.EndedStaysEnded := by
  intro s t hend h hstart hreset
  rcases step_next h with ⟨-, hmove⟩ | ⟨rest, -, hmove⟩ | ⟨m, rest, hplan, hwait, hmove⟩
  · cases hmove.eq_of_ended hend
    exact ⟨rfl, fun _ _ _ => rfl⟩
  · cases hmove.eq_of_ended hend
    exact ⟨rfl, fun _ _ _ => rfl⟩
  · obtain ⟨hsame, hreply⟩ :=
      hostMove_reads hmove (fun b hm => hstart b rest (hm ▸ hplan)) (fun hm => hreset rest (hm ▸ hplan)) hwait
    refine ⟨?_, fun hstate o ho => absurd ho (hreply hstate o)⟩
    have hplan' : t.plan = rest := by rw [hsame]
    rw [hplan']
    exact hsame

end Sys2Proof.Proofs
end

section
/-! SUPPORT. What the decoder accepts is a token's encoding (R71 to R84), and the codewords split all sequences of six bits (R81). -/

namespace Sys2Proof

open Sys2Proof.Machine Sys2Proof.Safety

/-! ### What decodes -/

theorem ofWidth_ok {m n w : Nat} {i j : Instr} (h : ofWidth m n w i = .ok j) : n = m ∧ w < 2 ^ m ∧ i = j := by
  unfold ofWidth at h
  split at h
  · rename_i hw
    exact ⟨hw.1, hw.2, Except.ok.inj h⟩
  · cases h

theorem decodeFormat_encoded :
    ∀ w < 2 ^ 4, (decodeFormat w).wellFormed = true ∧ encode (decodeFormat w) = (4, w) := by decide

theorem decodeTerminator_encoded :
    ∀ w < 2 ^ 4, (decodeTerminator w).wellFormed = true ∧ encode (decodeTerminator w) = (4, w) := by decide

theorem decodeCodeword_encoded {n w : Nat} {i : Instr} (h : decodeCodeword n w = .ok i) :
    i.wellFormed = true ∧ encode i = (n, w) := by
  unfold decodeCodeword at h
  split at h <;> cases h <;> exact ⟨rfl, rfl⟩

theorem toNat_ofNat_of_lt {m w : Nat} (h : w < 2 ^ m) : (BitVec.ofNat m w).toNat = w := by
  rw [BitVec.toNat_ofNat, Nat.mod_eq_of_lt h]

/-- What the decoder accepts is a well-formed token, and the bits read are its encoding. -/
theorem decode_encoded {k : Slot} {n w : Nat} {i : Instr} (h : decode k n w = .ok i) :
    i.wellFormed = true ∧ encode i = (n, w) := by
  cases k with
  | magic =>
    simp only [decode] at h
    split at h
    · split at h
      · cases h
        exact ⟨rfl, by simp [encode, *]⟩
      · cases h
    · cases h
  | nx | ny | scale | sumall | nbp0 | nbp1 | nbp2 | nyb | sgn =>
    obtain ⟨rfl, hw, rfl⟩ := ofWidth_ok h
    exact ⟨rfl, by rw [encode, toNat_ofNat_of_lt hw]⟩
  | fmt =>
    obtain ⟨rfl, hw, rfl⟩ := ofWidth_ok h
    exact decodeFormat_encoded w hw
  | term =>
    obtain ⟨rfl, hw, rfl⟩ := ofWidth_ok h
    exact decodeTerminator_encoded w hw
  | huf => exact decodeCodeword_encoded h
  | pad =>
    simp only [decode] at h
    split at h
    · rename_i hfits
      obtain ⟨hn, hw⟩ := hfits
      cases h
      have hlen : (Fin.ofNat 8 n).val = n := Nat.mod_eq_of_lt hn
      have hval : (BitVec.ofNat 7 w).toNat = w :=
        toNat_ofNat_of_lt (hw.trans_le (Nat.pow_le_pow_right (by decide) (by omega)))
      exact ⟨decide_eq_true (by rwa [hlen, hval]), by rw [encode, hlen, hval]⟩
    · cases h
  | align =>
    obtain ⟨rfl, hw, rfl⟩ := ofWidth_ok h
    exact ⟨rfl, by rw [encode, Nat.lt_one_iff.mp hw]⟩

/-! ### The codewords (R81) -/

theorem mem_huffmanTokens {i : Instr} : i ∈ huffmanTokens ↔ i.slot = .huf := by
  cases i <;> simp [huffmanTokens, Instr.slot]

theorem wellFormed_of_slot_huf {i : Instr} (h : i.slot = .huf) : i.wellFormed = true := by
  have hall : ∀ i ∈ huffmanTokens, i.wellFormed = true := by decide
  exact hall i (mem_huffmanTokens.mpr h)

/-- At most one codeword stands at the front of a bit stream. -/
theorem codeword_unique {i j : Instr} {bs : List Bool} (hi : i.slot = .huf) (hj : j.slot = .huf)
    (hibs : encodeBits i <+: bs) (hjbs : encodeBits j <+: bs) : i = j := by
  have hread : ∀ {i : Instr}, i.slot = .huf → encodeBits i <+: bs → ∃ rest, decodeStream .huf 0 bs = .ok (i, rest) := by
    rintro i hi ⟨rest, rfl⟩
    have hround := Proofs.streamRoundTrip i 0 rest (wellFormed_of_slot_huf hi) (by rintro len p rfl; cases hi)
    exact ⟨rest, hi ▸ hround⟩
  obtain ⟨_, hi⟩ := hread hi hibs
  obtain ⟨_, hj⟩ := hread hj hjbs
  exact congrArg Prod.fst (Except.ok.inj (hi.symm.trans hj))

/-- Any bits are the bits of a word. -/
theorem exists_wordBits (bs : List Bool) : ∃ w < 2 ^ bs.length, bs = wordBits bs.length w := by
  induction bs with
  | nil => exact ⟨0, Nat.one_pos, rfl⟩
  | cons b bs ih =>
    obtain ⟨w, hw, hbs⟩ := ih
    have hb : [b] = wordBits 1 b.toNat := by cases b <;> rfl
    refine ⟨b.toNat * 2 ^ bs.length + w, ?_, ?_⟩
    · have := Bool.toNat_lt b
      rw [List.length_cons, Nat.pow_succ]
      interval_cases b.toNat <;> omega
    · rw [List.length_cons, Nat.add_comm, ← wordBits_append hw, ← hb, ← hbs]
      rfl

theorem exists_six_front {bs : List Bool} (h : 6 ≤ bs.length) : ∃ w < 64, ∃ rest, bs = wordBits 6 w ++ rest := by
  obtain ⟨w, hw, hsix⟩ := exists_wordBits (bs.take 6)
  rw [List.length_take_of_le h] at hw hsix
  exact ⟨w, hw, bs.drop 6, by rw [← hsix, List.take_append_drop]⟩

/-- The first three to six of six bits are a codeword's, as many as the tests of R120 take. -/
theorem isCodeword_of_six {w : Nat} (hw : w < 64) : ∃ n ≤ 6, IsCodeword (n, w / 2 ^ (6 - n)) := by
  unfold IsCodeword
  by_cases h3 : w < 32
  · exact ⟨3, by decide, .inl ⟨rfl, by omega⟩⟩
  by_cases h4 : w < 52
  · exact ⟨4, by decide, .inr (.inl ⟨rfl, by omega⟩)⟩
  by_cases h5 : w < 62
  · exact ⟨5, by decide, .inr (.inr (.inl ⟨rfl, by omega⟩))⟩
  · exact ⟨6, by decide, .inr (.inr (.inr ⟨rfl, by omega⟩))⟩

/-- A token whose codeword stands at the front of six bits. -/
theorem exists_codeword_front {w : Nat} (hw : w < 64) (rest : List Bool) :
    ∃ i n, i.slot = .huf ∧ encodeBits i <+: wordBits 6 w ++ rest ∧ (encode i).1 = n ∧ IsCodeword (n, w / 2 ^ (6 - n)) := by
  obtain ⟨n, hn, hcode⟩ := isCodeword_of_six hw
  obtain ⟨i, hi, hslot⟩ := decodeCodeword_ok hcode
  have hencode := (decodeCodeword_encoded hi).2
  have hsplit := wordBits_add n (6 - n) w
  rw [Nat.add_sub_cancel' hn] at hsplit
  refine ⟨i, n, hslot, ?_, congrArg Prod.fst hencode, hcode⟩
  rw [encodeBits, hencode, hsplit, List.append_assoc]
  exact List.prefix_append _ _

theorem exists_hufValue : ∀ v : Nibble, ∃ i ∈ huffmanTokens, i.hufValue = some v := by decide

theorem hufValue_injective : ∀ i ∈ huffmanTokens, ∀ j ∈ huffmanTokens, i.hufValue = j.hufValue → i = j := by decide

end Sys2Proof

namespace Sys2Proof.Proofs

open Sys2Proof.Machine Sys2Proof.Safety

/-- Settles O3: the decoder reads each well-formed token from its encoding. -/
theorem decodeEncode : Obligations.DecodeEncode := fun _ h => decode_encode h

/-- Settles O4: the decoder gives a token of its place, and the bits read are its encoding. -/
theorem decodeIsEncoded : Obligations.DecodeIsEncoded := by
  intro k n w i h
  obtain ⟨hwf, hencode⟩ := decode_encoded h
  exact ⟨hwf, decode_slot h, hencode⟩

/-- Settles O6: six bits begin with a codeword, and no bits begin with two, since the decoder reads one token. -/
theorem huffmanComplete : Obligations.HuffmanComplete := by
  refine ⟨fun i hi j hj hij => ?_, by decide, fun v => ?_, fun bs hlen => ?_, fun bs i hlen hslot hi => ?_⟩
  · exact codeword_unique (mem_huffmanTokens.mp hi) (mem_huffmanTokens.mp hj) hij List.prefix_rfl
  · obtain ⟨i, hi, hv⟩ := exists_hufValue v
    exact ⟨i, hv, fun j hj => hufValue_injective j (mem_huffmanTokens.mpr (slot_of_hufValue hj)) i hi (hj.trans hv.symm)⟩
  · obtain ⟨w, hw, rest, rfl⟩ := exists_six_front hlen
    obtain ⟨i, -, hslot, hi, -⟩ := exists_codeword_front hw rest
    exact ⟨i, ⟨hslot, hi⟩, fun j ⟨hj, hjbs⟩ => codeword_unique hj hslot hjbs hi⟩
  · obtain ⟨w, hw, rest, rfl⟩ := exists_six_front hlen
    obtain ⟨j, n, hj, hjbs, hn, hcode⟩ := exists_codeword_front hw rest
    obtain rfl := codeword_unique hj hslot hjbs hi
    rw [hn, bitsToNat_take_front (m := 3) (d := 3) hw rest rfl, bitsToNat_take_front (m := 4) (d := 2) hw rest rfl,
      bitsToNat_take_front (m := 5) (d := 1) hw rest rfl]
    rcases hcode with ⟨rfl, hw⟩ | ⟨rfl, hw⟩ | ⟨rfl, hw⟩ | ⟨rfl, hw⟩ <;> omega

/-- Settles O1: each word is decoded by the row of its place. -/
theorem sampleWordsDecode : Obligations.SampleWordsDecode := by
  unfold Obligations.SampleWordsDecode
  decide

/-- Settles O2: each row of the table is evaluated. -/
theorem codewordTable : Obligations.CodewordTable := by
  unfold Obligations.CodewordTable
  decide

end Sys2Proof.Proofs
end

section
/-! SUPPORT. What memory and the register groups fault with is never the fault of a token out of its place (R40, R60, R88), so no
step ends in that one. -/

namespace Sys2Proof.Machine

open Sys2Proof.Safety

/-! ### Memory -/

/-- An access that, where it faults, does so for another reason than a token out of its place. -/
def AccessInPlace {α : Type} (x : Except Fault α) : Prop := ∀ e, x = .error e → e ≠ .tokenOutOfPlace

theorem accessInPlace_ok {α : Type} (a : α) : AccessInPlace (.ok a) := fun _ h => nomatch h

/-- The error of an access passed on. -/
theorem AccessInPlace.error {α β : Type} {x : Except Fault α} {e : Fault} (hx : AccessInPlace x) (h : x = .error e) :
    AccessInPlace (.error e : Except Fault β) := fun _ he => Except.error.inj he ▸ hx e h

theorem AccessInPlace.bind {α β : Type} {x : Except Fault α} {f : α → Except Fault β} (hx : AccessInPlace x)
    (hf : ∀ a, AccessInPlace (f a)) : AccessInPlace (x >>= f) := by
  cases x with
  | ok a => exact hf a
  | error e => exact hx.error rfl

theorem AccessInPlace.ite {α : Type} {c : Prop} [Decidable c] {x y : Except Fault α} (hx : AccessInPlace x)
    (hy : AccessInPlace y) : AccessInPlace (if c then x else y) := by
  split
  · exact hx
  · exact hy

theorem indexOutOfBounds_inPlace {α : Type} : AccessInPlace (.error .indexOutOfBounds : Except Fault α) :=
  fun _ h => Except.error.inj h ▸ Fault.noConfusion

theorem unwrittenRead_inPlace {α : Type} : AccessInPlace (.error .unwrittenRead : Except Fault α) :=
  fun _ h => Except.error.inj h ▸ Fault.noConfusion

theorem readGrid_inPlace (b : Bank 32) (i : Nat) : AccessInPlace (b.readGrid i) :=
  .ite (accessInPlace_ok _) indexOutOfBounds_inPlace

theorem writeGrid_inPlace (b : Bank 32) (i : Nat) (v : Word) : AccessInPlace (b.writeGrid i v) :=
  .ite (accessInPlace_ok _) indexOutOfBounds_inPlace

theorem readScratch_inPlace {w : Nat} (b : Bank w) (i : Nat) : AccessInPlace (b.readScratch i) := by
  refine .ite ?_ indexOutOfBounds_inPlace
  cases cellsGet b.cells i with
  | some v => exact accessInPlace_ok v
  | none => exact unwrittenRead_inPlace

theorem writeScratch_inPlace {w : Nat} (b : Bank w) (i : Nat) (v : BitVec w) : AccessInPlace (b.writeScratch i v) :=
  .ite (accessInPlace_ok _) indexOutOfBounds_inPlace

theorem forEach_inPlace {α : Type} {f : Nat → α → Except Fault α} (hf : ∀ i a, AccessInPlace (f i a)) (is : List Nat)
    (a : α) : AccessInPlace (forEach f is a) := by
  induction is generalizing a with
  | nil => exact accessInPlace_ok a
  | cons i is ih =>
    unfold forEach
    split
    · exact ih _
    · exact (hf i a).error ‹_›

/-! ### Loops over memory -/

theorem copyEntry_inPlace (old : Bank 4) (ey x : Nat) (b : Bank 4) : AccessInPlace (copyEntry old ey x b) := by
  unfold copyEntry
  split
  · exact writeScratch_inPlace _ _ _
  · exact (readScratch_inPlace _ _).error ‹_›

theorem insertBit_inPlace (r : QtRegs) (b : Bank 4) (i j : Nat) (a : Bank 32) : AccessInPlace (insertBit r b i j a) := by
  unfold insertBit
  split
  · exact (readScratch_inPlace _ _).error ‹_›
  · split
    · exact (readGrid_inPlace _ _).error ‹_›
    · exact writeGrid_inPlace _ _ _

theorem qtreeBitins_inPlace (r : QtRegs) (b : Bank 4) (a : Bank 32) : AccessInPlace (qtreeBitins r b a) :=
  forEach_inPlace (fun i => forEach_inPlace (insertBit_inPlace r b i) _) _ a

theorem scaleEntry_inPlace (scale : Word) (i : Nat) (a : Bank 32) : AccessInPlace (scaleEntry scale i a) := by
  unfold scaleEntry
  split
  · exact writeGrid_inPlace _ _ _
  · exact (readGrid_inPlace _ _).error ‹_›

theorem saveHalf_inPlace (a : Bank 32) (base nhalf stride i : Nat) (t : Bank 32) :
    AccessInPlace (saveHalf a base nhalf stride i t) := by
  unfold saveHalf
  split
  · exact writeScratch_inPlace _ _ _
  · exact (readGrid_inPlace _ _).error ‹_›

theorem spreadHalf_inPlace (base stride i : Nat) (a : Bank 32) : AccessInPlace (spreadHalf base stride i a) := by
  unfold spreadHalf
  split
  · exact writeGrid_inPlace _ _ _
  · exact (readGrid_inPlace _ _).error ‹_›

theorem placeHalf_inPlace (t : Bank 32) (base stride i : Nat) (a : Bank 32) :
    AccessInPlace (placeHalf t base stride i a) := by
  unfold placeHalf
  split
  · exact writeGrid_inPlace _ _ _
  · exact (readScratch_inPlace _ _).error ‹_›

theorem unshuffle_inPlace (base n stride : Nat) (m : Bank 32 × Bank 32) : AccessInPlace (unshuffle base n stride m) := by
  unfold unshuffle
  simp only
  split
  · exact (forEach_inPlace (saveHalf_inPlace _ _ _ _) _ _).error ‹_›
  split
  · exact (forEach_inPlace (spreadHalf_inPlace _ _) _ _).error ‹_›
  split
  · exact (forEach_inPlace (placeHalf_inPlace _ _ _) _ _).error ‹_›
  · exact accessInPlace_ok _

theorem unshuffleLevel_inPlace (ny nxtop nytop : Nat) (m : Bank 32 × Bank 32) :
    AccessInPlace (unshuffleLevel ny nxtop nytop m) := by
  unfold unshuffleLevel
  split
  · exact (forEach_inPlace (fun _ => unshuffle_inPlace _ _ _) _ _).error ‹_›
  · exact forEach_inPlace (fun _ => unshuffle_inPlace _ _ _) _ _

theorem combineBlock_inPlace (ny s00 : Nat) (m : HtRegs × Bank 32) : AccessInPlace (combineBlock ny s00 m) :=
  (readGrid_inPlace _ _).bind fun _ => (readGrid_inPlace _ _).bind fun _ => (readGrid_inPlace _ _).bind fun _ =>
    (readGrid_inPlace _ _).bind fun _ => (writeGrid_inPlace _ _ _).bind fun _ => (writeGrid_inPlace _ _ _).bind fun _ =>
      (writeGrid_inPlace _ _ _).bind fun _ => (writeGrid_inPlace _ _ _).bind fun _ => accessInPlace_ok _

theorem combineOddY_inPlace (ny s00 : Nat) (m : HtRegs × Bank 32) : AccessInPlace (combineOddY ny s00 m) :=
  (readGrid_inPlace _ _).bind fun _ => (readGrid_inPlace _ _).bind fun _ => (writeGrid_inPlace _ _ _).bind fun _ =>
    (writeGrid_inPlace _ _ _).bind fun _ => accessInPlace_ok _

theorem combineOddX_inPlace (s00 : Nat) (m : HtRegs × Bank 32) : AccessInPlace (combineOddX s00 m) :=
  (readGrid_inPlace _ _).bind fun _ => (readGrid_inPlace _ _).bind fun _ => (writeGrid_inPlace _ _ _).bind fun _ =>
    (writeGrid_inPlace _ _ _).bind fun _ => accessInPlace_ok _

theorem combineCorner_inPlace (s00 : Nat) (m : HtRegs × Bank 32) : AccessInPlace (combineCorner s00 m) :=
  (readGrid_inPlace _ _).bind fun _ => (writeGrid_inPlace _ _ _).bind fun _ => accessInPlace_ok _

theorem combineRows_inPlace (ny i : Nat) (m : HtRegs × Bank 32) : AccessInPlace (combineRows ny i m) := by
  unfold combineRows
  split
  · exact (forEach_inPlace (fun _ => combineBlock_inPlace _ _) _ _).error ‹_›
  · exact .ite (combineOddY_inPlace _ _ _) (accessInPlace_ok _)

theorem combineLastRow_inPlace (ny : Nat) (m : HtRegs × Bank 32) : AccessInPlace (combineLastRow ny m) := by
  unfold combineLastRow
  simp only
  split
  · exact (forEach_inPlace (fun _ => combineOddX_inPlace _) _ _).error ‹_›
  · exact .ite (combineCorner_inPlace _ _) (accessInPlace_ok _)

theorem combineLevel_inPlace (ny : Nat) (m : HtRegs × Bank 32) : AccessInPlace (combineLevel ny m) := by
  unfold combineLevel
  simp only
  split
  · exact (forEach_inPlace (combineRows_inPlace ny) _ _).error ‹_›
  · exact .ite (combineLastRow_inPlace _ _) (accessInPlace_ok _)

/-! ### Outcomes -/

/-- An outcome that is no fault, or a fault for another reason than a token out of its place. -/
def RunsInPlace (r : Result) : Prop := r ≠ .fault .tokenOutOfPlace

theorem runsInPlace_next (s : State) : RunsInPlace (.next s) := fun h => nomatch h

/-- The error of an access ends the operation in a fault. -/
theorem AccessInPlace.fault {α : Type} {x : Except Fault α} {e : Fault} (hx : AccessInPlace x) (h : x = .error e) :
    RunsInPlace (.fault e) := fun hf => hx e h (Host.Outcome.fault.inj hf)

theorem RunsInPlace.ite {c : Prop} [Decidable c] {r r' : Result} (h : RunsInPlace r) (h' : RunsInPlace r') :
    RunsInPlace (if c then r else r') := by
  split
  · exact h
  · exact h'

theorem RunsInPlace.needs {b : Bool} {r : Result} (h : RunsInPlace r) : RunsInPlace (needs b r) :=
  .ite h fun h => nomatch h

theorem RunsInPlace.inSlot {k : Slot} {s : State} {r : Result} (hk : s.point.slot = some k) (h : RunsInPlace r) :
    RunsInPlace (inSlot k s r) := by
  rwa [Machine.inSlot, if_pos hk]

/-! ### Operations of the engine -/

theorem admitHeader_inPlace (s : State) : RunsInPlace (admitHeader s) := by
  refine .needs ?_
  split <;> exact runsInPlace_next _

theorem nextLevel_inPlace (s : State) : RunsInPlace (nextLevel s) := by
  refine .needs (.ite ?_ (runsInPlace_next _))
  simp only
  split
  · exact runsInPlace_next _
  · exact AccessInPlace.fault (forEach_inPlace (copyEntry_inPlace _ _) _ _) ‹_›

theorem scanLevel_inPlace (s : State) : RunsInPlace (scanLevel s) := by
  refine .needs (.ite (runsInPlace_next _) ?_)
  simp only
  split
  · exact .ite (runsInPlace_next _) (runsInPlace_next _)
  · exact (readScratch_inPlace _ _).fault ‹_›

theorem insertPlane_inPlace (s : State) : RunsInPlace (insertPlane s) := by
  refine .needs ?_
  split
  · exact runsInPlace_next _
  · exact (qtreeBitins_inPlace _ _ _).fault ‹_›

theorem scanSigns_inPlace (s : State) : RunsInPlace (scanSigns s) := by
  refine .ite ?_ (runsInPlace_next _)
  split
  · exact .ite (runsInPlace_next _) (runsInPlace_next _)
  · exact (readGrid_inPlace _ _).fault ‹_›

theorem setDC_inPlace (s : State) : RunsInPlace (setDC s) := by
  refine .needs ?_
  split
  · exact runsInPlace_next _
  · exact (writeGrid_inPlace _ _ _).fault ‹_›

theorem undigitize_inPlace (s : State) : RunsInPlace (undigitize s) := by
  refine .needs ?_
  split
  · exact runsInPlace_next _
  · refine AccessInPlace.fault (.ite ?_ (accessInPlace_ok _)) ‹_›
    exact forEach_inPlace (scaleEntry_inPlace _) _ _

theorem initTransform_inPlace (s : State) : RunsInPlace (initTransform s) := by
  refine .needs ?_
  simp only
  split
  · exact (readGrid_inPlace _ _).fault ‹_›
  split
  · exact (writeGrid_inPlace _ _ _).fault ‹_›
  · exact runsInPlace_next _

theorem runUnshuffle_inPlace (s : State) : RunsInPlace (runUnshuffle s) := by
  refine .needs ?_
  split
  · exact runsInPlace_next _
  · exact (unshuffleLevel_inPlace _ _ _ _).fault ‹_›

theorem runCombine_inPlace (s : State) : RunsInPlace (runCombine s) := by
  refine .needs ?_
  split
  · exact runsInPlace_next _
  · exact (combineLevel_inPlace _ _).fault ‹_›

theorem packPixel_inPlace (s : State) : RunsInPlace (packPixel s) := by
  refine .ite ?_ (runsInPlace_next _)
  split
  · exact runsInPlace_next _
  · exact (readGrid_inPlace _ _).fault ‹_›

/-- At a position that reads no token, the engine's operation is one of its own. -/
theorem engineOp_inPlace {s : State} (h : s.point.slot = none) : RunsInPlace (engineOp s) := by
  unfold engineOp
  cases hp : s.point with
  | idle | done | error | refused | clear => exact runsInPlace_next _
  | admitHdr => exact admitHeader_inPlace s
  | quad | halve => exact .needs (runsInPlace_next _)
  | direct | hlevel => exact .needs (.ite (runsInPlace_next _) (runsInPlace_next _))
  | plane => exact .needs (.ite (.ite (runsInPlace_next _) (runsInPlace_next _)) (runsInPlace_next _))
  | level => exact nextLevel_inPlace s
  | expand => exact scanLevel_inPlace s
  | bitins => exact insertPlane_inPlace s
  | sign => exact scanSigns_inPlace s
  | setDC => exact setDC_inPlace s
  | undigitize => exact undigitize_inPlace s
  | hinit => exact initTransform_inPlace s
  | unshuffle => exact runUnshuffle_inPlace s
  | combine => exact runCombine_inPlace s
  | pack => exact packPixel_inPlace s
  | _ => rw [hp] at h; cases h

/-! ### Tokens -/

/-- A token's meaning runs inside its place (R88). -/
theorem exec_eq_inSlot (i : Instr) (s : State) : ∃ r, exec i s = inSlot i.slot s r := by
  cases i <;> exact ⟨_, rfl⟩

theorem storeHuf_inPlace {v : Nibble} {s : State} (h : s.point.slot = some .huf) : RunsInPlace (storeHuf v s) := by
  refine .inSlot h (.needs (.ite ?_ ?_))
  · unfold storeTop
    split
    · exact runsInPlace_next _
    · exact (writeScratch_inPlace _ _ _).fault ‹_›
  · unfold storeExpanded
    split
    · exact runsInPlace_next _
    · exact (writeScratch_inPlace _ _ _).fault ‹_›

theorem execSgn_inPlace {b : BitVec 1} {s : State} (h : s.point.slot = some .sgn) : RunsInPlace (execSgn b s) := by
  refine .inSlot h ?_
  split
  · exact (readGrid_inPlace _ _).fault ‹_›
  split
  · exact runsInPlace_next _
  · refine AccessInPlace.fault (.ite ?_ (accessInPlace_ok _)) ‹_›
    exact writeGrid_inPlace _ _ _

/-- At a position that reads its kind, a token is not out of its place. -/
theorem exec_inPlace {i : Instr} {s : State} (h : s.point.slot = some i.slot) : RunsInPlace (exec i s) := by
  cases i with
  | hdrMagic | hdrNx | hdrNy | hdrScale | hdrSumall | hdrNbp0 | hdrNbp1 | hdrNbp2 => exact .inSlot h (runsInPlace_next _)
  | fmtIllegal | term | termIllegal | pad => exact .inSlot h (runsInPlace_next _)
  | fmtD => exact .inSlot h (.needs (runsInPlace_next _))
  | fmtQ => exact .inSlot h (.needs (.ite (runsInPlace_next _) (runsInPlace_next _)))
  | nyb v =>
    refine .inSlot h (.needs ?_)
    split
    · exact runsInPlace_next _
    · exact (writeScratch_inPlace _ _ _).fault ‹_›
  | sgn b => exact execSgn_inPlace h
  | align => exact .inSlot h (.ite (runsInPlace_next _) (runsInPlace_next _))
  | _ => exact storeHuf_inPlace h

/-! ### Steps -/

theorem hostMove_inPlace (m : HostMove) (s : State) : RunsInPlace (hostMove m s) := by
  cases m with
  | start bytes => exact .ite (fun h => nomatch h) (.ite (runsInPlace_next _) (runsInPlace_next _))
  | readStatus | readOutput | reset | wait => exact runsInPlace_next _

/-- The fetch reads a token of the position, which then runs in its place. -/
theorem engineEvent_inPlace (s : State) : RunsInPlace (engineEvent s).run := by
  unfold engineEvent
  split
  · rename_i k hk
    rcases fetchToken_cases k s with ⟨t, -, he⟩ | ⟨p, i, t, -, -, hmoved, hi, he⟩ | ⟨-, p, t, -, -, he⟩ | ⟨-, he⟩ <;> rw [he]
    · exact runsInPlace_next _
    · have hpoint : t.point = s.point := (Moved.frame hmoved).2.1
      exact exec_inPlace (by rw [hpoint, hk, hi])
    · exact runsInPlace_next _
    · exact fun h => nomatch h
  · exact engineOp_inPlace ‹_›

theorem step_inPlace (s : State) : RunsInPlace (step s) := by
  rcases step_cases s with ⟨-, he⟩ | ⟨rest, -, he⟩ | ⟨m, rest, -, -, he⟩ <;> rw [he]
  · exact engineEvent_inPlace s
  · exact engineEvent_inPlace _
  · exact hostMove_inPlace m _

end Sys2Proof.Machine

namespace Sys2Proof.Proofs

open Sys2Proof.Machine

/-- Settles O11: a token's meaning runs inside its place, and no operation faults for a token but the place's test. -/
theorem tokensKeepToTheGrammar : Obligations.TokensKeepToTheGrammar := by
  refine ⟨fun i s hslot => ?_, step_inPlace⟩
  obtain ⟨r, hr⟩ := exec_eq_inSlot i s
  rw [hr, inSlot, if_neg hslot]

end Sys2Proof.Proofs
end

section
/-! SUPPORT. The direct nibbles (R137), and the tokens between the passes and of the sign pass: where they lead and what they leave
unchanged (R83, R102, R144, R145). -/

namespace Sys2Proof.Machine

theorem readScratch_putEntry_same {w : Nat} {b : Bank w} {i : Nat} (hi : i < b.size) (v : BitVec w) :
    (b.putEntry i v).readScratch i = .ok v := by
  simp only [Bank.readScratch, putEntry_size, get_putEntry, if_pos hi, if_true]

theorem readGrid_setEntry_other {b : Bank 32} {i j : Nat} {v : Word} (h : j ≠ i) :
    (b.setEntry i v).readGrid j = b.readGrid j := by
  simp only [readGrid_eq, setEntry_size, entry_setEntry_other h.symm]

/-- A codeword is no token of the terminator, the pad, the reset or the sign pass. -/
theorem not_passToken_of_hufValue {i : Instr} {v : Nibble} (hv : i.hufValue = some v) :
    ¬ (i = .term ∨ i.slot = .pad ∨ i.slot = .align ∨ i.slot = .sgn) := by
  rw [slot_of_hufValue hv]
  rintro (rfl | h | h | h)
  · cases hv
  all_goals cases h

end Sys2Proof.Machine

namespace Sys2Proof.Proofs

open Sys2Proof.Machine Sys2Proof.Safety

/-- Settles O21: the loop head compares `t` with the count, and the nibble is written at `t`. -/
theorem directNibbles : Obligations.DirectNibbles := by
  refine ⟨fun s hs hw => ?_, fun v s hp hw ht => ?_⟩
  · have hstep : step s = if s.qt.t < s.qt.mx * s.qt.my then .next (s.goto .nyb) else .next (s.goto .bitins) := by
      rw [step_at hs rfl, engineOp, hs.2]
      exact needs_true hw
    exact ⟨fun hlt => hstep.trans (if_pos hlt), fun hle => hstep.trans (if_neg hle.not_gt)⟩
  · have hexec : exec (.nyb v) s =
        .next (State.goto .direct { s with S := s.S.putEntry s.qt.t v, qt := { s.qt with t := s.qt.t + 1 } }) := by
      refine (inSlot_at hp rfl).trans ((needs_true hw).trans ?_)
      rw [writeScratch_ok ht]
    exact ⟨_, hexec, readScratch_putEntry_same ht v, rfl, rfl⟩

/-- Settles O28: at its place each of the two tokens only goes to the next position. -/
theorem terminatorAndPad : Obligations.TerminatorAndPad := by
  refine ⟨fun s hp => inSlot_at hp rfl, fun len p s => ⟨fun hp => ?_, fun hp => ?_⟩⟩
  · exact (inSlot_at hp rfl).trans (by rw [if_pos hp])
  · exact (inSlot_at hp rfl).trans (by rw [if_neg (hp ▸ by decide)])

/-- Settles O31: a sign bit writes one entry of the grid at most, a reset the bit cursor and where its pass begins. -/
theorem passTokenFrame : Obligations.PassTokenFrame := by
  intro i s t h hi
  cases exec_next h with
  | term | pad1 | pad2 | keep | align1 | align2 =>
    refine ⟨⟨rfl, rfl, rfl⟩, ⟨rfl, fun _ => rfl⟩, ⟨rfl, fun _ => rfl⟩, rfl, rfl, fun a _ => rfl, rfl, rfl, rfl, rfl, rfl, rfl,
      rfl, ?_⟩
    simp [Instr.slot]
  | negate =>
    refine ⟨⟨rfl, rfl, rfl⟩, ⟨rfl, fun _ => rfl⟩, ⟨rfl, fun _ => rfl⟩, rfl, rfl,
      fun a ha => readGrid_setEntry_other (ha rfl), rfl, rfl, rfl, rfl, rfl, rfl, rfl, ?_⟩
    simp [Instr.slot]
  | top _ _ _ hv => exact absurd hi (not_passToken_of_hufValue hv)
  | expanded _ _ _ hv => exact absurd hi (not_passToken_of_hufValue hv)
  | _ => simp [Instr.slot] at hi

end Sys2Proof.Proofs
end

section
/-! SUPPORT. The calls of a pass take consecutive bits of the stream, and the bits taken fix the cursor (R106 to R108). -/

namespace Sys2Proof.Machine

open Sys2Proof.Safety

@[simp] theorem length_bytesLeft (s : State) : (bytesLeft s).length = 8 * (s.input.length - s.pos) := by
  simp [bytesLeft, byteBits, List.length_flatMap, Nat.mul_comm]

theorem length_bitsLeft (s : State) : (bitsLeft s).length = s.btg + 8 * (s.input.length - s.pos) := by
  rw [bitsLeft_eq, List.length_append, length_wordBits, length_bytesLeft]

/-- With no live bit the bits to come are those of the bytes not consumed. -/
theorem bitsLeft_of_btg_eq_zero {s : State} (hb : s.btg = 0) : bitsLeft s = bytesLeft s := by
  rw [bitsLeft_eq, hb]
  rfl

/-- From `s` to `t` a read has moved the cursor past `bs`, which are the next `n` bits of the stream. -/
structure BitsRead (s : State) (n : Nat) (bs : List Bool) (t : State) : Prop where
  moved : Moved s t
  length : bs.length = n
  bits : bitsLeft s = bs ++ bitsLeft t

/-- In `t` a read from `s` has ended early: no byte is left, and the stream held fewer than `n` bits. -/
def BitsEnded (s : State) (n : Nat) (t : State) : Prop := EndedAt s t ∧ (bitsLeft s).length < n

theorem BitsRead.append {s t u : State} {n m : Nat} {bs bs' : List Bool} (h : BitsRead s n bs t)
    (h' : BitsRead t m bs' u) : BitsRead s (n + m) (bs ++ bs') u where
  moved := h.moved.trans h'.moved
  length := by rw [List.length_append, h.length, h'.length]
  bits := by rw [h.bits, h'.bits, List.append_assoc]

theorem BitsEnded.after {s t u : State} {n m : Nat} {bs : List Bool} (h : BitsRead s n bs t) (h' : BitsEnded t m u) :
    BitsEnded s (n + m) u := by
  refine ⟨EndedAt.after h.moved h'.1, ?_⟩
  rw [h.bits, List.length_append, h.length]
  exact Nat.add_lt_add_left h'.2 n

theorem BitsEnded.mono {s t : State} {n m : Nat} (h : BitsEnded s n t) (hnm : n ≤ m) : BitsEnded s m t :=
  ⟨h.1, h.2.trans_le hnm⟩

/-- A call reads as many bits as it is wide (R103, R104). -/
theorem bitCall_reads {c : BitCall} {s : State} (hc : 1 ≤ c.width ∧ c.width ≤ 8) (hb : s.btg ≤ 7) :
    (c.run s).All (BitsRead s c.width) (BitsEnded s c.width) := by
  cases c with
  | bit =>
    refine ((nextBit_moves s).and (nextBit_after (.refl s))).andThen fun b t ht => ?_
    obtain ⟨hmoved, htaken⟩ := ht
    exact ⟨hmoved, rfl, by cases b <;> exact htaken.bits⟩
  | bits n =>
    refine ((nextBits_moves hc.1 s).and (nextBits_takes hc.2 hb)).andThen fun v t ht => ?_
    obtain ⟨hmoved, htaken⟩ := ht
    exact ⟨hmoved, length_wordBits _ _, htaken.bits⟩

/-- A sequence of calls reads as many bits as its calls are wide. -/
theorem runCalls_reads {cs : List BitCall} {s : State} (hcs : ∀ c ∈ cs, 1 ≤ c.width ∧ c.width ≤ 8) (hb : s.btg ≤ 7) :
    (runCalls cs s).All (BitsRead s (callBits cs)) (BitsEnded s (callBits cs)) := by
  induction cs generalizing s with
  | nil => exact ⟨.refl s, rfl, rfl⟩
  | cons c cs ih =>
    have hwidth : callBits (c :: cs) = c.width + callBits cs := rfl
    obtain ⟨hc, hcs⟩ := List.forall_mem_cons.mp hcs
    rw [hwidth]
    refine ((bitCall_reads hc hb).mono (fun _ _ h => h) (fun _ h => h.mono (Nat.le_add_right _ _))).andThen fun b t ht => ?_
    refine ((ih hcs (ht.moved.live hb)).mono (fun _ _ h => h) (fun _ h => BitsEnded.after ht h)).andThen fun bs u hu => ?_
    exact ht.append hu

/-- At most 7 bits are live, so the number of bits read from a byte boundary fixes `pos` and `btg` (R106). -/
theorem BitsRead.cursor {s t : State} {n : Nat} {bs : List Bool} (h : BitsRead s n bs t) (hb : s.btg = 0)
    (hpos : s.pos ≤ s.input.length) : t.pos = s.pos + ceilDiv n 8 ∧ t.btg = (8 - n % 8) % 8 := by
  have hlive : t.btg ≤ 7 := h.moved.live (by omega)
  have hinside : t.pos ≤ s.input.length := h.moved.inside hpos
  have hcount : 8 * (s.input.length - s.pos) = n + (t.btg + 8 * (s.input.length - t.pos)) := by
    have hlen := congrArg List.length h.bits
    rwa [List.length_append, h.length, length_bitsLeft, length_bitsLeft, h.moved.input_eq, hb, Nat.zero_add] at hlen
  unfold ceilDiv
  omega

end Sys2Proof.Machine

namespace Sys2Proof.Proofs

open Sys2Proof.Machine Sys2Proof.Safety

/-- Settles O8: by induction on the calls, they read the next bits of the stream or run out of them, and the number of
bits read fixes the cursor. -/
theorem bitStreamLaw : Obligations.BitStreamLaw := by
  intro s cs hb hpos hcs
  have hreads := runCalls_reads hcs (s := s) (by omega)
  have hstream : bitsLeft s = bytesLeft s := bitsLeft_of_btg_eq_zero hb
  have htotal : (bitsLeft s).length = 8 * (s.input.length - s.pos) := by rw [hstream, length_bytesLeft]
  cases hr : runCalls cs s with
  | got bs t =>
    rw [hr] at hreads
    have hbits : bytesLeft s = bs ++ bitsLeft t := hstream ▸ hreads.bits
    have hlength := congrArg List.length hreads.bits
    rw [List.length_append, hreads.length, htotal] at hlength
    refine ⟨fun _ => ⟨bs, t, rfl, ?_, ?_, hreads.cursor hb hpos⟩, fun hlong => by omega⟩
    · show bs = (bytesLeft s).take (callBits cs)
      rw [hbits, List.take_left' hreads.length]
    · show bitsLeft t = (bytesLeft s).drop (callBits cs)
      rw [hbits, List.drop_left' hreads.length]
  | exhausted t =>
    rw [hr] at hreads
    obtain ⟨⟨hmoved, hend⟩, hshort⟩ := hreads
    exact ⟨fun hfits => by omega, fun _ => ⟨t, rfl, le_antisymm (hmoved.inside hpos) hend⟩⟩

end Sys2Proof.Proofs
end

section
/-! SUPPORT. Byte reads and the 32-bit reads of the header, by the bytes consumed (R100, R101). -/

namespace Sys2Proof.Machine

/-- From `s` to `t` the bytes `bs` have been consumed, and nothing else has changed. -/
structure BytesRead (s : State) (bs : List Byte) (t : State) : Prop where
  same : t = { s with pos := s.pos + bs.length }
  front : s.input.drop s.pos = bs ++ t.input.drop t.pos

theorem BytesRead.refl (s : State) : BytesRead s [] s := ⟨rfl, rfl⟩

theorem BytesRead.snoc {s t : State} {bs : List Byte} {b : Byte} (h : BytesRead s bs t)
    (hb : t.input.drop t.pos = b :: t.input.drop (t.pos + 1)) : BytesRead s (bs ++ [b]) { t with pos := t.pos + 1 } where
  same := by
    rw [List.length_append, ← Nat.add_assoc, h.same]
    rfl
  front := by
    rw [h.front, hb, List.append_assoc]
    rfl

theorem BytesRead.length_le {s t : State} {bs : List Byte} (h : BytesRead s bs t) :
    bs.length ≤ s.input.length - s.pos := by
  rw [← List.length_drop, h.front, List.length_append]
  exact Nat.le_add_right _ _

/-- In `t` every byte left in `s` has been consumed, fewer than `n` of them. -/
def BytesEnded (s : State) (n : Nat) (t : State) : Prop :=
  BytesRead s (s.input.drop s.pos) t ∧ (s.input.drop s.pos).length < n

theorem nextByte_of_lt {s : State} (h : s.pos < s.input.length) :
    nextByte s = .got s.input[s.pos] { s with pos := s.pos + 1 } := by
  simp only [nextByte, List.getElem?_eq_getElem h]

theorem nextByte_of_le {s : State} (h : s.input.length ≤ s.pos) : nextByte s = .exhausted s := by
  simp only [nextByte, List.getElem?_eq_none h]

/-- After `bs`, a byte read consumes one byte more, or `bs` were all. -/
theorem nextByte_reads {s t : State} {bs : List Byte} (h : BytesRead s bs t) {n : Nat} (hn : bs.length < n) :
    (nextByte t).All (fun b u => BytesRead s (bs ++ [b]) u) (BytesEnded s n) := by
  rcases Nat.lt_or_ge t.pos t.input.length with hlt | hle
  · rw [nextByte_of_lt hlt]
    exact h.snoc (List.drop_eq_getElem_cons hlt)
  · have hall : s.input.drop s.pos = bs := by rw [h.front, List.drop_eq_nil_of_le hle, List.append_nil]
    rw [nextByte_of_le hle]
    exact ⟨hall.symm ▸ h, hall.symm ▸ hn⟩

/-- The word is the next four bytes, the first the most significant; where one is missing, those before it are consumed. -/
theorem nextInt32BE_reads (s : State) :
    (nextInt32BE s).All (fun v t => ∃ b0 b1 b2 b3, v = b0 ++ b1 ++ b2 ++ b3 ∧ BytesRead s [b0, b1, b2, b3] t)
      (BytesEnded s 4) :=
  (nextByte_reads (.refl s) (by decide)).andThen fun b0 _ h0 =>
  (nextByte_reads h0 (by simp)).andThen fun b1 _ h1 =>
  (nextByte_reads h1 (by simp)).andThen fun b2 _ h2 =>
  (nextByte_reads h2 (by simp)).andThen fun b3 _ h3 => ⟨b0, b1, b2, b3, rfl, h3⟩

theorem toInt_fourBytes (b0 b1 b2 b3 : Byte) :
    (b0 ++ b1 ++ b2 ++ b3).toInt =
      ((b0.toNat * 2 ^ 24 + b1.toNat * 2 ^ 16 + b2.toNat * 2 ^ 8 + b3.toNat : Nat) : Int).bmod (2 ^ 32) := by
  have hnat : (b0 ++ b1 ++ b2 ++ b3).toNat = b0.toNat * 2 ^ 24 + b1.toNat * 2 ^ 16 + b2.toNat * 2 ^ 8 + b3.toNat := by
    simp only [toNat_append_eq]
    omega
  rw [BitVec.toInt_eq_toNat_bmod, hnat]

/-- A fetch that ends early raises `StreamExhausted` in the stage of the token, where no byte is left (R100, R231). -/
theorem fetchToken_exhausted {k : Slot} {s t : State} (h : readToken k s = .exhausted t) :
    fetchToken k s = .own (.next (raise .streamExhausted t)) ∧ EndedAt s t := by
  have hends := readToken_moves k s
  rw [h] at hends
  exact ⟨by simp only [fetchToken, h], hends⟩

end Sys2Proof.Machine

namespace Sys2Proof.Proofs

open Sys2Proof.Machine Sys2Proof.Safety

/-- Settles O7: each read consumes the bytes at the front of what is left, and a fetch ends early only where none is. -/
theorem byteReads : Obligations.ByteReads := by
  refine ⟨fun s => ⟨fun h => ⟨_, nextByte_of_lt h, rfl⟩, nextByte_of_le, fun k t ht => ?_⟩, fun s hpos => ?_⟩
  · obtain ⟨hfetch, hmoved, hend⟩ := fetchToken_exhausted ht
    have hstage : t.stage = s.stage := by rw [hmoved.same]
    exact ⟨_, hfetch, rfl, hstage, rfl, hend, fun hpos => le_antisymm (hmoved.inside hpos) hend⟩
  · have hreads := nextInt32BE_reads s
    cases hr : nextInt32BE s with
    | got v t =>
      rw [hr] at hreads
      obtain ⟨b0, b1, b2, b3, rfl, hread⟩ := hreads
      have hfour : 4 ≤ s.input.length - s.pos := hread.length_le
      refine ⟨fun _ => ⟨_, t, rfl, hread.same, b0, b1, b2, b3, ?_, toInt_fourBytes b0 b1 b2 b3⟩, fun hshort => by omega⟩
      rw [hread.front]
      rfl
    | exhausted t =>
      rw [hr] at hreads
      obtain ⟨hread, hshort⟩ := hreads
      have hsame := hread.same
      rw [List.length_drop] at hshort hsame
      refine ⟨fun hfits => by omega, fun _ => ?_⟩
      rw [hsame, Nat.add_sub_cancel' hpos]

end Sys2Proof.Proofs
end

section
/-! SUPPORT. The bit-cursor reset drops the live bits (R102). -/

namespace Sys2Proof.Machine

open Sys2Proof.Safety

theorem bitsLeft_resetBitCursor (s : State) : bitsLeft (resetBitCursor s) = bytesLeft s := bitsLeft_of_btg_eq_zero rfl

end Sys2Proof.Machine

namespace Sys2Proof.Proofs

open Sys2Proof.Machine Sys2Proof.Safety

/-- Settles O29: at each of its two places the token resets the bit cursor and goes to where the pass begins. -/
theorem alignBegin : Obligations.AlignBegin := by
  refine fun s => ⟨fun hp => ?_, fun hp => ?_⟩
  · exact ⟨_, (inSlot_at hp rfl).trans (if_pos hp), rfl, rfl, rfl, rfl, rfl, rfl, bitsLeft_resetBitCursor s⟩
  · exact ⟨_, (inSlot_at hp rfl).trans (if_neg (hp ▸ by decide)), rfl, rfl, rfl, rfl, rfl, rfl, rfl,
      bitsLeft_resetBitCursor s⟩

end Sys2Proof.Proofs
end

section
/-! SUPPORT. What a codeword's value does at each of the two places that read one (R123, R138, R141). -/

namespace Sys2Proof.Machine

theorem exec_codeword {i : Instr} {v : Nibble} (hv : i.hufValue = some v) (s : State) : exec i s = storeHuf v s := by
  cases i <;> cases hv <;> rfl

theorem storeHuf_at_top {v : Nibble} {s : State} (hp : s.point = .top) (hw : s.written.qt = true) (hsize : 0 < s.S.size) :
    storeHuf v s = .next (State.goto .level
      { s with
        S := s.S.putEntry 0 v
        qt := { s.qt with ex := 1, ey := 1, fx := s.qt.nqx, fy := s.qt.nqy, c := 2 ^ s.qt.L, k := 1 } }) := by
  refine (inSlot_at hp rfl).trans ((needs_true hw).trans ?_)
  rw [if_pos hp, storeTop, writeScratch_ok hsize]

theorem storeHuf_at_expansion {v : Nibble} {s : State} (hp : s.point = .huf) (hw : s.written.qt = true)
    (ht : s.qt.t < s.S.size) : storeHuf v s = .next (State.goto .expand { s with S := s.S.putEntry s.qt.t v }) := by
  refine (inSlot_at hp rfl).trans ((needs_true hw).trans ?_)
  rw [if_neg (hp ▸ by decide), storeExpanded, writeScratch_ok ht]

end Sys2Proof.Machine

namespace Sys2Proof.Proofs

open Sys2Proof.Machine

/-- Settles O22: the codeword's value is written at entry 0 at the top level, and at the scan's entry at an expansion level. -/
theorem huffmanTokens : Obligations.HuffmanTokens := by
  refine ⟨fun i v s hv hp hw hsize => ?_, fun i v s hv hp hw ht => ?_⟩
  · exact ⟨_, (exec_codeword hv s).trans (storeHuf_at_top hp hw hsize), readScratch_putEntry_same hsize v,
      rfl, rfl, rfl, rfl, rfl, rfl, rfl⟩
  · exact ⟨_, (exec_codeword hv s).trans (storeHuf_at_expansion hp hw ht), readScratch_putEntry_same ht v, rfl, rfl⟩

end Sys2Proof.Proofs
end

section
/-! SUPPORT. The parse of the header (R130): the bytes of each field, the state after each field, and the end of an input that is
too short. -/

namespace Sys2Proof.Machine

open Sys2Proof.Safety

/-! ### The fields' bytes -/

/-- The byte at offset `n` of the input. -/
def byteAt (s : State) (n : Nat) : Byte := s.input.getD n 0

/-- The big-endian word at offset `n` of the input (R101). -/
def wordAt (s : State) (n : Nat) : Word := byteAt s n ++ byteAt s (n + 1) ++ byteAt s (n + 2) ++ byteAt s (n + 3)

theorem nextByte_at {s : State} {n : Nat} (hpos : s.pos = n) (h : n < s.input.length) :
    nextByte s = .got (byteAt s n) { s with pos := n + 1 } := by
  subst hpos
  rw [nextByte_of_lt h, byteAt, List.getD_eq_getElem _ _ h]

theorem readCount_at {s : State} {n : Nat} (hpos : s.pos = n) (h : n + 1 ≤ s.input.length) :
    readCount s = .got (8, (byteAt s n).toNat) { s with pos := n + 1 } := by
  rw [readCount, nextByte_at hpos h]
  rfl

theorem readInt32_at {s : State} {n : Nat} (hpos : s.pos = n) (h : n + 4 ≤ s.input.length) :
    readInt32 s = .got (32, (wordAt s n).toNat) { s with pos := n + 4 } := by
  have h0 := nextByte_at hpos (by omega)
  have h1 := nextByte_at (s := { s with pos := n + 1 }) rfl (by show n + 1 < s.input.length; omega)
  have h2 := nextByte_at (s := { s with pos := n + 2 }) rfl (by show n + 2 < s.input.length; omega)
  have h3 := nextByte_at (s := { s with pos := n + 3 }) rfl (by show n + 3 < s.input.length; omega)
  simp only [readInt32, nextInt32BE, h0, h1, h2, h3, Read.andThen]
  rfl

theorem readMagic_at {s : State} (hpos : s.pos = 0) (h : 2 ≤ s.input.length) :
    readMagic s = .got (16, (byteAt s 0 ++ byteAt s 1).toNat) { s with pos := 2 } := by
  have h0 := nextByte_at hpos (by omega)
  have h1 := nextByte_at (s := { s with pos := 1 }) rfl (by show 1 < s.input.length; omega)
  simp only [readMagic, h0, h1, Read.andThen]
  rfl

/-- The first two bytes are `DD 99` exactly when they are the magic as a number (R72). -/
theorem magic_iff {s : State} (h : 2 ≤ s.input.length) :
    s.input.take 2 = [0xDD, 0x99] ↔ (byteAt s 0 ++ byteAt s 1).toNat = 0xDD99 := by
  obtain ⟨b0, b1, rest, hin⟩ : ∃ b0 b1 rest, s.input = b0 :: b1 :: rest :=
    match s.input, h with
    | b0 :: b1 :: rest, _ => ⟨b0, b1, rest, rfl⟩
  have hb : (b0 ++ b1).toNat = b0.toNat * 2 ^ 8 + b1.toNat := toNat_append_eq b0 b1
  have hb0 := b0.isLt
  have hb1 := b1.isLt
  simp only [byteAt, hin, List.take_succ_cons, List.take_zero, List.getD_cons_zero, List.getD_cons_succ, List.cons.injEq,
    and_true, hb]
  constructor
  · rintro ⟨rfl, rfl⟩
    rfl
  · intro heq
    have h0 : b0.toNat = 0xDD := by omega
    have h1 : b1.toNat = 0x99 := by omega
    exact ⟨BitVec.eq_of_toNat_eq h0, BitVec.eq_of_toNat_eq h1⟩

/-! ### One field -/

/-- A step that reads the encoding of a token runs it. -/
theorem step_token {p : Point} {i : Instr} {s u : State} (h : At p s) (hp : p.slot = some i.slot)
    (hr : readToken i.slot s = .got (encode i) u) (hwf : i.wellFormed = true) : step s = exec i u := by
  rw [step_engine h.1, engineEvent_token (h.2 ▸ hp) hr (decode_encode hwf)]
  rfl

/-- The state of the parse at position `p`, with `n` bytes consumed and the registers `h`. -/
def parsed (s : State) (p : Point) (n : Nat) (h : HdrRegs) : State := State.goto p { s with pos := n, hdr := h }

theorem step_magic {s : State} (h : At .magic s) (hpos : s.pos = 0) (hlen : 2 ≤ s.input.length)
    (hmagic : s.input.take 2 = [0xDD, 0x99]) : step s = .next (parsed s .nx 2 s.hdr) := by
  have hread := readMagic_at hpos hlen
  rw [(magic_iff hlen).mp hmagic] at hread
  exact (step_token (i := .hdrMagic) h rfl hread rfl).trans (inSlot_at h.2 rfl)

theorem step_badMagic {s : State} (h : At .magic s) (hpos : s.pos = 0) (hlen : 2 ≤ s.input.length)
    (hmagic : s.input.take 2 ≠ [0xDD, 0x99]) : step s = .next (raise .badMagicNumber { s with pos := 2 }) := by
  have hslot : s.point.slot = some .magic := h.2 ▸ rfl
  have hread : readToken .magic s = _ := readMagic_at hpos hlen
  have hdecode : decode .magic 16 (byteAt s 0 ++ byteAt s 1).toNat = .error .badMagic := by
    simp only [decode, if_true, if_neg (mt (magic_iff hlen).mpr hmagic)]
  rw [step_engine h.1]
  simp only [engineEvent, hslot, fetchToken, hread, hdecode, Event.run]

section Fields

variable {s : State} {n : Nat} (hplan : s.plan = []) (h : HdrRegs)
include hplan

/-- A field of four bytes is read, and its token runs. -/
theorem step_word {p : Point} {i : Instr} (hp : p.slot = some i.slot) (hread : readToken i.slot = readInt32)
    (hword : encode i = (32, (wordAt s n).toNat)) (hwf : i.wellFormed = true) (hlen : n + 4 ≤ s.input.length) :
    step (parsed s p n h) = exec i (parsed s p (n + 4) h) := by
  refine step_token (p := p) ⟨hplan, rfl⟩ hp ?_ hwf
  rw [hread, hword]
  exact readInt32_at (s := parsed s p n h) rfl hlen

/-- A field of one byte is read, and its token runs. -/
theorem step_count {p : Point} {i : Instr} (hp : p.slot = some i.slot) (hread : readToken i.slot = readCount)
    (hcount : encode i = (8, (byteAt s n).toNat)) (hwf : i.wellFormed = true) (hlen : n + 1 ≤ s.input.length) :
    step (parsed s p n h) = exec i (parsed s p (n + 1) h) := by
  refine step_token (p := p) ⟨hplan, rfl⟩ hp ?_ hwf
  rw [hread, hcount]
  exact readCount_at (s := parsed s p n h) rfl hlen

theorem step_nx (hlen : n + 4 ≤ s.input.length) :
    step (parsed s .nx n h) = .next (parsed s .ny (n + 4) { h with nx := wordAt s n }) :=
  step_word hplan h (i := .hdrNx (wordAt s n)) rfl rfl rfl rfl hlen

theorem step_ny (hlen : n + 4 ≤ s.input.length) :
    step (parsed s .ny n h) = .next (parsed s .scale (n + 4) { h with ny := wordAt s n }) :=
  step_word hplan h (i := .hdrNy (wordAt s n)) rfl rfl rfl rfl hlen

theorem step_scale (hlen : n + 4 ≤ s.input.length) :
    step (parsed s .scale n h) = .next (parsed s .sumall (n + 4) { h with scale := wordAt s n }) :=
  step_word hplan h (i := .hdrScale (wordAt s n)) rfl rfl rfl rfl hlen

theorem step_sumall (hlen : n + 4 ≤ s.input.length) :
    step (parsed s .sumall n h) = .next (parsed s .nbp0 (n + 4) { h with sumall := wordAt s n }) :=
  step_word hplan h (i := .hdrSumall (wordAt s n)) rfl rfl rfl rfl hlen

theorem step_nbp0 (hlen : n + 1 ≤ s.input.length) :
    step (parsed s .nbp0 n h) = .next (parsed s .nbp1 (n + 1) { h with nbp0 := byteAt s n }) :=
  step_count hplan h (i := .hdrNbp0 (byteAt s n)) rfl rfl rfl rfl hlen

theorem step_nbp1 (hlen : n + 1 ≤ s.input.length) :
    step (parsed s .nbp1 n h) = .next (parsed s .nbp2 (n + 1) { h with nbp1 := byteAt s n }) :=
  step_count hplan h (i := .hdrNbp1 (byteAt s n)) rfl rfl rfl rfl hlen

theorem step_nbp2 (hlen : n + 1 ≤ s.input.length) :
    step (parsed s .nbp2 n h) =
      .next (State.goto .admitHdr (captureHeader (parsed s .nbp2 (n + 1) { h with nbp2 := byteAt s n }))) :=
  step_count hplan h (i := .hdrNbp2 (byteAt s n)) rfl rfl rfl rfl hlen

end Fields

/-! ### All of them -/

theorem runSteps_succ {s t : State} (h : step s = .next t) (n : Nat) : runSteps (n + 1) s = runSteps n t := by
  rw [runSteps, h]

/-- The registers that hold the header at the front of the input (R71). -/
def headerAt (s : State) : HdrRegs :=
  { nx := wordAt s 2, ny := wordAt s 6, scale := wordAt s 10, sumall := wordAt s 14
    nbp0 := byteAt s 18, nbp1 := byteAt s 19, nbp2 := byteAt s 20 }

theorem runSteps_header {s : State} (h : At .magic s) (hpos : s.pos = 0) (hlen : 21 ≤ s.input.length)
    (hmagic : s.input.take 2 = [0xDD, 0x99]) :
    runSteps 8 s = .next (State.goto .admitHdr (captureHeader (parsed s .nbp2 21 (headerAt s)))) := by
  rw [runSteps_succ (step_magic h hpos (by omega) hmagic), runSteps_succ (step_nx h.1 _ (by omega)),
    runSteps_succ (step_ny h.1 _ (by omega)), runSteps_succ (step_scale h.1 _ (by omega)),
    runSteps_succ (step_sumall h.1 _ (by omega)), runSteps_succ (step_nbp0 h.1 _ (by omega)),
    runSteps_succ (step_nbp1 h.1 _ (by omega)), runSteps_succ (step_nbp2 h.1 _ (by omega))]
  rfl

/-! ### An input that ends early -/

/-- From `t` the run of `m` steps over the input of `s` ends in `StreamExhausted` at the input's end, before the header is
captured (R34, R231). -/
def EndsShort (s : State) (m : Nat) (t : State) : Prop :=
  ∃ u, runSteps m t = .next u ∧ u.status.state = .error ∧ u.status.errKind = .streamExhausted ∧
    u.status.errStage = .header ∧ u.status.errPos = s.input.length ∧ u.status.hdrValid = s.status.hdrValid

/-- In `t` the parse of the header of `s` stands at `p`, with `n` bytes consumed and nothing captured. -/
structure ParsingAt (s : State) (p : Point) (n : Nat) (t : State) : Prop where
  stands : At p t
  input : t.input = s.input
  pos : t.pos = n
  stage : t.stage = .header
  uncaptured : t.status.hdrValid = s.status.hdrValid

theorem parsingAt_parsed {s : State} (hplan : s.plan = []) (hstage : s.stage = .header) (p : Point) (n : Nat) (h : HdrRegs) :
    ParsingAt s p n (parsed s p n h) :=
  ⟨⟨hplan, rfl⟩, rfl, rfl, hstage, rfl⟩

theorem runSteps_raised {s : State} (hplan : s.plan = []) (k : ErrKind) (m : Nat) :
    runSteps m (raise k s) = .next (raise k s) := by
  induction m with
  | zero => rfl
  | succ m ih =>
    have hwait : step (raise k s) = .next (raise k s) := step_at ⟨hplan, rfl⟩ rfl
    rw [runSteps_succ hwait, ih]

/-- A field whose bytes are not all there ends the session. -/
theorem ParsingAt.endsShort {s t : State} {p : Point} {k : Slot} {n w : Nat} (h : ParsingAt s p n t)
    (hk : p.slot = some k) (hw : fieldBytes k = some w) (hn : n ≤ s.input.length) (hshort : s.input.length < n + w)
    (m : Nat) : EndsShort s (m + 1) t := by
  obtain ⟨hat, hinput, rfl, hstage, hvalid⟩ := h
  have hslot : t.point.slot = some k := hat.2 ▸ hk
  have hmoves := readToken_moves k t
  have hbytes := readToken_header hw t
  cases hr : readToken k t with
  | got a u =>
    rw [hr] at hmoves hbytes
    have hinside : u.pos ≤ t.input.length := hmoves.inside (hinput ▸ hn)
    have hpos : u.pos = t.pos + w := hbytes.1
    rw [hinput] at hinside
    omega
  | exhausted u =>
    obtain ⟨hfetch, hmoved, hend⟩ := fetchToken_exhausted hr
    have hinside : u.pos ≤ t.input.length := hmoved.inside (hinput ▸ hn)
    have hplan : u.plan = [] := by rw [hmoved.same]; exact hat.1
    have hraise : step t = .next (raise .streamExhausted u) := by
      rw [step_engine hat.1]
      simp only [engineEvent, hslot, hfetch, Event.run]
    refine ⟨_, (runSteps_succ hraise m).trans (runSteps_raised hplan _ m), rfl, rfl, ?_, ?_, ?_⟩
    · show u.stage = .header
      rw [hmoved.same, hstage]
    · show u.pos = s.input.length
      rw [← hinput]
      omega
    · show u.status.hdrValid = s.status.hdrValid
      rw [hmoved.same, hvalid]

/-- A field ends the session, or the parse goes on after it. -/
theorem ParsingAt.endsShort_of_next {s t : State} {p : Point} {k : Slot} {n w m : Nat} (h : ParsingAt s p n t)
    (hk : p.slot = some k) (hw : fieldBytes k = some w) (hn : n ≤ s.input.length)
    (hnext : n + w ≤ s.input.length → ∃ u, step t = .next u ∧ EndsShort s m u) : EndsShort s (m + 1) t := by
  rcases Nat.lt_or_ge s.input.length (n + w) with hshort | hfits
  · exact h.endsShort hk hw hn hshort m
  · obtain ⟨u, hu, v, hv, hends⟩ := hnext hfits
    exact ⟨v, (runSteps_succ hu m).trans hv, hends⟩

/-- A header of fewer than 21 bytes ends in one of its fields. -/
theorem header_endsShort {s : State} (h : At .magic s) (hpos : s.pos = 0) (hstage : s.stage = .header)
    (hlen : s.input.length < 21) (hmagic : s.input.length < 2 ∨ s.input.take 2 = [0xDD, 0x99]) : EndsShort s 8 s := by
  have hat := parsingAt_parsed h.1 hstage
  have nbp2 (r : HdrRegs) (hn : 20 ≤ s.input.length) : EndsShort s 1 (parsed s .nbp2 20 r) :=
    (hat .nbp2 20 r).endsShort rfl rfl hn hlen 0
  have nbp1 (r : HdrRegs) (hn : 19 ≤ s.input.length) : EndsShort s 2 (parsed s .nbp1 19 r) :=
    (hat .nbp1 19 r).endsShort_of_next rfl rfl hn fun hfits => ⟨_, step_nbp1 h.1 r hfits, nbp2 _ hfits⟩
  have nbp0 (r : HdrRegs) (hn : 18 ≤ s.input.length) : EndsShort s 3 (parsed s .nbp0 18 r) :=
    (hat .nbp0 18 r).endsShort_of_next rfl rfl hn fun hfits => ⟨_, step_nbp0 h.1 r hfits, nbp1 _ hfits⟩
  have sumall (r : HdrRegs) (hn : 14 ≤ s.input.length) : EndsShort s 4 (parsed s .sumall 14 r) :=
    (hat .sumall 14 r).endsShort_of_next rfl rfl hn fun hfits => ⟨_, step_sumall h.1 r hfits, nbp0 _ hfits⟩
  have scale (r : HdrRegs) (hn : 10 ≤ s.input.length) : EndsShort s 5 (parsed s .scale 10 r) :=
    (hat .scale 10 r).endsShort_of_next rfl rfl hn fun hfits => ⟨_, step_scale h.1 r hfits, sumall _ hfits⟩
  have ny (r : HdrRegs) (hn : 6 ≤ s.input.length) : EndsShort s 6 (parsed s .ny 6 r) :=
    (hat .ny 6 r).endsShort_of_next rfl rfl hn fun hfits => ⟨_, step_ny h.1 r hfits, scale _ hfits⟩
  have nx (r : HdrRegs) (hn : 2 ≤ s.input.length) : EndsShort s 7 (parsed s .nx 2 r) :=
    (hat .nx 2 r).endsShort_of_next rfl rfl hn fun hfits => ⟨_, step_nx h.1 r hfits, ny _ hfits⟩
  have magic : ParsingAt s .magic 0 s := ⟨h, rfl, hpos, hstage, rfl⟩
  exact magic.endsShort_of_next rfl rfl (Nat.zero_le _) fun hfits =>
    ⟨_, step_magic h hpos hfits (hmagic.resolve_left (Nat.not_lt.mpr hfits)), nx _ hfits⟩

end Sys2Proof.Machine

namespace Sys2Proof.Proofs

open Sys2Proof.Machine Sys2Proof.Safety

/-- Settles O14: eight fields follow one another where their bytes are there, and the first that lacks one ends the session. -/
theorem readHeader : Obligations.ReadHeader := by
  intro s hs hpos hbtg hstage
  refine ⟨fun hlen hmagic => ?_, fun hlen hmagic => ?_, fun hlen hmagic => header_endsShort hs hpos hstage hlen hmagic⟩
  · exact ⟨_, runSteps_header hs hpos hlen hmagic, rfl, rfl, hbtg, sameMemory_of_eq rfl rfl rfl rfl,
      rfl, rfl, rfl, rfl, rfl, rfl, rfl, rfl, rfl, rfl, rfl, rfl, rfl, rfl, rfl⟩
  · exact ⟨_, step_badMagic hs hpos hlen hmagic, rfl, rfl, hstage, rfl⟩

end Sys2Proof.Proofs
end

section
/-! SUPPORT. Admission and the cleared grid (R131, R132). -/

namespace Sys2Proof.Machine

open Sys2Proof.Safety

/-- The dimensions a header may have (R131), as the spec compares them: as `i32`. -/
def GeometryOk (h : HdrRegs) : Prop :=
  1 ≤ h.nx.toInt ∧ 1 ≤ h.ny.toInt ∧ 2 ≤ max h.nx.toInt h.ny.toInt ∧ max h.nx.toInt h.ny.toInt ≤ 2 ^ 29

theorem geometryOk_iff (h : HdrRegs) :
    GeometryOk h ↔ ¬(h.nx.toInt < 1 ∨ h.ny.toInt < 1 ∨ h.maxDim < 2 ∨ Config.maxDim < h.maxDim) := by
  unfold GeometryOk HdrRegs.maxDim HdrRegs.rows HdrRegs.cols Config.maxDim
  omega

/-- The grid's size is the product of the two `i32` dimensions. -/
theorem rows_mul_cols {h : HdrRegs} (hg : GeometryOk h) : ((h.rows * h.cols : Nat) : Int) = h.nx.toInt * h.ny.toInt := by
  obtain ⟨hx, hy, -⟩ := hg
  rw [Nat.cast_mul, HdrRegs.rows, HdrRegs.cols, Int.toNat_of_nonneg (by omega), Int.toNat_of_nonneg (by omega)]

theorem admission_badGeometry {cfg : Config.Params} {h : HdrRegs} (hg : ¬GeometryOk h) :
    admission cfg h = some .badGeometry :=
  if_pos (not_not.mp (mt (geometryOk_iff h).mpr hg))

/-- The checks that follow the one of the geometry. -/
theorem admission_eq {cfg : Config.Params} {h : HdrRegs} (hg : GeometryOk h) :
    admission cfg h =
      if (cfg.gridCapacity : Int) < h.nx.toInt * h.ny.toInt then some .gridTooLarge
      else if 32 < h.nbp0.toNat ∨ 32 < h.nbp1.toNat ∨ 32 < h.nbp2.toNat then some .bitplaneCountTooLarge
      else none := by
  rw [← rows_mul_cols hg]
  rw [admission, if_neg ((geometryOk_iff h).mp hg)]
  simp only [Nat.cast_lt]
  rfl

theorem step_admitHdr {s : State} (h : At .admitHdr s) (hw : s.written.hdr = true) : step s =
    match admission s.cfg s.hdr with
    | some r => .next (refuse r s)
    | none => .next (State.goto .clear { s with A := Bank.alloc (s.hdr.rows * s.hdr.cols) }) := by
  rw [step_at h rfl, engineOp, h.2]
  exact needs_true hw

theorem step_refuses {s : State} {r : RefuseReason} (h : At .admitHdr s) (hw : s.written.hdr = true)
    (ha : admission s.cfg s.hdr = some r) : step s = .next (refuse r s) := by
  rw [step_admitHdr h hw, ha]

theorem step_admits {s : State} (h : At .admitHdr s) (hw : s.written.hdr = true) (ha : admission s.cfg s.hdr = none) :
    step s = .next (State.goto .clear { s with A := Bank.alloc (s.hdr.rows * s.hdr.cols) }) := by
  rw [step_admitHdr h hw, ha]

theorem step_clear {s : State} (h : At .clear s) :
    step s = .next (State.goto .align1 { s with A := Bank.alloc s.A.size }) := by
  rw [step_at h rfl, engineOp, h.2]
  rfl

end Sys2Proof.Machine

namespace Sys2Proof.Proofs

open Sys2Proof.Machine Sys2Proof.Safety

/-- Settles O15: the first check that fails gives the refusal, and the clearing leaves a grid with nothing listed. -/
theorem admitAndClear : Obligations.AdmitAndClear := by
  refine ⟨fun s hs hw => ⟨fun hbad => step_refuses hs hw (admission_badGeometry hbad), fun hok => ?_⟩, fun s hs => ?_⟩
  · have hchecks := admission_eq (cfg := s.cfg) (h := s.hdr) hok
    refine ⟨fun hlarge => step_refuses hs hw (hchecks.trans (if_pos hlarge)),
      fun hfits => ⟨fun hcount => ?_, fun hcount => ?_⟩⟩
    · rw [if_neg hfits.not_gt, if_pos hcount] at hchecks
      exact step_refuses hs hw hchecks
    · rw [if_neg hfits.not_gt, if_neg (by omega)] at hchecks
      exact ⟨_, step_admits hs hw hchecks, rows_mul_cols hok, rfl, ⟨rfl, rfl, rfl, rfl⟩, rfl, rfl⟩
  · exact ⟨_, step_clear hs, rfl, fun i hi => readGrid_ok hi, ⟨rfl, rfl, rfl, rfl⟩, rfl⟩

end Sys2Proof.Proofs
end

section
/-! SUPPORT. The levels of the quadtree: the closed form of their extents (R139), and what the copy of a level writes (R140). -/

namespace Sys2Proof.Machine

open Sys2Proof.Safety

/-! ### The extents -/

theorem stepExtent_fst (c e f : Nat) : (stepExtent c e f).1 = if f ≤ c then 2 * e - 1 else 2 * e := by
  unfold stepExtent
  split <;> rfl

theorem stepExtent_snd (c e f : Nat) : (stepExtent c e f).2 = if f ≤ c then f else f - c := by
  unfold stepExtent
  split <;> rfl

/-- The loop registers `r` hold the extents of an `nx × ny` quadrant with `d` halvings to go (R139). -/
def ExtentsAt (nx ny d : Nat) (r : QtRegs) : Prop := ExtentAt nx d r.c r.ex r.fx ∧ ExtentAt ny d r.c r.ey r.fy

theorem extentsAt_nextExtent {nx ny d : Nat} {r : QtRegs} (hx : 0 < nx) (hy : 0 < ny) (h : ExtentsAt nx ny (d + 1) r) :
    ExtentsAt nx ny d (nextExtent r) :=
  ⟨extentAt_step hx h.1, extentAt_step hy h.2⟩

/-- Each step of the recurrence takes one halving. -/
theorem extentsAt_iterate {nx ny d : Nat} {r : QtRegs} (hx : 0 < nx) (hy : 0 < ny) (k : Nat)
    (h : ExtentsAt nx ny (d + k) r) : ExtentsAt nx ny d (nextExtent^[k] r) := by
  induction k generalizing r with
  | zero => exact h
  | succ k ih => exact ih (extentsAt_nextExtent hx hy h)

/-- The loop registers at level `k` of a quadrant (R138, R139). -/
def levelRegs (r : QtRegs) (k : Nat) : QtRegs :=
  nextExtent^[k] { r with ex := 1, ey := 1, fx := r.nqx, fy := r.nqy, c := 2 ^ ceilLog2 (max r.nqx r.nqy) }

/-- At level `k` there are `L - k` halvings to go. -/
theorem extentsAt_levelRegs {r : QtRegs} (hx : 0 < r.nqx) (hy : 0 < r.nqy) {d k : Nat}
    (hdk : d + k = ceilLog2 (max r.nqx r.nqy)) : ExtentsAt r.nqx r.nqy d (levelRegs r k) := by
  have hcover := le_two_pow_ceilLog2 (max r.nqx r.nqy)
  refine extentsAt_iterate hx hy k ?_
  rw [hdk]
  exact ⟨extentAt_init hx ((le_max_left _ _).trans hcover), extentAt_init hy ((le_max_right _ _).trans hcover)⟩

/-- A level's extent is the ceiling-half of the next finer one. -/
theorem ExtentsAt.halves {nx ny d : Nat} {r r' : QtRegs} (h : ExtentsAt nx ny (d + 1) r) (h' : ExtentsAt nx ny d r') :
    r.ex = ceilDiv r'.ex 2 ∧ r.ey = ceilDiv r'.ey 2 :=
  ⟨(extentAt_halve h'.1 h.1).symm, (extentAt_halve h'.2 h.2).symm⟩

/-! ### The copy -/

/-- The old entry that covers entry `x` of a new extent with `ey` columns. -/
def coveringEntry (ey x : Nat) : Nat := x / ey / 2 * ceilDiv ey 2 + x % ey / 2

theorem coveringEntry_lt {ex ey x : Nat} (hx : x < ex * ey) : coveringEntry ey x < ceilDiv ex 2 * ceilDiv ey 2 := by
  have hey : 0 < ey := Nat.pos_of_ne_zero (by rintro rfl; simp at hx)
  have hrow : x / ey < ex := (Nat.div_lt_iff_lt_mul hey).mpr hx
  have hcol : x % ey < ey := Nat.mod_lt _ hey
  exact mul_add_lt (by rw [ceilDiv_two]; omega) (by rw [ceilDiv_two]; omega)

/-- The row and the column of an entry of an extent with `ey` columns. -/
theorem row_col_of_entry {i j ey : Nat} (hj : j < ey) : (i * ey + j) / ey = i ∧ (i * ey + j) % ey = j := by
  have hey : 0 < ey := Nat.zero_lt_of_lt hj
  rw [Nat.mul_comm]
  exact ⟨by rw [Nat.mul_add_div hey, Nat.div_eq_of_lt hj, Nat.add_zero], by rw [Nat.mul_add_mod, Nat.mod_eq_of_lt hj]⟩

/-- The entries below `m` of `b` are copied from `old`, the others are those of `old`. -/
structure CopiedBelow (old : Bank 4) (ey m : Nat) (b : Bank 4) : Prop where
  size : b.size = old.size
  copied : ∀ x v, x < m → old.readScratch (coveringEntry ey x) = .ok v →
    b.readScratch x = .ok (if nibbleBit v (x / ey) (x % ey) then 1 else 0)
  others : ∀ x, m ≤ x → b.readScratch x = old.readScratch x

theorem copiedBelow_refl (old : Bank 4) (ey : Nat) : CopiedBelow old ey 0 old :=
  ⟨rfl, fun _ _ hx => absurd hx (Nat.not_lt_zero _), fun _ _ => rfl⟩

/-- A round reads the scratch as it was on entry and writes its own entry. -/
theorem CopiedBelow.copyEntry {old b : Bank 4} {ey m : Nat} {v : Nibble} (h : CopiedBelow old ey m b)
    (hm : m < old.size) (hv : old.readScratch (coveringEntry ey m) = .ok v) :
    ∃ c, copyEntry old ey m b = .ok c ∧ CopiedBelow old ey (m + 1) c := by
  have hmb : m < b.size := h.size ▸ hm
  refine ⟨b.putEntry m (if nibbleBit v (m / ey) (m % ey) then 1 else 0), ?_, h.size, fun x u hx hu => ?_, fun x hx => ?_⟩
  · rw [coveringEntry] at hv
    rw [Machine.copyEntry, hv]
    exact writeScratch_ok hmb
  · rcases Nat.lt_succ_iff_lt_or_eq.mp hx with hlt | rfl
    · rw [readScratch_putEntry_other hlt.ne]
      exact h.copied x u hlt hu
    · rw [hv] at hu
      cases hu
      exact readScratch_putEntry_same hmb _
  · rw [readScratch_putEntry_other (by omega)]
    exact h.others x (by omega)

theorem qtreeCopy_copies {ex ey : Nat} {old : Bank 4} (hnew : ex * ey ≤ old.size)
    (hw : WrittenBelow old (ceilDiv ex 2 * ceilDiv ey 2)) (hold : ceilDiv ex 2 * ceilDiv ey 2 ≤ old.size) :
    ∃ b, qtreeCopy ex ey old = .ok b ∧ CopiedBelow old ey (ex * ey) b :=
  forEach_range_ok (P := CopiedBelow old ey) (ex * ey)
    (fun x hx b hb => by
      have hlt := coveringEntry_lt hx
      obtain ⟨v, hv, -⟩ := readScratch_ok (lt_of_lt_of_le hlt hold) (hw _ hlt)
      exact hb.copyEntry (lt_of_lt_of_le hx hnew) hv)
    (copiedBelow_refl old ey)

end Sys2Proof.Machine

namespace Sys2Proof.Proofs

open Sys2Proof.Machine Sys2Proof.Safety

/-- Settles O24: at level `k` there are `L - k` halvings to go, so the extent is `n` divided by as many twos, rounded up. -/
theorem nextExtent : Obligations.NextExtent := by
  refine ⟨fun r => ⟨rfl, stepExtent_fst .., stepExtent_snd .., stepExtent_fst .., stepExtent_snd ..⟩, fun r hx hy => ?_⟩
  refine ⟨fun k hk => ?_, fun k hk => ?_, fun hL => ?_⟩
  · obtain ⟨⟨-, hex, -⟩, -, hey, -⟩ := extentsAt_levelRegs hx hy (Nat.sub_add_cancel hk)
    exact ⟨hex, hey⟩
  · exact (extentsAt_levelRegs hx hy (d := _ + 1) (by omega)).halves
      (extentsAt_levelRegs hx hy (k := k + 1) (Nat.sub_add_cancel hk))
  · obtain ⟨⟨-, hex, -⟩, -, hey, -⟩ := extentsAt_levelRegs hx hy (Nat.add_sub_cancel' hL)
    exact ⟨hex, hey⟩

/-- Settles O25: the rounds copy the entries one by one, each from the scratch as it was on entry. -/
theorem qtreeCopy : Obligations.QtreeCopy := by
  intro ex ey old hnew hw hold
  obtain ⟨b, hb, hcopied⟩ := qtreeCopy_copies hnew hw hold
  refine ⟨b, hb, hcopied.size, fun i j v hi hj hv => ?_, hcopied.others⟩
  obtain ⟨hrow, hcol⟩ := row_col_of_entry (i := i) hj
  have hread := hcopied.copied (i * ey + j) v (mul_add_lt hi hj) (by rw [coveringEntry, hrow, hcol]; exact hv)
  rwa [hrow, hcol] at hread

end Sys2Proof.Proofs
end

section
/-! SUPPORT. The loop over the levels of the quadtree and the scan of one level (R138, R141). -/

namespace Sys2Proof.Machine

open Sys2Proof.Safety

theorem step_level {s : State} (h : At .level s) : step s = nextLevel s := by
  rw [step_at h rfl, engineOp, h.2]

theorem step_expand {s : State} (h : At .expand s) : step s = scanLevel s := by
  rw [step_at h rfl, engineOp, h.2]

theorem nextLevel_copies {s : State} (hw : s.written.qt = true) (hk : s.qt.k < s.qt.L) {b : Bank 4}
    (hb : qtreeCopy (nextExtent s.qt).ex (nextExtent s.qt).ey s.S = .ok b) :
    nextLevel s = .next (State.goto .expand
      { s with qt := { nextExtent s.qt with t := (nextExtent s.qt).ex * (nextExtent s.qt).ey }, S := b }) := by
  refine (needs_true hw).trans ?_
  simp only [hk, if_true, hb]

theorem nextLevel_ends {s : State} (hw : s.written.qt = true) (hk : s.qt.L ≤ s.qt.k) :
    nextLevel s = .next (s.goto .bitins) :=
  (needs_true hw).trans (if_neg hk.not_gt)

theorem scanLevel_ends {s : State} (hw : s.written.qt = true) (ht : s.qt.t = 0) :
    scanLevel s = .next (State.goto .level { s with qt := { s.qt with k := s.qt.k + 1 } }) :=
  (needs_true hw).trans (if_pos ht)

theorem scanLevel_entry {s : State} (hw : s.written.qt = true) (ht : 0 < s.qt.t) {v : Nibble}
    (hv : s.S.readScratch (s.qt.t - 1) = .ok v) :
    scanLevel s =
      if v = 0 then .next { s with qt := { s.qt with t := s.qt.t - 1 } }
      else .next (State.goto .huf { s with qt := { s.qt with t := s.qt.t - 1 } }) := by
  refine (needs_true hw).trans ?_
  simp only [ht.ne', if_false, hv]

end Sys2Proof.Machine

namespace Sys2Proof.Proofs

open Sys2Proof.Machine Sys2Proof.Safety

/-- Settles O26, from the steps of the loop head and of the scan. -/
theorem levelLoop : Obligations.LevelLoop := by
  refine ⟨fun s hs hw => ⟨fun hk => ?_, fun hk b hb => ?_⟩, fun s hs hw => ⟨fun ht => ?_, fun v ht hv => ?_⟩⟩
  · exact ⟨_, (step_level hs).trans (nextLevel_ends hw hk), rfl, sameMemory_of_eq rfl rfl rfl rfl, ⟨rfl, rfl, rfl, rfl⟩⟩
  · exact ⟨_, (step_level hs).trans (nextLevel_copies hw hk hb), rfl, rfl, rfl, rfl, rfl, rfl,
      ⟨rfl, fun _ => rfl⟩, ⟨rfl, rfl, rfl, rfl⟩⟩
  · exact ⟨_, (step_expand hs).trans (scanLevel_ends hw ht), rfl, rfl,
      sameMemory_of_eq rfl rfl rfl rfl, ⟨rfl, rfl, rfl, rfl⟩⟩
  · rw [step_expand hs, scanLevel_entry hw ht hv]
    by_cases hz : v = 0
    · rw [if_pos hz, if_pos hz]
      exact ⟨_, rfl, rfl, hs.2, sameMemory_of_eq rfl rfl rfl rfl, ⟨rfl, rfl, rfl, rfl⟩⟩
    · rw [if_neg hz, if_neg hz]
      exact ⟨_, rfl, rfl, rfl, sameMemory_of_eq rfl rfl rfl rfl, ⟨rfl, rfl, rfl, rfl⟩⟩

end Sys2Proof.Proofs
end

section
/-! SUPPORT. The insertion of a bitplane (R142): each round ORs one bit into its own entry of the grid. -/

namespace Sys2Proof.Machine

open Sys2Proof.Safety

/-- Where element `(i, j)` of the quadrant stands in the grid (R12, R58). -/
def QtRegs.gridIndex (r : QtRegs) (i j : Nat) : Nat := r.off + i * r.n + j

/-- The scratch entry that holds the bit of element `(i, j)` (R142). -/
def QtRegs.nibbleIndex (r : QtRegs) (i j : Nat) : Nat := i / 2 * r.my + j / 2

/-- The bit of element `(i, j)` at its position in the bitplane. -/
def QtRegs.planeBit (r : QtRegs) (v : Nibble) (i j : Nat) : Word :=
  if nibbleBit v i j then BitVec.ofNat 32 (2 ^ r.bit) else 0

theorem planeBit_eq_shift (r : QtRegs) (v : Nibble) (i j : Nat) :
    (BitVec.ofBool (nibbleBit v i j)).setWidth 32 <<< r.bit = r.planeBit v i j := by
  unfold QtRegs.planeBit
  cases nibbleBit v i j
  · simp
  · exact BitVec.eq_of_toNat_eq (by simp [Nat.shiftLeft_eq])

theorem gridIndex_inj {r : QtRegs} (hn : r.nqy ≤ r.n) {i j i' j' : Nat} (hj : j < r.nqy) (hj' : j' < r.nqy)
    (h : r.gridIndex i j = r.gridIndex i' j') : i = i' ∧ j = j' := by
  unfold QtRegs.gridIndex at h
  exact row_col_unique (hj.trans_le hn) (hj'.trans_le hn) (by omega)

/-- The elements the insertion comes to before `(i, j)`, row by row. -/
def QtRegs.Before (r : QtRegs) (i j i' j' : Nat) : Prop := j' < r.nqy ∧ (i' < i ∨ i' = i ∧ j' < j)

/-- In `c` the bits of the elements before `(i, j)` are inserted into `a`, and nothing else is written. -/
structure InsertedBefore (r : QtRegs) (b : Bank 4) (a : Bank 32) (i j : Nat) (c : Bank 32) : Prop where
  size : c.size = a.size
  inserted : ∀ i' j' v, r.Before i j i' j' → b.readScratch (r.nibbleIndex i' j') = .ok v →
    c.entry (r.gridIndex i' j') = a.entry (r.gridIndex i' j') ||| r.planeBit v i' j'
  others : ∀ x, (∀ i' j', r.Before i j i' j' → x ≠ r.gridIndex i' j') → c.entry x = a.entry x

theorem insertedBefore_refl (r : QtRegs) (b : Bank 4) (a : Bank 32) : InsertedBefore r b a 0 0 a where
  size := rfl
  inserted i' j' _ h := by unfold QtRegs.Before at h; omega
  others _ _ := rfl

/-- The end of a row is the beginning of the next. -/
theorem InsertedBefore.next_row {r : QtRegs} {b : Bank 4} {a c : Bank 32} {i : Nat}
    (h : InsertedBefore r b a i r.nqy c) : InsertedBefore r b a (i + 1) 0 c := by
  have hbefore : ∀ i' j', r.Before (i + 1) 0 i' j' ↔ r.Before i r.nqy i' j' := by
    intro i' j'
    unfold QtRegs.Before
    omega
  exact ⟨h.size, fun i' j' v hb => h.inserted i' j' v ((hbefore i' j').mp hb),
    fun x hx => h.others x fun i' j' hb => hx i' j' ((hbefore i' j').mpr hb)⟩

/-- A round inserts the bit of its element. -/
theorem InsertedBefore.insertBit {r : QtRegs} {b : Bank 4} {a c : Bank 32} {i j : Nat} {v : Nibble}
    (h : InsertedBefore r b a i j c) (hn : r.nqy ≤ r.n) (hj : j < r.nqy) (hi : r.gridIndex i j < a.size)
    (hv : b.readScratch (r.nibbleIndex i j) = .ok v) :
    ∃ d, insertBit r b i j c = .ok d ∧ InsertedBefore r b a i (j + 1) d := by
  have hic : r.gridIndex i j < c.size := h.size ▸ hi
  have hfresh : ∀ i' j', r.Before i j i' j' → r.gridIndex i j ≠ r.gridIndex i' j' := by
    rintro i' j' ⟨hj', hlt⟩ heq
    obtain ⟨rfl, rfl⟩ := gridIndex_inj hn hj hj' heq
    omega
  have hnext : ∀ i' j', r.Before i (j + 1) i' j' → r.Before i j i' j' ∨ i' = i ∧ j' = j := by
    unfold QtRegs.Before
    omega
  have hold : c.entry (r.gridIndex i j) = a.entry (r.gridIndex i j) := h.others _ hfresh
  refine ⟨c.setEntry (r.gridIndex i j) (c.entry (r.gridIndex i j) ||| r.planeBit v i j), ?_, h.size,
    fun i' j' u hb hu => ?_, fun x hx => ?_⟩
  · unfold QtRegs.nibbleIndex at hv
    unfold QtRegs.gridIndex at hic ⊢
    simp only [Machine.insertBit, hv, readGrid_ok hic, planeBit_eq_shift]
    exact writeGrid_ok hic
  · rcases hnext i' j' hb with hb | ⟨rfl, rfl⟩
    · rw [entry_setEntry_other (hfresh i' j' hb)]
      exact h.inserted i' j' u hb hu
    · rw [hv] at hu
      cases hu
      rw [entry_setEntry_same, hold]
  · rw [entry_setEntry_other (hx i j ⟨hj, .inr ⟨rfl, Nat.lt_succ_self j⟩⟩).symm]
    exact h.others x fun i' j' ⟨hj', hlt⟩ => hx i' j' ⟨hj', by omega⟩

theorem qtreeBitins_inserts {r : QtRegs} {b : Bank 4} {a : Bank 32} (hn : r.nqy ≤ r.n)
    (hin : ∀ i j, i < r.nqx → j < r.nqy →
      r.gridIndex i j < a.size ∧ ∃ v, b.readScratch (r.nibbleIndex i j) = .ok v) :
    ∃ c, qtreeBitins r b a = .ok c ∧ InsertedBefore r b a r.nqx 0 c :=
  forEach_range_ok (P := fun i => InsertedBefore r b a i 0) r.nqx
    (fun i hi c hc => by
      obtain ⟨d, hd, hrow⟩ := forEach_range_ok (f := insertBit r b i) (P := InsertedBefore r b a i) r.nqy
        (fun j hj c hc => by
          obtain ⟨hidx, v, hv⟩ := hin i j hi hj
          exact hc.insertBit hn hj hidx hv)
        hc
      exact ⟨d, hd, hrow.next_row⟩)
    (insertedBefore_refl r b a)

theorem step_bitins {s : State} (h : At .bitins s) (hw : s.written.qt = true) {a : Bank 32}
    (ha : qtreeBitins s.qt s.S s.A = .ok a) : step s = .next (State.goto .plane { s with A := a }) := by
  have hop : step s = insertPlane s := by rw [step_at h rfl, engineOp, h.2]
  refine hop.trans ((needs_true hw).trans ?_)
  rw [ha]

end Sys2Proof.Machine

namespace Sys2Proof.Proofs

open Sys2Proof.Machine Sys2Proof.Safety

/-- Settles O27: the rounds insert the elements' bits row by row, each into an entry of its own. -/
theorem insertPlane : Obligations.InsertPlane := by
  intro s hs hw _ hn hin
  obtain ⟨a, ha, hinserted⟩ := qtreeBitins_inserts hn hin
  refine ⟨_, step_bitins hs hw ha, rfl, ⟨rfl, rfl, rfl, rfl⟩, ⟨rfl, fun _ => rfl⟩, hinserted.size,
    fun i j v o hi hj hv ho => ?_, fun x hx => ?_⟩
  · obtain ⟨hidx, rfl⟩ := readGrid_eq_ok.mp ho
    exact readGrid_eq_ok.mpr ⟨hinserted.size ▸ hidx, hinserted.inserted i j v ⟨hj, .inl hi⟩ hv⟩
  · have hentry : a.entry x = s.A.entry x :=
      hinserted.others x fun i j ⟨hj, hbefore⟩ => hx i j (by omega) hj
    show a.readGrid x = s.A.readGrid x
    rw [readGrid_eq, readGrid_eq, hinserted.size, hentry]

end Sys2Proof.Proofs
end

section
/-! SUPPORT. The format code (R136), the quadrant without a row or a column (R143), and the DC value (R146). -/

namespace Sys2Proof.Machine

open Sys2Proof.Safety

theorem exec_fmtD {s : State} (hp : s.point = .fmt) (hw : s.written.qt = true) :
    exec .fmtD s = .next (State.goto .direct
      { s with qt := { s.qt with b := 0, t := 0 }, stage := .direct s.qt.q s.qt.bit }) :=
  (inSlot_at hp rfl).trans (needs_true hw)

theorem exec_fmtQ_empty {s : State} (hp : s.point = .fmt) (hw : s.written.qt = true) (he : s.qt.nqx = 0 ∨ s.qt.nqy = 0) :
    exec .fmtQ s = .next (refuse .emptyQuadrantQuadtree
      { s with qt := { s.qt with b := 15 }, stage := .qtree s.qt.q s.qt.bit }) :=
  (inSlot_at hp rfl).trans ((needs_true hw).trans (if_pos he))

theorem exec_fmtQ_nonempty {s : State} (hp : s.point = .fmt) (hw : s.written.qt = true)
    (he : ¬(s.qt.nqx = 0 ∨ s.qt.nqy = 0)) :
    exec .fmtQ s = .next (State.goto .top
      { s with
        qt := { s.qt with b := 15, L := ceilLog2 (max s.qt.nqx s.qt.nqy) }
        stage := .qtree s.qt.q s.qt.bit }) :=
  (inSlot_at hp rfl).trans ((needs_true hw).trans (if_neg he))

theorem forEach_id {α : Type} {f : Nat → α → Except Fault α} {a : α} (hf : ∀ i, f i a = .ok a) (is : List Nat) :
    forEach f is a = .ok a := by
  induction is with
  | nil => rfl
  | cons i is ih => rw [forEach, hf i]; exact ih

/-- The insertion of a plane into an empty quadrant reads and writes nothing. -/
theorem qtreeBitins_empty {r : QtRegs} (he : r.nqx = 0 ∨ r.nqy = 0) (b : Bank 4) (a : Bank 32) :
    qtreeBitins r b a = .ok a := by
  unfold qtreeBitins
  rcases he with hx | hy
  · rw [hx]; rfl
  · rw [hy]
    exact forEach_id (fun _ => rfl) _

/-- An empty quadrant has no nibble. -/
theorem nibbles_empty {nqx nqy : Nat} (he : nqx = 0 ∨ nqy = 0) : ceilDiv nqx 2 * ceilDiv nqy 2 = 0 := by
  rcases he with rfl | rfl <;> simp

/-- Once a direct plane has no nibble to come, its insertion follows, which in an empty quadrant writes nothing. -/
theorem emptyPlane_steps {s : State} (h : At .direct s) (hw : s.written.qt = true) (he : s.qt.nqx = 0 ∨ s.qt.nqy = 0)
    (hcount : s.qt.mx * s.qt.my ≤ s.qt.t) :
    step s = .next (s.goto .bitins) ∧ step (s.goto .bitins) = .next (s.goto .plane) := by
  obtain ⟨hloop, -⟩ := Proofs.directNibbles
  exact ⟨(hloop s h hw).2 hcount, step_bitins (s := s.goto .bitins) ⟨h.1, rfl⟩ hw (qtreeBitins_empty he ..)⟩

theorem step_setDC {s : State} (h : At .setDC s) (hw : s.written.hdr = true) (hA : 0 < s.A.size) :
    step s = .next (State.goto .undigitize { s with A := s.A.setEntry 0 s.hdr.sumall }) := by
  have hop : step s = setDC s := by rw [step_at h rfl, engineOp, h.2]
  refine hop.trans ((needs_true hw).trans ?_)
  rw [writeGrid_ok hA]

end Sys2Proof.Machine

namespace Sys2Proof.Proofs

open Sys2Proof.Machine Sys2Proof.Safety

/-- Settles O18: the decoder gives the code's token, and the token goes to its coding or raises the error. -/
theorem formatDispatch : Obligations.FormatDispatch := by
  refine ⟨⟨rfl, rfl, fun f hD hQ => ?_⟩, fun s hp hw => ?_, fun s hp hw hx hy => ?_, fun f s hp hstage => ?_⟩
  · have hwf : (Instr.fmtIllegal f).wellFormed = true := by
      simpa [Instr.wellFormed, illegalFormat] using ⟨hD, hQ⟩
    exact decode_encode hwf
  · exact ⟨_, exec_fmtD hp hw, rfl, rfl, rfl, rfl⟩
  · exact ⟨_, exec_fmtQ_nonempty hp hw (by omega), rfl, rfl, rfl, rfl⟩
  · exact ⟨_, inSlot_at hp rfl, rfl, rfl, hstage, rfl, rfl⟩

/-- Settles O19: without an element there is no nibble to read and no entry to insert into. -/
theorem emptyQuadrant : Obligations.EmptyQuadrant := by
  intro s hp hw he
  refine ⟨⟨_, exec_fmtQ_empty hp hw he, rfl, rfl⟩, fun hmx hmy hplan => ?_⟩
  have hcount : s.qt.mx * s.qt.my = 0 := by rw [hmx, hmy, nibbles_empty he]
  obtain ⟨hskip, hinsert⟩ := emptyPlane_steps
    (s := State.goto .direct { s with qt := { s.qt with b := 0, t := 0 }, stage := .direct s.qt.q s.qt.bit })
    ⟨hplan, rfl⟩ hw he hcount.le
  exact ⟨_, _, _, exec_fmtD hp hw, hskip, rfl, hinsert, rfl, ⟨rfl, rfl, rfl, rfl⟩, sameMemory_of_eq rfl rfl rfl rfl⟩

/-- Settles O32: one entry of the grid is written. -/
theorem setDC : Obligations.SetDC := by
  intro s hs hw hA
  exact ⟨_, step_setDC hs hw hA, rfl, readGrid_eq_ok.mpr ⟨hA, entry_setEntry_same ..⟩, rfl,
    fun i hi => readGrid_setEntry_other hi, ⟨rfl, rfl, rfl, rfl⟩, ⟨rfl, fun _ => rfl⟩, rfl⟩

end Sys2Proof.Proofs
end

section
/-! SUPPORT. The transform's constants (R171, R173, R182, R183): powers of two at every level, and the roundings they make. -/

namespace Sys2Proof.Machine

open Sys2Proof.Safety

/-! ### Powers of two as words -/

theorem asr_one_twoPow {k : Nat} (hk : k ≤ 30) : asr (BitVec.ofNat 32 (2 ^ k)) 1 = BitVec.ofNat 32 (2 ^ k / 2) := by
  cases k with
  | zero => rfl
  | succ e => rw [asr_ofNat_twoPow (by omega), pow_succ, Nat.mul_div_cancel _ (by decide)]

theorem toInt_neg_twoPow {e : Nat} (he : e ≤ 30) : (-BitVec.ofNat 32 (2 ^ e) : Word).toInt = -2 ^ e := by
  have hpos : (0 : Int) < 2 ^ e := by positivity
  have hlt : (2 : Int) ^ e < 2 ^ 31 := pow_lt_pow_right₀ (by decide) (by omega)
  rw [BitVec.toInt_neg, toInt_ofNat_twoPow he]
  exact Int.bmod_eq_of_le (by omega) (by omega)

/-- Halving the negative of a power of two, arithmetically (R8). -/
theorem asr_one_neg_twoPow {e : Nat} (he : e ≤ 29) :
    asr (-BitVec.ofNat 32 (2 ^ (e + 1))) 1 = -BitVec.ofNat 32 (2 ^ e) := by
  apply BitVec.eq_of_toInt_eq
  rw [asr, BitVec.toInt_sshiftRight, toInt_neg_twoPow (by omega), toInt_neg_twoPow (by omega), Int.shiftRight_eq_div_pow]
  omega

theorem twoPow_shiftLeft (k i : Nat) : (BitVec.ofNat 32 (2 ^ k) : Word) <<< i = BitVec.ofNat 32 (2 ^ (k + i)) :=
  BitVec.eq_of_toNat_eq (by simp [Nat.shiftLeft_eq, pow_add])

theorem neg_twoPow_shiftLeft (k i : Nat) : (-BitVec.ofNat 32 (2 ^ k) : Word) <<< i = -BitVec.ofNat 32 (2 ^ (k + i)) := by
  rw [← twoPow_shiftLeft, BitVec.shiftLeft_eq_mul_twoPow, BitVec.shiftLeft_eq_mul_twoPow, BitVec.neg_mul]

/-! ### Level by level -/

/-- The constants as the transform begins are those of its first level (R171). -/
theorem initConstants_constantsFor {r : HtRegs} {k : Nat} (hlog : r.log2n = k + 1) (hk : k ≤ 29) :
    ConstantsFor (initConstants r) k := by
  simp only [ConstantsFor, initConstants, hlog, Nat.add_sub_cancel, twoPow_shiftLeft, neg_twoPow_shiftLeft,
    asr_ofNat_twoPow hk, asr_one_twoPow (by omega : k ≤ 30), and_self]

/-- The registers of R171 that no level halves. -/
theorem initConstants_dc {r : HtRegs} {k : Nat} (hlog : r.log2n = k + 1) (hk : k ≤ 28) :
    (initConstants r).bit2 = BitVec.ofNat 32 (2 ^ (k + 2)) ∧ (initConstants r).mask2 = -BitVec.ofNat 32 (2 ^ (k + 2)) ∧
      (initConstants r).prnd2 = BitVec.ofNat 32 (2 ^ (k + 1)) ∧
      (initConstants r).nrnd2 = BitVec.ofNat 32 (2 ^ (k + 1)) - 1 := by
  simp only [initConstants, hlog, Nat.add_sub_cancel, twoPow_shiftLeft, neg_twoPow_shiftLeft,
    asr_ofNat_twoPow (by omega : k + 1 ≤ 29), and_self]

/-- Above level 0 the rounding addend of `hc` is half of the level's power of two (R173). -/
theorem prnd0_of_constantsFor {r : HtRegs} {k : Nat} (h : ConstantsFor r k) (hk : k ≠ 0) :
    r.prnd0 = BitVec.ofNat 32 (2 ^ (k - 1)) := by
  obtain ⟨-, -, -, -, -, -, hprnd0⟩ := h
  rw [hprnd0, ← Nat.two_pow_pred_mul_two (Nat.pos_of_ne_zero hk), Nat.mul_div_cancel _ (by decide)]

/-- The closed forms are about registers that the override of R183 leaves alone. -/
theorem enterLevel_constantsFor {r : HtRegs} {k : Nat} : ConstantsFor (enterLevel r) k ↔ ConstantsFor r k := by
  unfold enterLevel finalLevel
  split <;> rfl

/-- The override of R183. -/
theorem enterLevel_override (r : HtRegs) :
    (enterLevel r).nrnd0 = (if r.levels - 1 = 0 then 0 else r.nrnd0) ∧
      (enterLevel r).shift = (if r.levels - 1 = 0 then 2 else r.shift) := by
  unfold enterLevel finalLevel
  have hk : (levelExtents { r with k := r.levels - 1, levels := r.levels - 1 }).k = r.levels - 1 := rfl
  rw [hk]
  split <;> exact ⟨rfl, rfl⟩

/-- The halving halves the powers of two (R182). -/
theorem halveConstants_constantsFor {r : HtRegs} {k : Nat} (hk : k ≤ 28) (h : ConstantsFor r (k + 1))
    (hnrnd0 : r.nrnd0 = BitVec.ofNat 32 (2 ^ k) - 1) : ConstantsFor (halveConstants r) k := by
  have hprnd0 := prnd0_of_constantsFor h (Nat.succ_ne_zero k)
  obtain ⟨hbit0, hmask0, -⟩ := h
  rw [Nat.add_sub_cancel] at hprnd0
  simp only [ConstantsFor, halveConstants, hbit0, hmask0, hprnd0, hnrnd0, asr_ofNat_twoPow (by omega : k ≤ 29),
    asr_one_neg_twoPow (by omega : k ≤ 29), asr_one_twoPow (by omega : k ≤ 30), and_self]

/-- The closed forms at the head of the level loop, for the level to come (R173). -/
def HeadConstants (r : HtRegs) : Prop :=
  r.levels ≤ r.log2n ∧ (r.levels ≠ 0 → ConstantsFor r (r.levels - 1) ∧ r.nrnd0 = r.prnd0 - 1 ∧ r.shift = 1)

/-- The closed forms within a level, after the override of R183. -/
def LevelConstants (r : HtRegs) : Prop :=
  r.levels = r.k ∧ r.k < r.log2n ∧ ConstantsFor r r.k ∧
    (r.k ≠ 0 → r.nrnd0 = BitVec.ofNat 32 (2 ^ (r.k - 1)) - 1 ∧ r.shift = 1) ∧ (r.k = 0 → r.nrnd0 = 0 ∧ r.shift = 2)

theorem headConstants_init {r : HtRegs} (hlevels : r.levels = r.log2n) (hpos : 0 < r.log2n) (hlog : r.log2n ≤ 29) :
    HeadConstants (initConstants r) := by
  obtain ⟨k, hk⟩ := Nat.exists_eq_succ_of_ne_zero hpos.ne'
  have hconst := initConstants_constantsFor hk (by omega)
  refine ⟨hlevels.le, fun _ => ⟨?_, rfl, rfl⟩⟩
  show ConstantsFor (initConstants r) (r.levels - 1)
  rwa [hlevels, hk]

/-- The head of the loop goes down one level and overrides what the last level needs (R170, R183). -/
theorem HeadConstants.enterLevel {r : HtRegs} (h : HeadConstants r) (hl : r.levels ≠ 0) :
    LevelConstants (enterLevel r) := by
  obtain ⟨hle, hconst⟩ := h
  obtain ⟨hfor, hnrnd0, hshift⟩ := hconst hl
  obtain ⟨elog, ek, elevels, -⟩ := enterLevel_loop r
  obtain ⟨enrnd0, eshift⟩ := enterLevel_override r
  unfold LevelConstants
  rw [elog, ek, elevels, enrnd0, eshift]
  refine ⟨rfl, by omega, enterLevel_constantsFor.mpr hfor, fun hk => ?_, fun hk => ⟨if_pos hk, if_pos hk⟩⟩
  rw [if_neg hk, if_neg hk, hnrnd0, prnd0_of_constantsFor hfor hk]
  exact ⟨rfl, hshift⟩

/-- A combine writes no constant (R177). -/
theorem LevelConstants.combined {r r' : HtRegs} (h : LevelConstants r)
    (hr : SameLevel { r with oddx := r.nxtop % 2, oddy := r.nytop % 2 } r') : LevelConstants r' := by
  unfold SameLevel at hr
  rw [hr]
  exact h

/-- The halving turns the constants of a level into those of the next (R182). -/
theorem LevelConstants.halve {r : HtRegs} (h : LevelConstants r) (hlog : r.log2n ≤ 29) :
    HeadConstants (halveConstants r) := by
  obtain ⟨hlevels, hlt, hfor, hinner, -⟩ := h
  refine ⟨hlevels.trans_le hlt.le, fun hl => ?_⟩
  have hk : r.k ≠ 0 := hlevels ▸ hl
  obtain ⟨k, hk'⟩ := Nat.exists_eq_succ_of_ne_zero hk
  obtain ⟨hnrnd0, hshift⟩ := hinner hk
  refine ⟨?_, rfl, hshift⟩
  show ConstantsFor (halveConstants r) (r.levels - 1)
  rw [hlevels]
  rw [hk'] at hfor hnrnd0 ⊢
  exact halveConstants_constantsFor (by omega) hfor hnrnd0

/-! ### The roundings of a level -/

theorem rnd1_eq_rnd {r : HtRegs} {k : Nat} (hk : k ≤ 29) (h : ConstantsFor r k) (v : Word) : r.rnd1 v = rnd v (k + 1) := by
  obtain ⟨-, -, -, hmask1, hprnd1, hnrnd1, -⟩ := h
  simp only [HtRegs.rnd1, rnd, asr_ofNat_twoPow hk, hmask1, hprnd1, hnrnd1]

theorem rnd0_eq_rnd {r : HtRegs} {k : Nat} (hk : k ≤ 29) (h : ConstantsFor r (k + 1))
    (hnrnd0 : r.nrnd0 = BitVec.ofNat 32 (2 ^ k) - 1) (v : Word) : r.rnd0 v = rnd v (k + 1) := by
  have hprnd0 := prnd0_of_constantsFor h (Nat.succ_ne_zero k)
  obtain ⟨-, hmask0, -⟩ := h
  rw [Nat.add_sub_cancel] at hprnd0
  simp only [HtRegs.rnd0, rnd, asr_ofNat_twoPow hk, hmask0, hprnd0, hnrnd0]

/-- At the last level `hc` is not rounded: its mask is all ones and its addends are 0. -/
theorem rnd0_eq_self {r : HtRegs} (h : ConstantsFor r 0) (hnrnd0 : r.nrnd0 = 0) (v : Word) : r.rnd0 v = v := by
  obtain ⟨-, hmask0, -, -, -, -, hprnd0⟩ := h
  have hmask : -BitVec.ofNat 32 (2 ^ 0) = BitVec.allOnes 32 := by decide
  have hprnd : BitVec.ofNat 32 (2 ^ 0 / 2) = 0#32 := rfl
  rw [HtRegs.rnd0, roundWith, hmask0, hprnd0, hnrnd0, hmask, hprnd, BitVec.ofNat_eq_ofNat, ite_self, BitVec.and_allOnes]
  exact BitVec.add_zero v

/-! ### The steps of the session -/

/-- What `ConstantsOk` says at the position where the engine stands. -/
theorem constantsOk_at {s : State} {p : Point} (hs : ConstantsOk s) (hp : s.point = p) :
    ConstantsOk { s with point := p } := by
  subst hp; exact hs

theorem constantsOk_of {s : State} (p : Point) (hs : ConstantsOk { s with point := p }) (hp : s.point = p) :
    ConstantsOk s := by
  subst hp; exact hs

/-- An admitted image has between 1 and 29 levels (R131). -/
theorem levels_of_admitted {s : State} (h : Admitted s) :
    0 < ceilLog2 s.hdr.maxDim ∧ ceilLog2 s.hdr.maxDim ≤ 29 := by
  obtain ⟨-, hadm, -⟩ := h
  obtain ⟨-, -, hmin, hmax, -⟩ := admission_none hadm
  exact ⟨ceilLog2_pos hmin, ceilLog2_le hmax⟩

theorem EngineMove.keeps_constantsOk {s t : State} (h : EngineMove s t) (hs : PointOk s) (hc : ConstantsOk s) :
    ConstantsOk t := by
  cases h with
  | stay => exact hc
  | scanZero hp => exact constantsOk_of .expand trivial hp
  | signZero hp => exact constantsOk_of .sign trivial hp
  | pixel hp => exact constantsOk_of .pack trivial hp
  | transformBegun hp =>
    obtain ⟨hpos, hlog⟩ := levels_of_admitted (pointOk_at hs hp)
    exact headConstants_init (r := initLoop s.hdr s.ht) rfl hpos hlog
  | transformLevel hp hl =>
    have hhead : HeadConstants s.ht := constantsOk_at hc hp
    exact hhead.enterLevel hl
  | unshuffled hp => exact constantsOk_at hc hp
  | combined hp m hm =>
    have hlevel : LevelConstants s.ht := constantsOk_at hc hp
    obtain ⟨hopen, -⟩ := pointOk_at hs hp
    obtain ⟨m', hm', -, hsame⟩ := transformOpen_combine hopen
    obtain rfl : m' = m := by rw [hm] at hm'; exact (Except.ok.inj hm').symm
    exact hlevel.combined hsame
  | halved hp =>
    have hlevel : LevelConstants s.ht := constantsOk_at hc hp
    obtain ⟨⟨hadm, -, -, hlog, -⟩, -⟩ := pointOk_at hs hp
    exact hlevel.halve (hlog.trans_le (levels_of_admitted hadm).2)
  | _ => exact trivial

theorem StepMove.keeps_constantsOk {s t : State} (h : StepMove s t) (hs : PointOk s) (hc : ConstantsOk s) :
    ConstantsOk t := by
  cases h with
  | op h => exact h.keeps_constantsOk hs hc
  | token i u _ _ _ h => cases h <;> exact trivial
  | ended k _ h => cases h <;> exact trivial

end Sys2Proof.Machine

namespace Sys2Proof.Proofs

open Sys2Proof.Machine Sys2Proof.Safety

/-- Settles O43: the constants of a level are powers of two, which the halving halves and no other step writes. -/
theorem transformConstants : Obligations.TransformConstants := by
  refine ⟨fun s t hs hc h => ?_, fun r k v hk h => ⟨rnd1_eq_rnd (by omega) h v, fun hpos hnrnd0 => ?_, ?_⟩⟩
  · have hboth := step_keeps (P := fun s => Sound s ∧ ConstantsOk s) h ⟨hs, hc⟩ (fun _ _ _ hs => hs)
      (fun bytes s => ⟨startSession_sound bytes s, trivial⟩) (fun cfg plan => ⟨reset_sound cfg plan, trivial⟩)
      (fun s t ⟨⟨hp, hcur, hpoint⟩, hc⟩ ht =>
        ⟨engineEvent_keeps_sound ⟨hp, hcur, hpoint⟩ ht, (engineEvent_next ht).keeps_constantsOk hpoint hc⟩)
    exact hboth.2
  · obtain ⟨d, rfl⟩ : ∃ d, k = d + 1 := ⟨k - 1, by omega⟩
    exact rnd0_eq_rnd (by omega) h hnrnd0 v
  · rintro rfl hnrnd0
    exact rnd0_eq_self h hnrnd0 v

end Sys2Proof.Proofs
end

section
/-! SUPPORT. The beginning of the transform (R171, R172), the head and the end of its level loop (R170, R174, R182, R183), and
the edges of a level as blocks with missing coefficients (R178 to R181). -/

namespace Sys2Proof.Machine

open Sys2Proof.Safety

/-! ### The constants as numbers -/

/-- An arithmetic shift by one place halves, rounding down (R8). -/
theorem toInt_asr_one (x : Word) : (asr x 1).toInt = x.toInt / 2 := by
  rw [asr, BitVec.toInt_sshiftRight, Int.shiftRight_eq_div_pow]
  rfl

theorem toInt_sub_one {x : Word} (h : 0 ≤ x.toInt) : (x - 1).toInt = x.toInt - 1 := by
  have hlt := BitVec.toInt_lt (x := x)
  rw [BitVec.toInt_sub, show (1 : Word).toInt = 1 from rfl]
  exact Int.bmod_eq_of_le (by omega) (by omega)

theorem toInt_twoPow_sub_one {e : Nat} (he : e ≤ 30) : (BitVec.ofNat 32 (2 ^ e) - 1 : Word).toInt = 2 ^ e - 1 := by
  rw [toInt_sub_one (by rw [toInt_ofNat_twoPow he]; positivity), toInt_ofNat_twoPow he]

theorem toInt_twoPow_half {e : Nat} (he : e ≤ 30) : (BitVec.ofNat 32 (2 ^ e / 2) : Word).toInt = 2 ^ e / 2 := by
  rw [← asr_one_twoPow he, toInt_asr_one, toInt_ofNat_twoPow he]

theorem toInt_twoPow_half_sub_one {e : Nat} (he : e ≤ 30) :
    (BitVec.ofNat 32 (2 ^ e / 2) - 1 : Word).toInt = 2 ^ e / 2 - 1 := by
  rw [toInt_sub_one (by rw [toInt_twoPow_half he]; positivity), toInt_twoPow_half he]

/-! ### The steps of the level loop -/

/-- The rounding of the DC value is that of R11 to a multiple of `2^(log2n+1)` (R172). -/
theorem roundWith_dc {r : HtRegs} {k : Nat} (hlog : r.log2n = k + 1) (hk : k ≤ 28) (v : Word) :
    roundWith (initConstants r).prnd2 (initConstants r).nrnd2 (initConstants r).mask2 v = rnd v (r.log2n + 1) := by
  obtain ⟨-, hmask2, hprnd2, hnrnd2⟩ := initConstants_dc hlog hk
  simp only [rnd, hlog, hmask2, hprnd2, hnrnd2, asr_ofNat_twoPow (by omega : k + 1 ≤ 29)]

theorem step_hinit {s : State} (h : At .hinit s) (hw : s.written.hdr = true) (hA : 0 < s.A.size) :
    step s = .next (State.goto .hlevel
      { s with
        A := s.A.setEntry 0 (roundWith (initConstants (initLoop s.hdr s.ht)).prnd2
          (initConstants (initLoop s.hdr s.ht)).nrnd2 (initConstants (initLoop s.hdr s.ht)).mask2 (s.A.entry 0))
        T := Bank.alloc (ceilDiv s.hdr.maxDim 2), ht := initConstants (initLoop s.hdr s.ht)
        written := { s.written with ht := true } }) := by
  have hop : step s = initTransform s := by rw [step_at h rfl, engineOp, h.2]
  refine hop.trans ((needs_true hw).trans ?_)
  simp only [readGrid_ok hA, writeGrid_ok hA]

theorem step_hlevel {s : State} (h : At .hlevel s) (hw : s.written.ht = true) :
    step s =
      if s.ht.levels = 0 then .next (State.goto .pack { s with gi := 0 })
      else .next (State.goto .unshuffle { s with ht := enterLevel s.ht }) := by
  have hop : step s = nextTransformLevel s := by rw [step_at h rfl, engineOp, h.2]
  exact hop.trans (needs_true hw)

theorem step_halve {s : State} (h : At .halve s) (hw : s.written.ht = true) :
    step s = .next (State.goto .hlevel { s with ht := halveConstants s.ht }) := by
  have hop : step s = runHalve s := by rw [step_at h rfl, engineOp, h.2]
  exact hop.trans (needs_true hw)

/-! ### The extents of the levels -/

/-- The loop registers `r` hold the extents of an `nx × ny` image with `d` halvings to go (R174). -/
def LevelExtentsAt (nx ny d : Nat) (r : HtRegs) : Prop :=
  ExtentAt nx d r.c r.nxtop r.nxf ∧ ExtentAt ny d r.c r.nytop r.nyf

/-- Each step of the recurrence takes one halving. -/
theorem levelExtentsAt_iterate {nx ny d : Nat} {r : HtRegs} (hx : 0 < nx) (hy : 0 < ny) (k : Nat)
    (h : LevelExtentsAt nx ny (d + k) r) : LevelExtentsAt nx ny d (levelExtents^[k] r) := by
  induction k generalizing r with
  | zero => exact h
  | succ k ih => exact ih ⟨extentAt_step hx h.1, extentAt_step hy h.2⟩

/-- The extents at level `k` of the transform (R174). -/
theorem levelExtents_closed (h : HdrRegs) (r : HtRegs) (hx : 1 ≤ h.rows) (hy : 1 ≤ h.cols) {k : Nat}
    (hk : k ≤ ceilLog2 h.maxDim) :
    (levelExtents^[ceilLog2 h.maxDim - k] (initLoop h r)).nxtop = ceilDiv h.rows (2 ^ k) ∧
      (levelExtents^[ceilLog2 h.maxDim - k] (initLoop h r)).nytop = ceilDiv h.cols (2 ^ k) := by
  have hcover : max h.rows h.cols ≤ 2 ^ ceilLog2 h.maxDim := le_two_pow_ceilLog2 _
  have hinit : LevelExtentsAt h.rows h.cols (k + (ceilLog2 h.maxDim - k)) (initLoop h r) := by
    rw [Nat.add_sub_cancel' hk]
    exact ⟨extentAt_init hx ((le_max_left _ _).trans hcover), extentAt_init hy ((le_max_right _ _).trans hcover)⟩
  obtain ⟨⟨-, hnx, -⟩, -, hny, -⟩ := levelExtentsAt_iterate hx hy _ hinit
  exact ⟨hnx, hny⟩

/-- With one halving done, an extent is 1 or 2. -/
theorem ceilDiv_first_level {n L : Nat} (hn : 1 ≤ n) (hL : 0 < L) (h : n ≤ 2 ^ L) :
    1 ≤ ceilDiv n (2 ^ (L - 1)) ∧ ceilDiv n (2 ^ (L - 1)) ≤ 2 := by
  have hpos := Nat.two_pow_pos (L - 1)
  refine ⟨ceilDiv_pos hpos hn, ?_⟩
  have hlt := ceilDiv_pred_mul_lt hpos hn
  rw [← Nat.two_pow_pred_mul_two hL, Nat.mul_comm] at h
  have : ceilDiv n (2 ^ (L - 1)) - 1 < 2 := Nat.lt_of_mul_lt_mul_right (hlt.trans_le h)
  omega

/-! ### The edges of a level -/

/-- A coefficient of 0 rounds to 0. -/
theorem rnd_zero {e : Nat} (he : e ≤ 29) : rnd 0#32 (e + 1) = 0#32 := by
  apply BitVec.eq_of_toInt_eq
  have hzero : (0#32).toInt = 0 := rfl
  have hpos : (0 : Int) < 2 ^ e := by positivity
  have hlt : (2 : Int) ^ e < 2 ^ 31 := pow_lt_pow_right₀ (by decide) (by omega)
  rw [rnd_succ _ he, toInt_and_neg_twoPow _ (by omega), hzero, if_pos (le_refl _),
    toInt_roundSum_nonneg he hzero.ge (by rw [hzero]; omega), hzero, zero_add,
    Int.ediv_eq_zero_of_lt hpos.le (by rw [pow_succ]; omega), mul_zero]

@[simp] theorem towardZero_zero (v : Word) : towardZero v 0#32 = v := by simp [towardZero]

/-- A block without `hc` hands on no low bit, and its low bit of level 1 is that of `hx` and `hy`. -/
theorem roundBlock_of_hc_zero {r : HtRegs} (hx hy : Word) (hrnd0 : r.rnd0 0 = 0) :
    roundBlock { r with hx := hx, hy := hy, hc := 0 } =
      { r with
        hx := r.rnd1 hx, hy := r.rnd1 hy, hc := 0, lowbit0 := 0
        lowbit1 := (r.rnd1 hx ^^^ r.rnd1 hy) &&& r.bit1
        h0 := towardZero r.h0 ((r.rnd1 hx ^^^ r.rnd1 hy) &&& r.bit1) } := by
  have hc : roundWith r.prnd0 r.nrnd0 r.mask0 0#32 = 0#32 := hrnd0
  simp [roundBlock, HtRegs.rnd0, HtRegs.rnd1, hc, towardZero]

end Sys2Proof.Machine

namespace Sys2Proof.Proofs

open Sys2Proof.Machine Sys2Proof.Safety

/-- Settles O42: the constants are powers of two below the sign bit, and one entry of the grid is rounded. -/
theorem transformBegins : Obligations.TransformBegins := by
  refine ⟨fun r hmin hmax => ?_, fun s hs hw hA hmin hmax => ?_⟩
  · obtain ⟨k, hk⟩ : ∃ k, r.log2n = k + 1 := ⟨r.log2n - 1, by omega⟩
    obtain ⟨hbit0, hmask0, hbit1, hmask1, hprnd1, hnrnd1, hprnd0⟩ := initConstants_constantsFor hk (by omega)
    obtain ⟨hbit2, hmask2, hprnd2, hnrnd2⟩ := initConstants_dc hk (by omega)
    have hnrnd0 : (initConstants r).nrnd0 = BitVec.ofNat 32 (2 ^ k / 2) - 1 := by rw [← hprnd0]; rfl
    simp only [hk, Nat.add_sub_cancel, hbit0, hbit1, hbit2, hmask0, hmask1, hmask2, hprnd0, hprnd1, hprnd2, hnrnd0, hnrnd1,
      hnrnd2]
    exact ⟨toInt_ofNat_twoPow (by omega), toInt_ofNat_twoPow (by omega), toInt_ofNat_twoPow (by omega),
      toInt_neg_twoPow (by omega), toInt_neg_twoPow (by omega), toInt_neg_twoPow (by omega), toInt_twoPow_half (by omega),
      toInt_ofNat_twoPow (by omega), toInt_ofNat_twoPow (by omega), toInt_twoPow_half_sub_one (by omega),
      toInt_twoPow_sub_one (by omega), toInt_twoPow_sub_one (by omega), rfl⟩
  · have hlog : ceilLog2 s.hdr.maxDim ≤ 29 := ceilLog2_le hmax
    obtain ⟨k, hk⟩ := Nat.exists_eq_succ_of_ne_zero (ceilLog2_pos hmin).ne'
    have hdc := roundWith_dc (r := initLoop s.hdr s.ht) hk (by omega)
    refine ⟨_, step_hinit hs hw hA, rfl, rfl, fun v hv => ?_, fun i hi => readGrid_setEntry_other hi, ⟨rfl, rfl, rfl, rfl⟩,
      rfl, rfl, rfl, rfl⟩
    obtain ⟨-, rfl⟩ := readGrid_eq_ok.mp hv
    exact readGrid_eq_ok.mpr ⟨hA, (entry_setEntry_same ..).trans (hdc _)⟩

/-- Settles O44: at level `k` there are `k` halvings to go, so the extent is the image's divided by as many twos, rounded up. -/
theorem levelExtents : Obligations.LevelExtents := by
  refine ⟨fun r => ⟨rfl, stepExtent_fst .., stepExtent_snd .., stepExtent_fst .., stepExtent_snd ..⟩,
    fun h r hx hy hmax => ?_⟩
  have hpos := ceilLog2_pos hmax
  have hcover : max h.rows h.cols ≤ 2 ^ ceilLog2 h.maxDim := le_two_pow_ceilLog2 _
  have hclosed := fun k hk => levelExtents_closed h r hx hy (k := k) hk
  obtain ⟨hnx, hny⟩ := hclosed 0 (Nat.zero_le _)
  obtain ⟨hnx', hny'⟩ := hclosed (ceilLog2 h.maxDim - 1) (Nat.sub_le _ _)
  obtain ⟨hx1, hx2⟩ := ceilDiv_first_level hx hpos ((le_max_left _ _).trans hcover)
  obtain ⟨hy1, hy2⟩ := ceilDiv_first_level hy hpos ((le_max_right _ _).trans hcover)
  exact ⟨hclosed, hnx.trans (ceilDiv_one _), hny.trans (ceilDiv_one _), hx1.trans_eq hnx'.symm, hnx'.trans_le hx2,
    hy1.trans_eq hny'.symm, hny'.trans_le hy2⟩

/-- Settles O45, from the steps at the head and at the end of a level. -/
theorem transformLevels : Obligations.TransformLevels := by
  refine ⟨fun s hs hw => ⟨fun hl => ?_, fun hl => ?_⟩, fun s hs hw => ?_⟩
  · exact ⟨_, (step_hlevel hs hw).trans (if_pos hl), rfl, rfl, sameMemory_of_eq rfl rfl rfl rfl, ⟨rfl, rfl, rfl, rfl⟩⟩
  · obtain ⟨-, hk, hlevels, -, hx, -, hy, -⟩ := enterLevel_loop s.ht
    obtain ⟨hnrnd0, hshift⟩ := enterLevel_override s.ht
    rw [← hk] at hnrnd0 hshift
    exact ⟨_, (step_hlevel hs hw).trans (if_neg hl), rfl, hk, hlevels, hx, hy, hnrnd0, hshift,
      sameMemory_of_eq rfl rfl rfl rfl, ⟨rfl, rfl, rfl, rfl⟩⟩
  · refine ⟨_, step_halve hs hw, rfl, rfl, rfl, toInt_asr_one _, rfl, toInt_asr_one _, rfl, toInt_asr_one _, rfl, rfl,
      fun hmask => ?_, sameMemory_of_eq rfl rfl rfl rfl, ⟨rfl, rfl, rfl, rfl⟩⟩
    show asr s.ht.mask0 1 = -1
    rw [hmask]
    decide

/-- Settles O49: without `hc` a block hands on no low bit, and a missing `hx` or `hy` stays 0. -/
theorem edgesAreBlocks : Obligations.EdgesAreBlocks := by
  intro r k hk h hinner hlast
  have hrnd1 : r.rnd1 0#32 = 0#32 := by rw [rnd1_eq_rnd (by omega) h, rnd_zero (by omega)]
  have hrnd0 : r.rnd0 0#32 = 0#32 := by
    cases k with
    | zero => exact rnd0_eq_self h (hlast rfl) 0
    | succ d => rw [rnd0_eq_rnd (by omega) h (hinner (Nat.succ_ne_zero d)), rnd_zero (by omega)]
  refine ⟨?_, ?_, ?_⟩
  · simp only
    rw [roundBlock_of_hc_zero r.hx 0 hrnd0]
    simp [hrnd1, roundOddY]
  · simp only
    rw [roundBlock_of_hc_zero 0 r.hy hrnd0]
    simp [hrnd1, roundOddX]
  · simp only
    rw [roundBlock_of_hc_zero 0 0 hrnd0]
    simp [hrnd1]

end Sys2Proof.Proofs
end

section
/-! SUPPORT. The unshuffle of a line (R175) and of a level (R176): every entry of a line comes from its source, and lines that
share no entry are unshuffled one by one. -/

namespace Sys2Proof.Machine

open Sys2Proof.Safety

theorem readGrid_congr {a b : Bank 32} {i j : Nat} (hi : i < a.size) (hj : j < b.size) (h : a.entry i = b.entry j) :
    a.readGrid i = b.readGrid j := by
  rw [readGrid_ok hi, readGrid_ok hj, h]

theorem readGrid_congr_same {a b : Bank 32} {x : Nat} (hsize : a.size = b.size) (h : a.entry x = b.entry x) :
    a.readGrid x = b.readGrid x := by
  rw [readGrid_eq, readGrid_eq, hsize, h]

/-- An entry of the grid stands in one row and one column (R12). -/
theorem index_unique {ny i j i' j' : Nat} (hj : j < ny) (hj' : j' < ny) (h : ny * i + j = ny * i' + j') : i = i' ∧ j = j' := by
  rw [Nat.mul_comm ny, Nat.mul_comm ny] at h
  exact row_col_unique hj hj' h

theorem unshuffleSource_even (n i : Nat) : unshuffleSource n (2 * i) = i := by
  rw [unshuffleSource, if_pos (by omega)]
  omega

theorem unshuffleSource_odd (n i : Nat) : unshuffleSource n (2 * i + 1) = (n + 1) / 2 + i := by
  rw [unshuffleSource, if_neg (by omega)]
  omega

theorem unshuffleSource_lt {n i : Nat} (h : i < n) : unshuffleSource n i < n := by
  unfold unshuffleSource
  split <;> omega

/-! ### The three loops -/

/-- Where entry `i` of the line stands in the grid (R175). -/
def lineIndex (base stride i : Nat) : Nat := base + stride * i

theorem lineIndex_inj {base stride i j : Nat} (hs : 0 < stride) (h : lineIndex base stride i = lineIndex base stride j) :
    i = j :=
  Nat.eq_of_mul_eq_mul_left hs (Nat.add_left_cancel h)

/-- What entry `i` of the unshuffled line holds: the line's entry, as it was on entry, at the source of `i` (R175). -/
def lineSource (a : Bank 32) (base n stride i : Nat) : Word := a.entry (lineIndex base stride (unshuffleSource n i))

/-- The second half of the line is saved up to entry `k`, and the rest of the buffer is that of `t`. -/
structure SavedBelow (a : Bank 32) (base n stride : Nat) (t : Bank 32) (k : Nat) (u : Bank 32) : Prop where
  size : u.size = t.size
  saved : ∀ i, i < k → u.readScratch i = .ok (a.entry (lineIndex base stride ((n + 1) / 2 + i)))
  others : ∀ i, k ≤ i → u.readScratch i = t.readScratch i

/-- The entries `i` of the line with `P i` are unshuffled, every other entry of the grid is that of `a`. -/
structure PlacedWhere (a : Bank 32) (base n stride : Nat) (P : Nat → Prop) (b : Bank 32) : Prop where
  size : b.size = a.size
  placed : ∀ i, P i → b.entry (lineIndex base stride i) = lineSource a base n stride i
  others : ∀ x, (∀ i, P i → x ≠ lineIndex base stride i) → b.entry x = a.entry x

section

variable {a t : Bank 32} {base n stride : Nat} (hs : 0 < stride) (ha : ∀ i, i < n → lineIndex base stride i < a.size)

/-- A write of entry `k` of the line adds it to those that are placed. -/
theorem PlacedWhere.setEntry {P Q : Nat → Prop} {b : Bank 32} {k : Nat} (h : PlacedWhere a base n stride P b)
    (hs : 0 < stride) (hQ : ∀ i, Q i ↔ P i ∨ i = k) (hk : ¬P k) :
    PlacedWhere a base n stride Q (b.setEntry (lineIndex base stride k) (lineSource a base n stride k)) := by
  refine ⟨h.size, fun i hi => ?_, fun x hx => ?_⟩
  · rcases (hQ i).mp hi with hP | rfl
    · rw [entry_setEntry_other fun heq => hk (by rwa [lineIndex_inj hs heq])]
      exact h.placed i hP
    · exact entry_setEntry_same ..
  · rw [entry_setEntry_other (hx k ((hQ k).mpr (.inr rfl))).symm]
    exact h.others x fun i hi => hx i ((hQ i).mpr (.inl hi))

theorem PlacedWhere.congr {P Q : Nat → Prop} {b : Bank 32} (h : PlacedWhere a base n stride P b) (hQ : ∀ i, Q i ↔ P i) :
    PlacedWhere a base n stride Q b :=
  ⟨h.size, fun i hi => h.placed i ((hQ i).mp hi), fun x hx => h.others x fun i hi => hx i ((hQ i).mpr hi)⟩

include ha in
theorem saveHalf_loop (ht : n - (n + 1) / 2 ≤ t.size) :
    ∃ u, forEach (saveHalf a base ((n + 1) / 2) stride) (List.range (n - (n + 1) / 2)) t = .ok u ∧
      SavedBelow a base n stride t (n - (n + 1) / 2) u :=
  forEach_range_ok (P := SavedBelow a base n stride t) (n - (n + 1) / 2)
    (fun k hk u hu => by
      have hku : k < u.size := by rw [hu.size]; omega
      refine ⟨u.putEntry k (a.entry (lineIndex base stride ((n + 1) / 2 + k))), ?_, hu.size, fun i hi => ?_, fun i hi => ?_⟩
      · have hread := readGrid_ok (ha ((n + 1) / 2 + k) (by omega))
        unfold lineIndex at hread
        rw [saveHalf, hread]
        exact writeScratch_ok hku
      · rcases Nat.lt_succ_iff_lt_or_eq.mp hi with hlt | rfl
        · rw [readScratch_putEntry_other hlt.ne]
          exact hu.saved i hlt
        · exact readScratch_putEntry_same hku _
      · rw [readScratch_putEntry_other (by omega)]
        exact hu.others i (by omega))
    ⟨rfl, fun _ hi => absurd hi (Nat.not_lt_zero _), fun _ _ => rfl⟩

include hs ha in
/-- From the top down, an entry of the first half is read before it is overwritten. -/
theorem spreadHalf_loop :
    ∃ b, forEach (spreadHalf base stride) (List.range ((n + 1) / 2)).reverse a = .ok b ∧
      PlacedWhere a base n stride (fun i => i % 2 = 0 ∧ i < n) b := by
  obtain ⟨b, hspread, hb⟩ := forEach_down_ok (f := spreadHalf base stride)
    (P := fun k => PlacedWhere a base n stride fun i => i % 2 = 0 ∧ 2 * k ≤ i ∧ i < n) ((n + 1) / 2)
    (fun k hk b hb => by
      have hread := readGrid_ok (b := b) (by rw [hb.size]; exact ha k (by omega))
      have hwrite : lineIndex base stride (2 * k) < b.size := by rw [hb.size]; exact ha (2 * k) (by omega)
      have hsource : b.entry (lineIndex base stride k) = lineSource a base n stride (2 * k) := by
        rw [lineSource, unshuffleSource_even]
        refine hb.others _ fun i hi heq => ?_
        have := lineIndex_inj hs heq
        omega
      refine ⟨_, ?_, hb.setEntry hs (k := 2 * k) (fun i => by omega) (by omega)⟩
      rw [hsource] at hread
      unfold lineIndex at hread hwrite
      rw [spreadHalf, hread]
      exact writeGrid_ok hwrite)
    ⟨rfl, fun i hi => absurd hi (by omega), fun _ _ => rfl⟩
  exact ⟨b, hspread, hb.congr fun i => by omega⟩

include hs ha in
theorem placeHalf_loop {b u : Bank 32} (hb : PlacedWhere a base n stride (fun i => i % 2 = 0 ∧ i < n) b)
    (hu : SavedBelow a base n stride t (n - (n + 1) / 2) u) :
    ∃ c, forEach (placeHalf u base stride) (List.range (n - (n + 1) / 2)) b = .ok c ∧
      PlacedWhere a base n stride (· < n) c := by
  obtain ⟨c, hplace, hc⟩ := forEach_range_ok (f := placeHalf u base stride)
    (P := fun k => PlacedWhere a base n stride fun i => i < n ∧ (i % 2 = 0 ∨ i < 2 * k)) (n - (n + 1) / 2)
    (fun k hk c hc => by
      have hwrite : lineIndex base stride (2 * k + 1) < c.size := by rw [hc.size]; exact ha (2 * k + 1) (by omega)
      refine ⟨_, ?_, hc.setEntry hs (k := 2 * k + 1) (fun i => by omega) (by omega)⟩
      rw [placeHalf, hu.saved k hk, lineSource, unshuffleSource_odd]
      exact writeGrid_ok hwrite)
    (hb.congr fun i => by omega)
  exact ⟨c, hplace, hc.congr fun i => by omega⟩

include hs ha in
/-- R175: every entry of the line comes from its source, nothing else of the grid is written, and the buffer holds the second
half. -/
theorem unshuffle_places (ht : n - (n + 1) / 2 ≤ t.size) :
    ∃ c u, unshuffle base n stride (a, t) = .ok (c, u) ∧ PlacedWhere a base n stride (· < n) c ∧
      SavedBelow a base n stride t (n - (n + 1) / 2) u := by
  obtain ⟨u, hsave, hu⟩ := saveHalf_loop ha ht
  obtain ⟨b, hspread, hb⟩ := spreadHalf_loop hs ha
  obtain ⟨c, hplace, hc⟩ := placeHalf_loop hs ha hb hu
  refine ⟨c, u, ?_, hc, hu⟩
  simp only [unshuffle, hsave, hspread, hplace]

end

/-! ### The lines of a level -/

/-- The first `k` of the lines at `base` are unshuffled, every other entry of the grid is that of `a`. -/
structure LinesPlaced (base : Nat → Nat) (n stride : Nat) (a t : Bank 32) (k : Nat) (m : Bank 32 × Bank 32) : Prop where
  size : m.1.size = a.size
  buffer : m.2.size = t.size
  placed : ∀ l i, l < k → i < n → m.1.entry (lineIndex (base l) stride i) = lineSource a (base l) n stride i
  others : ∀ x, (∀ l i, l < k → i < n → x ≠ lineIndex (base l) stride i) → m.1.entry x = a.entry x

/-- Lines that share no entry are unshuffled one by one, each as it was on entry. -/
theorem unshuffle_lines {base : Nat → Nat} {n stride lines : Nat} {a t : Bank 32} (hs : 0 < lines → 0 < stride)
    (ha : ∀ l i, l < lines → i < n → lineIndex (base l) stride i < a.size) (ht : n - (n + 1) / 2 ≤ t.size)
    (hdisjoint : ∀ l l' i i', i < n → i' < n → l < lines → l' < lines →
      lineIndex (base l) stride i = lineIndex (base l') stride i' → l = l') :
    ∃ m, forEach (fun l m => unshuffle (base l) n stride m) (List.range lines) (a, t) = .ok m ∧
      LinesPlaced base n stride a t lines m :=
  forEach_range_ok (P := LinesPlaced base n stride a t) lines
    (fun l hl m hm => by
      obtain ⟨c, u, hc, hplaced, hsaved⟩ := unshuffle_places (a := m.1) (t := m.2) (base := base l) (n := n)
        (hs (Nat.zero_lt_of_lt hl))
        (fun i hi => by rw [hm.size]; exact ha l i hl hi) (by rw [hm.buffer]; exact ht)
      have hold : ∀ i, i < n → m.1.entry (lineIndex (base l) stride i) = a.entry (lineIndex (base l) stride i) := by
        intro i hi
        refine hm.others _ fun l' i' hl' hi' heq => ?_
        have := hdisjoint l l' i i' hi hi' hl (by omega) heq
        omega
      refine ⟨(c, u), hc, hplaced.size.trans hm.size, hsaved.size.trans hm.buffer, fun l' i hl' hi => ?_, fun x hx => ?_⟩
      · rcases Nat.lt_succ_iff_lt_or_eq.mp hl' with hlt | rfl
        · rw [← hm.placed l' i hlt hi]
          refine hplaced.others _ fun i' hi' heq => ?_
          have := hdisjoint l' l i i' hi hi' (by omega) hl heq
          omega
        · rw [hplaced.placed i hi]
          exact hold _ (unshuffleSource_lt hi)
      · rw [hplaced.others x fun i hi => hx l i (by omega) hi]
        exact hm.others x fun l' i hl' hi => hx l' i (by omega) hi)
    ⟨rfl, rfl, fun _ _ hl => absurd hl (Nat.not_lt_zero _), fun _ _ => rfl⟩

/-- R176: an entry of the block comes from the source row of its row and the source column of its column. -/
theorem unshuffleLevel_places {ny nxtop nytop : Nat} {a t : Bank 32} (hny : nytop ≤ ny) (hA : nxtop * ny ≤ a.size)
    (htx : nxtop ≤ 2 * t.size) (hty : nytop ≤ 2 * t.size) :
    ∃ m, unshuffleLevel ny nxtop nytop (a, t) = .ok m ∧ m.1.size = a.size ∧ m.2.size = t.size ∧
      (∀ i j, i < nxtop → j < nytop →
        m.1.entry (ny * i + j) = a.entry (ny * unshuffleSource nxtop i + unshuffleSource nytop j)) ∧
      (∀ x, (∀ i j, i < nxtop → j < nytop → x ≠ ny * i + j) → m.1.entry x = a.entry x) := by
  have hinside : ∀ i j, i < nxtop → j < nytop → ny * i + j < a.size := fun i j hi hj =>
    (block_inside hi (hj.trans_le hny)).trans_le hA
  have hrow : ∀ i j, lineIndex (ny * i) 1 j = ny * i + j := fun i j => by rw [lineIndex, Nat.one_mul]
  have hcol : ∀ i j, lineIndex j ny i = ny * i + j := fun i j => Nat.add_comm ..
  obtain ⟨m, hm, hrows⟩ := unshuffle_lines (base := fun i => ny * i) (n := nytop) (stride := 1) (lines := nxtop) (a := a)
    (t := t) (fun _ => Nat.one_pos) (fun i j hi hj => hrow i j ▸ hinside i j hi hj) (by omega)
    (fun i i' j j' hj hj' _ _ h => (index_unique (hj.trans_le hny) (hj'.trans_le hny) (by rwa [hrow, hrow] at h)).1)
  obtain ⟨m', hm', hcols⟩ := unshuffle_lines (base := fun j => j) (n := nxtop) (stride := ny) (lines := nytop) (a := m.1)
    (t := m.2) (fun h => h.trans_le hny) (fun j i hj hi => by rw [hcol, hrows.size]; exact hinside i j hi hj)
    (by rw [hrows.buffer]; omega)
    (fun j j' i i' _ _ hj hj' h => (index_unique (hj.trans_le hny) (hj'.trans_le hny) (by rwa [hcol, hcol] at h)).2)
  refine ⟨m', ?_, hcols.size.trans hrows.size, hcols.buffer.trans hrows.buffer, fun i j hi hj => ?_, fun x hx => ?_⟩
  · simp only [unshuffleLevel, hm, hm']
  · calc m'.1.entry (ny * i + j) = m.1.entry (ny * unshuffleSource nxtop i + j) := by
          rw [← hcol, ← hcol]; exact hcols.placed j i hj hi
      _ = a.entry (ny * unshuffleSource nxtop i + unshuffleSource nytop j) := by
          rw [← hrow, ← hrow]; exact hrows.placed _ j (unshuffleSource_lt hi) hj
  · rw [hcols.others x fun j i hj hi => hcol i j ▸ hx i j hi hj]
    exact hrows.others x fun i j hi hj => hrow i j ▸ hx i j hi hj

theorem step_unshuffle {s : State} (h : At .unshuffle s) (hhdr : s.written.hdr = true) (hht : s.written.ht = true)
    {m : Bank 32 × Bank 32} (hm : unshuffleLevel s.hdr.cols s.ht.nxtop s.ht.nytop (s.A, s.T) = .ok m) :
    step s = .next (State.goto .combine { s with A := m.1, T := m.2 }) := by
  have hop : step s = runUnshuffle s := by rw [step_at h rfl, engineOp, h.2]
  refine hop.trans ((needs_true (by rw [hhdr, hht]; rfl)).trans ?_)
  rw [hm]

end Sys2Proof.Machine

namespace Sys2Proof.Proofs

open Sys2Proof.Machine Sys2Proof.Safety

/-- Settles O46: the even entries of the line come from its first half and the odd ones from its second. -/
theorem unshuffle : Obligations.Unshuffle := by
  intro base n stride a t hs ha ht
  obtain ⟨c, u, hcu, hc, hu⟩ := unshuffle_places hs ha ht
  have hplaced : ∀ i, i < n → c.readGrid (base + stride * i) = a.readGrid (base + stride * unshuffleSource n i) :=
    fun i hi => readGrid_congr (hc.size ▸ ha i hi) (ha _ (unshuffleSource_lt hi)) (hc.placed i hi)
  refine ⟨c, u, hcu, hc.size, hu.size, fun i hi => ?_, fun i hi => ?_, fun x hx => ?_, fun i hi => ?_, hu.others⟩
  · rw [hplaced (2 * i) (by omega), unshuffleSource_even]
  · rw [hplaced (2 * i + 1) (by omega), unshuffleSource_odd]
  · exact readGrid_congr_same hc.size (hc.others x hx)
  · rw [hu.saved i hi]
    exact (readGrid_ok (ha ((n + 1) / 2 + i) (by omega))).symm

/-- Settles O47: the lines of the block share no entry, so the rows and then the columns are unshuffled one by one. -/
theorem unshuffleLevel : Obligations.UnshuffleLevel := by
  refine ⟨fun ny nxtop nytop a t hny hA htx hty => ?_, fun s hs hhdr hht hny hA htx hty => ?_⟩
  · obtain ⟨m, hm, hsize, hbuffer, hplaced, hothers⟩ := unshuffleLevel_places hny hA htx hty
    have hinside : ∀ i j, i < nxtop → j < nytop → ny * i + j < a.size := fun i j hi hj =>
      (block_inside hi (hj.trans_le hny)).trans_le hA
    refine ⟨m, hm, hsize, hbuffer, fun i j hi hj => ?_, fun x hx => readGrid_congr_same hsize (hothers x hx)⟩
    exact readGrid_congr (hsize ▸ hinside i j hi hj) (hinside _ _ (unshuffleSource_lt hi) (unshuffleSource_lt hj))
      (hplaced i j hi hj)
  · obtain ⟨m, hm, -⟩ := unshuffleLevel_places hny hA htx hty
    exact ⟨m, hm, step_unshuffle hs hhdr hht hm⟩

end Sys2Proof.Proofs
end

section
/-! SUPPORT. The combine of a full block (R177): what it loads, and what its four stores leave. -/

namespace Sys2Proof.Machine

open Sys2Proof.Safety

/-- The grid after a list of stores, the first one first. -/
def Bank.setAll (a : Bank 32) (ws : List (Nat × Word)) : Bank 32 := ws.foldl (fun a w => a.setEntry w.1 w.2) a

@[simp] theorem setAll_size (a : Bank 32) (ws : List (Nat × Word)) : (a.setAll ws).size = a.size := by
  induction ws generalizing a with
  | nil => rfl
  | cons w ws ih => exact ih (a.setEntry w.1 w.2)

/-- A store changes no entry but those of the list. -/
theorem entry_setAll_other {a : Bank 32} {ws : List (Nat × Word)} {x : Nat} (h : ∀ w ∈ ws, w.1 ≠ x) :
    (a.setAll ws).entry x = a.entry x := by
  induction ws generalizing a with
  | nil => rfl
  | cons w ws ih =>
    exact (ih (a := a.setEntry w.1 w.2) fun u hu => h u (List.mem_cons_of_mem _ hu)).trans
      (entry_setEntry_other (h w (List.mem_cons_self ..)))

/-- An entry holds what the last store to it wrote. -/
theorem entry_setAll_append {a : Bank 32} (ws us : List (Nat × Word)) {x : Nat} {v : Word} (h : ∀ w ∈ us, w.1 ≠ x) :
    (a.setAll (ws ++ (x, v) :: us)).entry x = v := by
  have hsplit : a.setAll (ws ++ (x, v) :: us) = ((a.setAll ws).setEntry x v).setAll us := by
    simp only [Bank.setAll, List.foldl_append, List.foldl_cons]
  rw [hsplit, entry_setAll_other h, entry_setEntry_same]

/-- The registers with the four coefficients of the block at `s00` loaded (R177). -/
def loadBlock (ny s00 : Nat) (m : HtRegs × Bank 32) : HtRegs :=
  { m.1 with h0 := m.2.entry s00, hx := m.2.entry (s00 + ny), hy := m.2.entry (s00 + 1), hc := m.2.entry (s00 + ny + 1) }

/-- The stores of a full block, in the order of R177. -/
def blockStores (ny s00 : Nat) (r : HtRegs) : List (Nat × Word) :=
  [(s00 + ny + 1, asr (r.h0 + r.hx + r.hy + r.hc) r.shift.toNat), (s00 + ny, asr (r.h0 + r.hx - r.hy - r.hc) r.shift.toNat),
    (s00 + 1, asr (r.h0 - r.hx + r.hy - r.hc) r.shift.toNat), (s00, asr (r.h0 - r.hx - r.hy + r.hc) r.shift.toNat)]

theorem combineBlock_eq {ny s00 : Nat} {m : HtRegs × Bank 32} (h : s00 + ny + 1 < m.2.size) :
    combineBlock ny s00 m =
      .ok (roundBlock (loadBlock ny s00 m), m.2.setAll (blockStores ny s00 (roundBlock (loadBlock ny s00 m)))) := by
  have e0 := readGrid_ok (b := m.2) (i := s00) (by omega)
  have e1 := readGrid_ok (b := m.2) (i := s00 + ny) (by omega)
  have e2 := readGrid_ok (b := m.2) (i := s00 + 1) (by omega)
  have e3 := readGrid_ok h
  simp only [combineBlock, e0, e1, e2, e3, bind, Except.bind]
  rw [writeGrid_ok h]
  simp only
  rw [writeGrid_ok (by rw [setEntry_size]; omega)]
  simp only
  rw [writeGrid_ok (by rw [setEntry_size, setEntry_size]; omega)]
  simp only
  rw [writeGrid_ok (by rw [setEntry_size, setEntry_size, setEntry_size]; omega)]
  rfl

theorem ite_nonneg (v x y : Word) : (if nonneg v = true then x else y) = if 0 ≤ v.toInt then x else y := by
  simp only [nonneg, decide_eq_true_eq]

end Sys2Proof.Machine

namespace Sys2Proof.Proofs

open Sys2Proof.Machine Sys2Proof.Safety

/-- Settles O48: the four entries are read before any is written, and the stores go to four different ones. -/
theorem combineBlock : Obligations.CombineBlock := by
  intro ny s00 r a h0 hx hy hc hny hin e0 e1 e2 e3
  obtain ⟨-, rfl⟩ := readGrid_eq_ok.mp e0
  obtain ⟨-, rfl⟩ := readGrid_eq_ok.mp e1
  obtain ⟨-, rfl⟩ := readGrid_eq_ok.mp e2
  obtain ⟨-, rfl⟩ := readGrid_eq_ok.mp e3
  intro rnd1 rnd0 hc1 low0 hx1 hy1 low1 h1
  have hregs : roundBlock (loadBlock ny s00 (r, a)) =
      { r with h0 := h1, hx := hx1, hy := hy1, hc := hc1, lowbit0 := low0, lowbit1 := low1 } := by
    simp only [roundBlock, HtRegs.rnd1, HtRegs.rnd0, roundWith, towardZero, ite_nonneg]
    rfl
  have hstep := combineBlock_eq (m := (r, a)) hin
  rw [hregs] at hstep
  have hread : ∀ {ws us : List (Nat × Word)} {x : Nat} {v : Word}, x < a.size → (∀ w ∈ us, w.1 ≠ x) →
      (a.setAll (ws ++ (x, v) :: us)).readGrid x = .ok v := fun hx h =>
    readGrid_eq_ok.mpr ⟨hx.trans_eq (setAll_size ..).symm, entry_setAll_append _ _ h⟩
  refine ⟨_, _, hstep, setAll_size .., hread (ws := []) hin ?_, hread (ws := [_]) (by omega) ?_,
    hread (ws := [_, _]) (by omega) ?_, hread (ws := [_, _, _]) (us := []) (by omega) (by simp),
    fun x x0 x1 x2 x3 => readGrid_congr_same (setAll_size ..) (entry_setAll_other ?_), rfl⟩
  all_goals
    simp only [blockStores, List.mem_cons, List.not_mem_nil, or_false, forall_eq_or_imp, forall_eq]
    omega

end Sys2Proof.Proofs
end

section
/-! SUPPORT. The combine of a level (R178 to R181): each block, edge and corner reads and writes its own entries alone, and no
two share one. -/

namespace Sys2Proof.Machine

open Sys2Proof.Safety

/-! ### A step on entries of its own -/

/-- Two grids hold the same at the entries of `C`. -/
def AgreeOn (C : Nat → Prop) (a b : Bank 32) : Prop := ∀ x, C x → a.entry x = b.entry x

theorem AgreeOn.setAll {C : Nat → Prop} {a b : Bank 32} (h : AgreeOn C a b) (ws : List (Nat × Word)) :
    AgreeOn C (a.setAll ws) (b.setAll ws) := by
  induction ws generalizing a b with
  | nil => exact h
  | cons w ws ih =>
    refine ih fun x hx => ?_
    rw [entry_setEntry, entry_setEntry, h x hx]

/-- The rounding constants and the shift of two register files are the same (R173). -/
def SameConstants (r r' : HtRegs) : Prop :=
  r' = { r with
    oddx := r'.oddx, oddy := r'.oddy, lowbit0 := r'.lowbit0, lowbit1 := r'.lowbit1, h0 := r'.h0, hx := r'.hx, hy := r'.hy
    hc := r'.hc }

/-- A step of the combine in a grid of `n` entries that works on the entries of `C` alone: on them it gives what it gives in any
grid that agrees there. -/
def WorksOn (n : Nat) (C : Nat → Prop) (f : HtRegs × Bank 32 → Except Fault (HtRegs × Bank 32)) : Prop :=
  ∀ m0 m : HtRegs × Bank 32, m0.2.size = n → m.2.size = n → SameConstants m0.1 m.1 → AgreeOn C m.2 m0.2 →
    ∃ m0' m', f m0 = .ok m0' ∧ f m = .ok m' ∧ Combined m m' ∧ AgreeOn C m'.2 m0'.2 ∧
      ∀ x, ¬C x → m'.2.entry x = m.2.entry x

/-- A step that loads entries of `C` and makes of them its stores, all to entries of `C`, works on `C` alone. -/
theorem worksOn_of_stores {n : Nat} {C : Nat → Prop} {f : HtRegs × Bank 32 → Except Fault (HtRegs × Bank 32)}
    (regs : HtRegs × Bank 32 → HtRegs) (stores : HtRegs × Bank 32 → List (Nat × Word))
    (hf : ∀ m, m.2.size = n → f m = .ok (regs m, m.2.setAll (stores m))) (hregs : ∀ m, SameLevel m.1 (regs m))
    (hin : ∀ m, ∀ w ∈ stores m, C w.1)
    (hload : ∀ m0 m, SameConstants m0.1 m.1 → AgreeOn C m.2 m0.2 → stores m = stores m0) : WorksOn n C f := by
  intro m0 m h0 h hr hC
  refine ⟨_, _, hf m0 h0, hf m h, ⟨hregs m, setAll_size ..⟩, ?_, fun x hx => entry_setAll_other ?_⟩
  · rw [hload m0 m hr hC]
    exact hC.setAll _
  · rintro w hw rfl
    exact hx (hin m w hw)

theorem combineBlock_worksOn {n ny s00 : Nat} {C : Nat → Prop} (hn : s00 + ny + 1 < n) (h0 : C s00) (h1 : C (s00 + 1))
    (h2 : C (s00 + ny)) (h3 : C (s00 + ny + 1)) : WorksOn n C (combineBlock ny s00) := by
  refine worksOn_of_stores _ _ (fun m hm => combineBlock_eq (hm ▸ hn)) (fun m => rfl) (fun m => ?_) fun m0 m hr hC => ?_
  · simp only [blockStores, List.mem_cons, List.not_mem_nil, or_false, forall_eq_or_imp, forall_eq]
    exact ⟨h3, h2, h1, h0⟩
  · unfold loadBlock
    rw [hC _ h0, hC _ h1, hC _ h2, hC _ h3, hr]
    rfl

/-- The registers with the two coefficients of an odd-column edge loaded (R178). -/
def loadOddY (ny s00 : Nat) (m : HtRegs × Bank 32) : HtRegs :=
  { m.1 with h0 := m.2.entry s00, hx := m.2.entry (s00 + ny) }

/-- The stores of an odd-column edge (R178). -/
def oddYStores (ny s00 : Nat) (r : HtRegs) : List (Nat × Word) :=
  [(s00 + ny, asr (r.h0 + r.hx) r.shift.toNat), (s00, asr (r.h0 - r.hx) r.shift.toNat)]

theorem combineOddY_eq {ny s00 : Nat} {m : HtRegs × Bank 32} (h : s00 + ny < m.2.size) :
    combineOddY ny s00 m =
      .ok (roundOddY (loadOddY ny s00 m), m.2.setAll (oddYStores ny s00 (roundOddY (loadOddY ny s00 m)))) := by
  have e0 := readGrid_ok (b := m.2) (i := s00) (by omega)
  simp only [combineOddY, e0, readGrid_ok h, bind, Except.bind]
  rw [writeGrid_ok h]
  simp only
  rw [writeGrid_ok (by rw [setEntry_size]; omega)]
  rfl

theorem combineOddY_worksOn {n ny s00 : Nat} {C : Nat → Prop} (hn : s00 + ny < n) (h0 : C s00) (h2 : C (s00 + ny)) :
    WorksOn n C (combineOddY ny s00) := by
  refine worksOn_of_stores _ _ (fun m hm => combineOddY_eq (hm ▸ hn)) (fun m => rfl) (fun m => ?_) fun m0 m hr hC => ?_
  · simp only [oddYStores, List.mem_cons, List.not_mem_nil, or_false, forall_eq_or_imp, forall_eq]
    exact ⟨h2, h0⟩
  · unfold loadOddY
    rw [hC _ h0, hC _ h2, hr]
    rfl

/-- The registers with the two coefficients of an odd-row edge loaded (R179). -/
def loadOddX (s00 : Nat) (m : HtRegs × Bank 32) : HtRegs :=
  { m.1 with h0 := m.2.entry s00, hy := m.2.entry (s00 + 1) }

/-- The stores of an odd-row edge (R179). -/
def oddXStores (s00 : Nat) (r : HtRegs) : List (Nat × Word) :=
  [(s00 + 1, asr (r.h0 + r.hy) r.shift.toNat), (s00, asr (r.h0 - r.hy) r.shift.toNat)]

theorem combineOddX_eq {s00 : Nat} {m : HtRegs × Bank 32} (h : s00 + 1 < m.2.size) :
    combineOddX s00 m =
      .ok (roundOddX (loadOddX s00 m), m.2.setAll (oddXStores s00 (roundOddX (loadOddX s00 m)))) := by
  have e0 := readGrid_ok (b := m.2) (i := s00) (by omega)
  simp only [combineOddX, e0, readGrid_ok h, bind, Except.bind]
  rw [writeGrid_ok h]
  simp only
  rw [writeGrid_ok (by rw [setEntry_size]; omega)]
  rfl

theorem combineOddX_worksOn {n s00 : Nat} {C : Nat → Prop} (hn : s00 + 1 < n) (h0 : C s00) (h1 : C (s00 + 1)) :
    WorksOn n C (combineOddX s00) := by
  refine worksOn_of_stores _ _ (fun m hm => combineOddX_eq (hm ▸ hn)) (fun m => rfl) (fun m => ?_) fun m0 m hr hC => ?_
  · simp only [oddXStores, List.mem_cons, List.not_mem_nil, or_false, forall_eq_or_imp, forall_eq]
    exact ⟨h1, h0⟩
  · unfold loadOddX
    rw [hC _ h0, hC _ h1, hr]
    rfl

theorem combineCorner_eq {s00 : Nat} {m : HtRegs × Bank 32} (h : s00 < m.2.size) :
    combineCorner s00 m = .ok (m.1, m.2.setAll [(s00, asr (m.2.entry s00) m.1.shift.toNat)]) := by
  simp only [combineCorner, readGrid_ok h, bind, Except.bind]
  rw [writeGrid_ok h]
  rfl

theorem combineCorner_worksOn {n s00 : Nat} {C : Nat → Prop} (hn : s00 < n) (h0 : C s00) :
    WorksOn n C (combineCorner s00) := by
  refine worksOn_of_stores _ _ (fun m hm => combineCorner_eq (hm ▸ hn)) (fun m => rfl) (fun m => ?_) fun m0 m hr hC => ?_
  · simp only [List.mem_singleton, forall_eq]
    exact h0
  · rw [hC _ h0, hr]

/-! ### The blocks of a level -/

/-- Entry `x` belongs to the block of row pair `p` and column pair `q`, cut off at the extents of the level (R181). -/
def InBlock (ny : Nat) (r : HtRegs) (p q x : Nat) : Prop :=
  ∃ i j, i < r.nxtop ∧ j < r.nytop ∧ i / 2 = p ∧ j / 2 = q ∧ x = ny * i + j

theorem inBlock_base {ny : Nat} {r : HtRegs} {p q : Nat} (hp : 2 * p < r.nxtop) (hq : 2 * q < r.nytop) :
    InBlock ny r p q (ny * (2 * p) + 2 * q) :=
  ⟨2 * p, 2 * q, hp, hq, by omega, by omega, rfl⟩

theorem inBlock_right {ny : Nat} {r : HtRegs} {p q : Nat} (hp : 2 * p < r.nxtop) (hq : 2 * q + 1 < r.nytop) :
    InBlock ny r p q (ny * (2 * p) + 2 * q + 1) :=
  ⟨2 * p, 2 * q + 1, hp, hq, by omega, by omega, rfl⟩

theorem inBlock_below {ny : Nat} {r : HtRegs} {p q : Nat} (hp : 2 * p + 1 < r.nxtop) (hq : 2 * q < r.nytop) :
    InBlock ny r p q (ny * (2 * p) + 2 * q + ny) :=
  ⟨2 * p + 1, 2 * q, hp, hq, by omega, by omega, by rw [Nat.mul_succ]; omega⟩

theorem inBlock_diagonal {ny : Nat} {r : HtRegs} {p q : Nat} (hp : 2 * p + 1 < r.nxtop) (hq : 2 * q + 1 < r.nytop) :
    InBlock ny r p q (ny * (2 * p) + 2 * q + ny + 1) :=
  ⟨2 * p + 1, 2 * q + 1, hp, hq, by omega, by omega, by rw [Nat.mul_succ]; omega⟩

/-- The step of the block of row pair `p` and column pair `q`: full, or cut off at an odd extent (R177 to R181). -/
def combineAt (ny : Nat) (r : HtRegs) (p q : Nat) : HtRegs × Bank 32 → Except Fault (HtRegs × Bank 32) :=
  if 2 * p + 1 < r.nxtop then
    if 2 * q + 1 < r.nytop then combineBlock ny (ny * (2 * p) + 2 * q) else combineOddY ny (ny * (2 * p) + 2 * q)
  else if 2 * q + 1 < r.nytop then combineOddX (ny * (2 * p) + 2 * q)
  else combineCorner (ny * (2 * p) + 2 * q)

section

variable {ny : Nat} {r : HtRegs} {a : Bank 32} (hny : r.nytop ≤ ny) (hA : r.nxtop * ny ≤ a.size)

include hny in
theorem inBlock_unique {p q p' q' x : Nat} (h : InBlock ny r p q x) (h' : InBlock ny r p' q' x) : p = p' ∧ q = q' := by
  obtain ⟨i, j, -, hj, rfl, rfl, rfl⟩ := h
  obtain ⟨i', j', -, hj', rfl, rfl, heq⟩ := h'
  obtain ⟨hi, hj⟩ := index_unique (hj.trans_le hny) (hj'.trans_le hny) heq
  exact ⟨by rw [hi], by rw [hj]⟩

include hny hA in
theorem combineAt_worksOn {p q : Nat} (hp : 2 * p < r.nxtop) (hq : 2 * q < r.nytop) :
    WorksOn a.size (InBlock ny r p q) (combineAt ny r p q) := by
  have hinside : ∀ i j, i < r.nxtop → j < r.nytop → ny * i + j < a.size := fun i j hi hj =>
    (block_inside hi (hj.trans_le hny)).trans_le hA
  have hlt : ∀ x, InBlock ny r p q x → x < a.size := by
    rintro x ⟨i, j, hi, hj, -, -, rfl⟩
    exact hinside i j hi hj
  unfold combineAt
  split
  · rename_i hx
    split
    · rename_i hy
      have hcorner := inBlock_diagonal (ny := ny) hx hy
      exact combineBlock_worksOn (hlt _ hcorner) (inBlock_base hp hq) (inBlock_right hp hy) (inBlock_below hx hq) hcorner
    · have hbelow := inBlock_below (ny := ny) hx hq
      exact combineOddY_worksOn (hlt _ hbelow) (inBlock_base hp hq) hbelow
  · split
    · rename_i hy
      have hright := inBlock_right (ny := ny) hp hy
      exact combineOddX_worksOn (hlt _ hright) (inBlock_base hp hq) hright
    · exact combineCorner_worksOn (hlt _ (inBlock_base hp hq)) (inBlock_base hp hq)

/-- The blocks the combine comes to before that of row pair `p` and column pair `q`. -/
def BlockBefore (r : HtRegs) (p q p' q' : Nat) : Prop := 2 * q' < r.nytop ∧ (p' < p ∨ p' = p ∧ q' < q)

/-- Before the block of row pair `p` and column pair `q`, every block come to is what its own step makes of the grid `a`, and
every other entry is that of `a`. -/
structure CombinedBefore (ny : Nat) (r : HtRegs) (a : Bank 32) (p q : Nat) (m : HtRegs × Bank 32) : Prop where
  regs : SameLevel { r with oddx := r.nxtop % 2, oddy := r.nytop % 2 } m.1
  size : m.2.size = a.size
  blocks : ∀ p' q', BlockBefore r p q p' q' →
    ∃ m', combineAt ny r p' q' (r, a) = .ok m' ∧ AgreeOn (InBlock ny r p' q') m.2 m'.2
  others : ∀ x, (∀ p' q', BlockBefore r p q p' q' → ¬InBlock ny r p' q' x) → m.2.entry x = a.entry x

theorem combinedBefore_init (ny : Nat) (r : HtRegs) (a : Bank 32) :
    CombinedBefore ny r a 0 0 ({ r with oddx := r.nxtop % 2, oddy := r.nytop % 2 }, a) where
  regs := rfl
  size := rfl
  blocks p' q' h := by unfold BlockBefore at h; omega
  others _ _ := rfl

theorem SameLevel.sameConstants {r r' : HtRegs} (h : SameLevel { r with oddx := r.nxtop % 2, oddy := r.nytop % 2 } r') :
    SameConstants r r' := by
  unfold SameLevel at h
  unfold SameConstants
  rw [h]

/-- The end of a row of blocks is the beginning of the next. -/
theorem CombinedBefore.next_row {p q : Nat} {m : HtRegs × Bank 32} (h : CombinedBefore ny r a p q m)
    (hq : r.nytop ≤ 2 * q) : CombinedBefore ny r a (p + 1) 0 m := by
  have hbefore : ∀ p' q', BlockBefore r (p + 1) 0 p' q' ↔ BlockBefore r p q p' q' := by
    intro p' q'
    unfold BlockBefore
    omega
  exact ⟨h.regs, h.size, fun p' q' hb => h.blocks p' q' ((hbefore p' q').mp hb),
    fun x hx => h.others x fun p' q' hb => hx p' q' ((hbefore p' q').mpr hb)⟩

include hny hA in
/-- A block's step finds its entries as they were before the level, and leaves those of the blocks before. -/
theorem CombinedBefore.combineAt {p q : Nat} {m : HtRegs × Bank 32} (h : CombinedBefore ny r a p q m)
    (hp : 2 * p < r.nxtop) (hq : 2 * q < r.nytop) :
    ∃ m', combineAt ny r p q m = .ok m' ∧ CombinedBefore ny r a p (q + 1) m' := by
  have hfresh : ∀ p' q' x, BlockBefore r p q p' q' → InBlock ny r p' q' x → ¬InBlock ny r p q x := by
    rintro p' q' x ⟨-, hlt⟩ hx' hx
    obtain ⟨rfl, rfl⟩ := inBlock_unique hny hx' hx
    omega
  have hnext : ∀ p' q', BlockBefore r p (q + 1) p' q' ↔ BlockBefore r p q p' q' ∨ p' = p ∧ q' = q := by
    intro p' q'
    unfold BlockBefore
    omega
  have hold : AgreeOn (InBlock ny r p q) m.2 a := fun x hx => h.others x fun p' q' hb hx' => hfresh p' q' x hb hx' hx
  obtain ⟨m0', m', h0, hm, hcombined, hagree, hothers⟩ :=
    combineAt_worksOn hny hA hp hq (r, a) m rfl h.size h.regs.sameConstants hold
  obtain ⟨hregs, hsize⟩ := hcombined
  refine ⟨m', hm, h.regs.trans hregs, hsize.trans h.size, fun p' q' hb => ?_, fun x hx => ?_⟩
  · rcases (hnext p' q').mp hb with hb | ⟨rfl, rfl⟩
    · obtain ⟨m1, h1, hagree'⟩ := h.blocks p' q' hb
      exact ⟨m1, h1, fun x hx => (hothers x (hfresh p' q' x hb hx)).trans (hagree' x hx)⟩
    · exact ⟨m0', h0, hagree⟩
  · rw [hothers x (hx p q ((hnext p q).mpr (.inr ⟨rfl, rfl⟩)))]
    exact h.others x fun p' q' hb => hx p' q' ((hnext p' q').mpr (.inl hb))

/-! ### The loops of a level -/

theorem forEach_map {α : Type} (f : Nat → α → Except Fault α) (g : Nat → Nat) (is : List Nat) (a : α) :
    forEach f (is.map g) a = forEach (fun i => f (g i)) is a := by
  induction is generalizing a with
  | nil => rfl
  | cons i is ih =>
    simp only [List.map_cons, forEach]
    cases f (g i) a with
    | error e => rfl
    | ok b => exact ih b

/-- A loop over the even numbers below the even part of `n` is a loop over its pairs (R181). -/
theorem forEach_evens {α : Type} (f : Nat → α → Except Fault α) (n : Nat) (a : α) :
    forEach f (evensBelow (n - n % 2)) a = forEach (fun i => f (2 * i)) (List.range (n / 2)) a := by
  have hhalf : ceilDiv (n - n % 2) 2 = n / 2 := by rw [ceilDiv_two]; omega
  rw [evensBelow, hhalf, forEach_map]

include hny hA in
/-- The loop over the full column pairs of a row pair. -/
theorem CombinedBefore.pairs {p : Nat} {m : HtRegs × Bank 32} (h : CombinedBefore ny r a p 0 m) (hp : 2 * p < r.nxtop)
    {f : Nat → HtRegs × Bank 32 → Except Fault (HtRegs × Bank 32)}
    (hf : ∀ q m, 2 * q + 1 < r.nytop → f (2 * q) m = Machine.combineAt ny r p q m) :
    ∃ m', forEach f (evensBelow (m.1.nytop - m.1.oddy)) m = .ok m' ∧ CombinedBefore ny r a p (r.nytop / 2) m' := by
  obtain ⟨-, hnytop, -, hoddy⟩ := h.regs.fields
  rw [hnytop, hoddy]
  show ∃ m', forEach f (evensBelow (r.nytop - r.nytop % 2)) m = .ok m' ∧ _
  rw [forEach_evens]
  refine forEach_range_ok (P := CombinedBefore ny r a p) (r.nytop / 2) (fun q hq m hm => ?_) h
  rw [hf q m (by omega)]
  exact hm.combineAt hny hA hp (by omega)

include hny hA in
/-- The column an odd extent leaves over. -/
theorem CombinedBefore.last_column {p : Nat} {m : HtRegs × Bank 32} (h : CombinedBefore ny r a p (r.nytop / 2) m)
    (hp : 2 * p < r.nxtop) {f : HtRegs × Bank 32 → Except Fault (HtRegs × Bank 32)}
    (hf : r.nytop % 2 = 1 → f m = Machine.combineAt ny r p (r.nytop / 2) m) :
    ∃ m', (if m.1.oddy = 1 then f m else .ok m) = .ok m' ∧ CombinedBefore ny r a (p + 1) 0 m' := by
  obtain ⟨-, -, -, hoddy⟩ := h.regs.fields
  have hoddy : m.1.oddy = r.nytop % 2 := hoddy
  by_cases hodd : r.nytop % 2 = 1
  · rw [if_pos (hoddy.trans hodd), hf hodd]
    obtain ⟨m', hm', h'⟩ := h.combineAt hny hA hp (by omega)
    exact ⟨m', hm', h'.next_row (by omega)⟩
  · rw [if_neg (by rwa [hoddy])]
    exact ⟨m, rfl, h.next_row (by omega)⟩

include hny hA in
theorem CombinedBefore.combineRows {p : Nat} {m : HtRegs × Bank 32} (h : CombinedBefore ny r a p 0 m)
    (hp : 2 * p + 1 < r.nxtop) :
    ∃ m', combineRows ny (2 * p) m = .ok m' ∧ CombinedBefore ny r a (p + 1) 0 m' := by
  obtain ⟨m1, h1, hpairs⟩ := h.pairs hny hA (by omega) (f := fun j m => combineBlock ny (ny * (2 * p) + j) m)
    (fun q m hq => by rw [Machine.combineAt, if_pos hp, if_pos hq])
  obtain ⟨-, hnytop, -⟩ := hpairs.regs.fields
  have hnytop : m1.1.nytop = r.nytop := hnytop
  obtain ⟨m2, h2, hrow⟩ := hpairs.last_column hny hA (by omega)
    (f := combineOddY ny (ny * (2 * p) + (m1.1.nytop - 1)))
    (fun hodd => by
      rw [Machine.combineAt, if_pos hp, if_neg (by omega), hnytop, show r.nytop - 1 = 2 * (r.nytop / 2) by omega])
  refine ⟨m2, ?_, hrow⟩
  rw [Machine.combineRows, h1]
  exact h2

include hny hA in
theorem CombinedBefore.combineLastRow {m : HtRegs × Bank 32} (h : CombinedBefore ny r a (r.nxtop / 2) 0 m)
    (hodd : r.nxtop % 2 = 1) :
    ∃ m', combineLastRow ny m = .ok m' ∧ CombinedBefore ny r a (r.nxtop / 2 + 1) 0 m' := by
  obtain ⟨hnxtop, -⟩ := h.regs.fields
  have hrow : m.1.nxtop - 1 = 2 * (r.nxtop / 2) := by rw [hnxtop]; show r.nxtop - 1 = _; omega
  have hlast : ¬2 * (r.nxtop / 2) + 1 < r.nxtop := by omega
  obtain ⟨m1, h1, hpairs⟩ := h.pairs hny hA (by omega) (f := fun j m => combineOddX (ny * (2 * (r.nxtop / 2)) + j) m)
    (fun q m hq => by rw [Machine.combineAt, if_neg hlast, if_pos hq])
  obtain ⟨-, hnytop, -⟩ := hpairs.regs.fields
  have hnytop : m1.1.nytop = r.nytop := hnytop
  obtain ⟨m2, h2, hrow'⟩ := hpairs.last_column hny hA (by omega)
    (f := combineCorner (ny * (2 * (r.nxtop / 2)) + (m1.1.nytop - 1)))
    (fun hodd => by
      rw [Machine.combineAt, if_neg hlast, if_neg (by omega), hnytop, show r.nytop - 1 = 2 * (r.nytop / 2) by omega])
  refine ⟨m2, ?_, hrow'⟩
  rw [Machine.combineLastRow]
  simp only [hrow, h1]
  exact h2

include hny hA in
/-- R181: at the end of the level every block has been come to. -/
theorem combineLevel_blocks :
    ∃ m, combineLevel ny (r, a) = .ok m ∧ CombinedBefore ny r a ((r.nxtop + 1) / 2) 0 m := by
  obtain ⟨m1, h1, hrows⟩ := forEach_range_ok (f := fun p => combineRows ny (2 * p))
    (P := fun p => CombinedBefore ny r a p 0) (r.nxtop / 2)
    (fun p hp m hm => hm.combineRows hny hA (by omega)) (combinedBefore_init ny r a)
  rw [← forEach_evens] at h1
  obtain ⟨-, -, hoddx, -⟩ := hrows.regs.fields
  have hoddx : m1.1.oddx = r.nxtop % 2 := hoddx
  simp only [combineLevel, h1]
  by_cases hodd : r.nxtop % 2 = 1
  · rw [if_pos (hoddx.trans hodd), show (r.nxtop + 1) / 2 = r.nxtop / 2 + 1 by omega]
    exact hrows.combineLastRow hny hA hodd
  · rw [if_neg (by rwa [hoddx]), show (r.nxtop + 1) / 2 = r.nxtop / 2 by omega]
    exact ⟨m1, rfl, hrows⟩

include hny hA in
/-- After the level, an entry of a block is what the block's own step makes of the grid before the level. -/
theorem CombinedBefore.block {m : HtRegs × Bank 32} (h : CombinedBefore ny r a ((r.nxtop + 1) / 2) 0 m) {p q : Nat}
    (hp : 2 * p < r.nxtop) (hq : 2 * q < r.nytop) :
    ∃ b, Machine.combineAt ny r p q (r, a) = .ok b ∧ ∀ x, InBlock ny r p q x → m.2.readGrid x = b.2.readGrid x := by
  obtain ⟨b, hb, hagree⟩ := h.blocks p q ⟨hq, .inl (by omega)⟩
  obtain ⟨-, b', -, hb', hcombined, -⟩ := combineAt_worksOn hny hA hp hq (r, a) (r, a) rfl rfl rfl fun _ _ => rfl
  obtain rfl : b' = b := by rw [hb] at hb'; exact (Except.ok.inj hb').symm
  exact ⟨b', hb, fun x hx => readGrid_congr_same (h.size.trans hcombined.2.symm) (hagree x hx)⟩

end

theorem step_combine {s : State} (h : At .combine s) (hhdr : s.written.hdr = true) (hht : s.written.ht = true)
    {m : HtRegs × Bank 32} (hm : combineLevel s.hdr.cols (s.ht, s.A) = .ok m) :
    step s = .next (State.goto .halve { s with ht := m.1, A := m.2 }) := by
  have hop : step s = runCombine s := by rw [step_at h rfl, engineOp, h.2]
  refine hop.trans ((needs_true (by rw [hhdr, hht]; rfl)).trans ?_)
  rw [hm]

end Sys2Proof.Machine

namespace Sys2Proof.Proofs

open Sys2Proof.Machine Sys2Proof.Safety

/-- Settles O50: the blocks share no entry, so each finds its coefficients as they were before the level. -/
theorem combineLevel : Obligations.CombineLevel := by
  refine ⟨fun ny r a hny hA => ?_, fun s hs hhdr hht hny hA => ?_⟩
  · obtain ⟨m, hm, hlevel⟩ := combineLevel_blocks hny hA
    refine ⟨m, hm, hlevel.size, hlevel.regs, fun x hx => ?_, fun i j hi2 hj2 hi hj => ?_⟩
    · refine readGrid_congr_same hlevel.size (hlevel.others x fun p q _ => ?_)
      rintro ⟨i, j, hi, hj, -, -, heq⟩
      exact hx i j hi hj heq
    · obtain ⟨p, rfl⟩ : ∃ p, i = 2 * p := ⟨i / 2, by omega⟩
      obtain ⟨q, rfl⟩ : ∃ q, j = 2 * q := ⟨j / 2, by omega⟩
      obtain ⟨b, hb, hread⟩ := hlevel.block hny hA hi hj
      unfold combineAt at hb
      refine ⟨fun hx hy => ?_, fun hx hy => ?_, fun hx hy => ?_, fun hx hy => ?_⟩
      · rw [if_pos hx, if_pos hy] at hb
        refine ⟨b, hb, ?_⟩
        simp only [List.mem_cons, List.not_mem_nil, or_false, forall_eq_or_imp, forall_eq]
        exact ⟨hread _ (inBlock_base hi hj), hread _ (inBlock_right hi hy), hread _ (inBlock_below hx hj),
          hread _ (inBlock_diagonal hx hy)⟩
      · rw [if_pos hx, if_neg hy.ge.not_gt] at hb
        refine ⟨b, hb, ?_⟩
        simp only [List.mem_cons, List.not_mem_nil, or_false, forall_eq_or_imp, forall_eq]
        exact ⟨hread _ (inBlock_base hi hj), hread _ (inBlock_below hx hj)⟩
      · rw [if_neg hx.ge.not_gt, if_pos hy] at hb
        refine ⟨b, hb, ?_⟩
        simp only [List.mem_cons, List.not_mem_nil, or_false, forall_eq_or_imp, forall_eq]
        exact ⟨hread _ (inBlock_base hi hj), hread _ (inBlock_right hi hy)⟩
      · have hin : ny * (2 * p) + 2 * q < a.size := (block_inside hi (hj.trans_le hny)).trans_le hA
        rw [if_neg hx.ge.not_gt, if_neg hy.ge.not_gt, combineCorner_eq hin] at hb
        obtain rfl := Except.ok.inj hb
        refine ⟨_, readGrid_ok hin, (hread _ (inBlock_base hi hj)).trans (readGrid_eq_ok.mpr ⟨?_, ?_⟩)⟩
        · exact hin.trans_eq (setAll_size ..).symm
        · exact entry_setAll_append [] [] (by simp)
  · obtain ⟨m, hm, -⟩ := combineLevel_blocks hny hA
    exact ⟨m, hm, step_combine hs hhdr hht hm⟩

end Sys2Proof.Proofs
end

section
/-! SUPPORT. The undigitize step (R200 to R202): the loop multiplies the entries in order, each of them once. -/

namespace Sys2Proof.Machine

open Sys2Proof.Safety

/-- `c` is the grid `a` with its first `n` entries multiplied by `scale` (R200). -/
structure ScaledBelow (scale : Word) (a : Bank 32) (n : Nat) (c : Bank 32) : Prop where
  size : c.size = a.size
  scaled : ∀ j, j < n → c.entry j = a.entry j * scale
  others : ∀ j, n ≤ j → c.entry j = a.entry j

theorem scaledBelow_zero (scale : Word) (a : Bank 32) : ScaledBelow scale a 0 a where
  size := rfl
  scaled j hj := absurd hj (Nat.not_lt_zero j)
  others _ _ := rfl

/-- The loop's next round multiplies one entry more. -/
theorem ScaledBelow.scaleEntry {scale : Word} {a c : Bank 32} {n : Nat} (h : ScaledBelow scale a n c) (hn : n < a.size) :
    ∃ d, scaleEntry scale n c = .ok d ∧ ScaledBelow scale a (n + 1) d := by
  have hc : n < c.size := hn.trans_eq h.size.symm
  refine ⟨c.setEntry n (c.entry n * scale), ?_, h.size, fun j hj => ?_, fun j hj => ?_⟩
  · rw [Machine.scaleEntry, readGrid_ok hc]
    exact writeGrid_ok hc
  · by_cases heq : n = j
    · rw [← heq, entry_setEntry_same, h.others n le_rfl]
    · rw [entry_setEntry_other heq, h.scaled j (by omega)]
  · rw [entry_setEntry_other (by omega), h.others j (by omega)]

/-- A scale above 1 multiplies every entry of the grid (R200). -/
theorem scaleGrid_scales {scale : Word} (h : 1 < scale.toInt) (a : Bank 32) :
    ∃ c, scaleGrid scale a = .ok c ∧ ScaledBelow scale a a.size c := by
  rw [scaleGrid, if_pos h]
  exact forEach_range_ok a.size (fun _ hi _ hc => hc.scaleEntry hi) (scaledBelow_zero scale a)

/-- Any other scale leaves the grid as it is (R201). -/
theorem scaleGrid_unscaled {scale : Word} (h : scale.toInt ≤ 1) (a : Bank 32) : scaleGrid scale a = .ok a := by
  rw [scaleGrid, if_neg h.not_gt]

theorem step_undigitize {s : State} (h : At .undigitize s) (hw : s.written.hdr = true) {a : Bank 32}
    (ha : scaleGrid s.hdr.scale s.A = .ok a) : step s = .next (State.goto .hinit { s with A := a }) := by
  have hop : step s = undigitize s := by rw [step_at h rfl, engineOp, h.2]
  refine hop.trans ((needs_true hw).trans ?_)
  rw [ha]

end Sys2Proof.Machine

namespace Sys2Proof.Proofs

open Sys2Proof.Machine Sys2Proof.Safety

/-- Settles O40: with a scale above 1 every entry is multiplied as a word, which is the wrapped product (R202). -/
theorem undigitize : Obligations.Undigitize := by
  intro s hs hw
  by_cases hscale : 1 < s.hdr.scale.toInt
  · obtain ⟨c, hc, hscaled⟩ := scaleGrid_scales hscale s.A
    refine ⟨_, step_undigitize hs hw hc, rfl, hscaled.size, ⟨rfl, rfl, rfl, rfl⟩, fun i v hv => ?_⟩
    obtain ⟨hi, rfl⟩ := readGrid_eq_ok.mp hv
    refine ⟨s.A.entry i * s.hdr.scale, readGrid_eq_ok.mpr ⟨hi.trans_eq hscaled.size.symm, hscaled.scaled i hi⟩,
      fun _ => BitVec.toInt_mul .., fun hle => absurd hscale hle.not_gt⟩
  · have hkept := scaleGrid_unscaled (not_lt.mp hscale) s.A
    exact ⟨_, step_undigitize hs hw hkept, rfl, rfl, ⟨rfl, rfl, rfl, rfl⟩, fun i v hv =>
      ⟨v, hv, fun hlt => absurd hlt hscale, fun _ => rfl⟩⟩

end Sys2Proof.Proofs
end

section
/-! SUPPORT. The pack phase (R203 to R206): each step puts out the two bytes of one entry, and one more step ends the session. -/

namespace Sys2Proof.Machine

open Sys2Proof.Safety

/-- `v[15:8]`, the byte of an entry that is put out first (R203). -/
def highByte (v : Word) : Byte := v.extractLsb' 8 8

/-- `v[7:0]`, the byte that follows it (R203). -/
def lowByte (v : Word) : Byte := v.extractLsb' 0 8

theorem highByte_toNat (v : Word) : (highByte v).toNat = v.toNat / 256 % 256 := by
  simp [highByte, Nat.shiftRight_eq_div_pow]

theorem lowByte_toNat (v : Word) : (lowByte v).toNat = v.toNat % 256 := by
  simp [lowByte]

/-- The output when the first `n` entries of the grid are packed (R203, R204). -/
def packedBytes (a : Bank 32) : Nat → List Byte
  | 0 => []
  | n + 1 => packedBytes a n ++ [highByte (a.entry n), lowByte (a.entry n)]

@[simp] theorem packedBytes_length (a : Bank 32) (n : Nat) : (packedBytes a n).length = 2 * n := by
  induction n with
  | zero => rfl
  | succ n ih => rw [packedBytes, List.length_append, ih]; rfl

/-- Bytes `2i` and `2i+1` are those of entry `i` (R204). -/
theorem packedBytes_pixel (a : Bank 32) {n i : Nat} (hi : i < n) :
    (packedBytes a n)[2 * i]? = some (highByte (a.entry i)) ∧
      (packedBytes a n)[2 * i + 1]? = some (lowByte (a.entry i)) := by
  induction n with
  | zero => exact absurd hi (Nat.not_lt_zero i)
  | succ n ih =>
    rw [packedBytes]
    obtain hlt | rfl := Nat.lt_succ_iff_lt_or_eq.mp hi
    · have hlen := packedBytes_length a n
      rw [List.getElem?_append_left (by omega), List.getElem?_append_left (by omega)]
      exact ih hlt
    · rw [List.getElem?_append_right (by simp), List.getElem?_append_right (by simp)]
      simp

/-- The state of the pack phase with the first `n` entries packed. -/
def packing (s : State) (n : Nat) : State := { s with O := packedBytes s.A n, gi := n }

theorem packing_zero {s : State} (hgi : s.gi = 0) (hO : s.O = []) : packing s 0 = s := by
  rw [packing, packedBytes, ← hgi, ← hO]

theorem step_pack {s : State} (h : At .pack s) : step s = packPixel s := by
  rw [step_at h rfl, engineOp, h.2]

theorem step_pixel {s : State} (h : At .pack s) (hg : s.gi < s.A.size) :
    step s = .next { emit (lowByte (s.A.entry s.gi)) (emit (highByte (s.A.entry s.gi)) s) with gi := s.gi + 1 } := by
  rw [step_pack h, packPixel, if_pos hg, readGrid_ok hg]
  rfl

theorem step_packed {s : State} (h : At .pack s) (hg : s.A.size ≤ s.gi) : step s = .next (finish s) := by
  rw [step_pack h, packPixel, if_neg hg.not_gt]

/-- A step of the pack phase packs the next entry (R203). -/
theorem step_packing {s : State} (h : At .pack s) {n : Nat} (hn : n < s.A.size) :
    step (packing s n) = .next (packing s (n + 1)) := by
  rw [step_pixel (s := packing s n) h hn]
  simp [packing, packedBytes, emit]

/-- `n` steps from the start of the pack phase pack the first `n` entries. -/
theorem runSteps_packing {s : State} (h : At .pack s) (hstart : packing s 0 = s) (m : Nat) {n : Nat} (hn : n ≤ s.A.size) :
    runSteps (n + m) s = runSteps m (packing s n) := by
  induction n generalizing m with
  | zero => rw [Nat.zero_add, hstart]
  | succ n ih => rw [Nat.add_right_comm, Nat.add_assoc, ih _ (by omega), runSteps_succ (step_packing h hn)]

end Sys2Proof.Machine

namespace Sys2Proof.Proofs

open Sys2Proof.Machine Sys2Proof.Safety

/-- Settles O51: `nel` steps pack the entries in order, and the last step ends the session. -/
theorem packAll : Obligations.PackAll := by
  intro s hs hgi hO
  have hrun : runSteps (s.A.size + 1) s = .next (finish (packing s s.A.size)) := by
    rw [runSteps_packing hs (packing_zero hgi hO) 1 le_rfl, runSteps_succ (step_packed (s := packing s s.A.size) hs le_rfl)]
    rfl
  refine ⟨_, hrun, rfl, rfl, rfl, packedBytes_length .., fun i v hv => ?_, ⟨rfl, fun _ => rfl⟩, ⟨rfl, rfl, rfl, rfl⟩⟩
  obtain ⟨hi, rfl⟩ := readGrid_eq_ok.mp hv
  obtain ⟨hhigh, hlow⟩ := packedBytes_pixel s.A hi
  exact ⟨_, _, hhigh, hlow, highByte_toNat _, lowByte_toNat _⟩

end Sys2Proof.Proofs
end

section
/-! SUPPORT. The early ends of a session (R233, R238), and the transactions of the host that leave the session as it is (R245,
R246). -/

namespace Sys2Proof.Machine

open Sys2Proof.Safety

/-- With no move of the host to come, an ended engine waits (R241). -/
theorem step_ended {s : State} (hend : s.ended) (hplan : s.plan = []) : step s = .next s := by
  rcases hend with hp | hp | hp <;> exact (step_at ⟨hplan, hp⟩ rfl).trans (by rw [engineOp, hp])

theorem raise_ended (k : ErrKind) (s : State) : (raise k s).ended := .inr (.inl rfl)

theorem refuse_ended (r : RefuseReason) (s : State) : (refuse r s).ended := .inr (.inr rfl)

theorem hostStart_busy {bytes : List Byte} {s : State} (hbusy : s.status.state = .busy)
    (hlen : bytes.length ≤ s.cfg.maxInput) : hostStart bytes s = .next { s with reply := some .busy } := by
  have hrunning : s.busy = true := decide_eq_true hbusy
  rw [hostStart, if_neg hlen.not_gt, if_pos hrunning]

theorem hostReadOutput_done {s : State} (hdone : s.status.state = .done) :
    hostReadOutput s = .next { s with reply := some (.output s.O) } := by
  have hready : s.outputReady = true := decide_eq_true hdone
  rw [hostReadOutput, if_pos hready]

theorem hostReadOutput_notDone {s : State} (hdone : s.status.state ≠ .done) :
    hostReadOutput s = .next { s with reply := some .noOutput } := by
  have hready : ¬ s.outputReady = true := fun h => hdone (of_decide_eq_true h)
  rw [hostReadOutput, if_neg hready]

end Sys2Proof.Machine

namespace Sys2Proof.Proofs

open Sys2Proof.Machine Sys2Proof.Safety

/-- Settles O33: the fields are those `raise` writes, and the session it ends waits. -/
theorem raiseAction : Obligations.RaiseAction := fun k s =>
  ⟨raise_status k s, raise_phase k s, raise_A k s, raise_S k s, raise_T k s, raise_O k s,
    ⟨raise_input k s, raise_pos k s, raise_buf k s, raise_btg k s⟩, ⟨raise_cfg k s, raise_plan k s, raise_reply k s⟩,
    raise_hdr k s, step_ended (raise_ended k s), rfl⟩

/-- Settles O34: the fields are those `refuse` writes, and the session it ends waits. -/
theorem refuseAction : Obligations.RefuseAction := fun r s =>
  ⟨refuse_status r s, refuse_phase r s, refuse_A r s, refuse_S r s, refuse_T r s, refuse_O r s,
    ⟨refuse_input r s, refuse_pos r s, refuse_buf r s, refuse_btg r s⟩,
    ⟨refuse_cfg r s, refuse_plan r s, refuse_reply r s⟩, refuse_hdr r s, step_ended (refuse_ended r s)⟩

/-- Settles O37: the step is the host's transaction, and each of the three transactions writes the reply alone. -/
theorem hostTransactions : Obligations.HostTransactions := by
  refine ⟨fun bytes rest s hplan hbusy hlen => ?_,
    fun rest s => ⟨fun hplan => ?_, fun hplan hdone => ?_, fun hplan hdone => ?_⟩⟩
  · have hstep : step s = .next { s with plan := rest, reply := some .busy } :=
      (step_host hplan HostMove.noConfusion).trans (hostStart_busy hbusy hlen)
    exact ⟨_, hstep, rfl, rfl⟩
  · exact step_host hplan HostMove.noConfusion
  · exact (step_host hplan HostMove.noConfusion).trans (hostReadOutput_done hdone)
  · exact (step_host hplan HostMove.noConfusion).trans (hostReadOutput_notDone hdone)

end Sys2Proof.Proofs
end

section
/-! SUPPORT. The transactions of the host that replace the session: an accepted `START` (R261) and `RESET` (R260). -/

namespace Sys2Proof.Machine

open Sys2Proof.Safety

theorem hostStart_notBusy {bytes : List Byte} {s : State} (hbusy : s.status.state ≠ .busy)
    (hlen : bytes.length ≤ s.cfg.maxInput) : hostStart bytes s = .next (startSession bytes s) := by
  have hfree : ¬ s.busy = true := fun h => hbusy (of_decide_eq_true h)
  rw [hostStart, if_neg hlen.not_gt, if_neg hfree]

/-- With no move of the host to come, an engine without a session waits (R260). -/
theorem step_idle {s : State} (h : At .idle s) : step s = .next s := by
  rw [step_at h rfl, engineOp, h.2]

end Sys2Proof.Machine

namespace Sys2Proof.Proofs

open Sys2Proof.Machine Sys2Proof.Safety

/-- Settles O36: the step is the host's `START`, and the fields are those of the session it begins. -/
theorem startAccepted : Obligations.StartAccepted := by
  intro bytes rest s hplan hbusy hlen
  have hstep : step s = .next (startSession bytes { s with plan := rest }) :=
    (step_host hplan HostMove.noConfusion).trans (hostStart_notBusy hbusy hlen)
  exact ⟨_, hstep, startSession_input .., startSession_pos .., startSession_btg .., startSession_O ..,
    startSession_status .., rfl, startSession_phase .., startSession_point .., startSession_stage ..,
    startSession_plan .., startSession_reply .., startSession_cfg .., startSession_A ..⟩

/-- Settles O38: the step is the host's `RESET`, the fields are those of the power-on state (`resetState`), and its place is
`IDLE`. -/
theorem hostReset : Obligations.HostReset := by
  intro rest s hplan
  have hstep : step s = .next { State.reset with cfg := s.cfg, plan := rest } :=
    step_host hplan HostMove.noConfusion
  obtain ⟨hstate, hkind, herrPos, herrStage, hreason, hnx, hny, hscale, hsumall, hnbp0, hnbp1, hnbp2, hvalid, hlen,
    hphase, hinput, hpos, hbtg, hA, hO⟩ := resetState
  exact ⟨_, hstep, hstate, hphase, hkind, herrStage, herrPos, hreason, hnx, hny, hscale, hsumall, hnbp0, hnbp1, hnbp2,
    hvalid, hlen, hinput, hO, hpos, hbtg, hA, fun hrest => step_idle ⟨hrest, rfl⟩⟩

end Sys2Proof.Proofs
end
